-- ==== Sys2Proof/Word.lean ====
section
/-! DEFINITION. The plain data types of the C13318 core: bytes, words, limbs, limb vectors, points in limb form, and the ladder's
hidden working state (00_scope.md R8, 10_state.md R30, R34, R45). -/

namespace Sys2Proof

/-- One byte of the buffer BUF (10_state.md R38). -/
abbrev Byte := BitVec 8

/-- A 32-bit control register or command word (30_encoding.md R110). -/
abbrev Word := BitVec 32

/-- The widest value a host access carries (20_memory.md R82, R84). -/
abbrev Dword := BitVec 64

/-- A limb as it is stored: 63 bits, so that every limb is below 2⁶³ at all times (10_state.md R34). -/
abbrev Limb := BitVec 63

/-- The content of a field-element register: ten limbs, limb 0 first (10_state.md R30, R33). -/
abbrev Fe := Vector Limb 10

/-- An operand field of the command word, an unsigned 5-bit index (30_encoding.md R112). -/
abbrev Field5 := BitVec 5

/-- The triple (X, Y, Z) of a point register or of a point the ladder holds (10_state.md R35, R36). -/
structure Point where
  x : Fe
  y : Fe
  z : Fe
  deriving DecidableEq, Repr, Inhabited

/-- A projective triple of field values, as the point engine computes on it (41_point_layer.md R202, R205). -/
structure Triple where
  X : Nat
  Y : Nat
  Z : Nat
  deriving DecidableEq, Repr, Inhabited

/-- The phases of the ladder state machine (10_state.md R44, 42_scalar_ladder.md R241). -/
inductive Phase where
  | idle
  | decode
  | decompose
  | precompute
  | init
  | loopDouble
  | loopAdd
  | finalize
  deriving DecidableEq, Repr, Inhabited

/-- A point of the phase sequence: phase, window index and doubling counter, the three things LADDER shows (10_state.md R44). -/
structure LadderStage where
  phase : Phase
  win : Nat
  dbl : Nat
  deriving DecidableEq, Repr, Inhabited

/-- The internal state of the ladder state machine, which no host access reads (10_state.md R45). -/
structure LadderState where
  /-- Where in the phase sequence the machine is. -/
  stage : LadderStage
  /-- The decoded input point Q. -/
  q : Point
  /-- The signed digits d[0], d[1], ..., d[50]. -/
  digits : List Int
  /-- The top carry c of the recoding. -/
  topCarry : Nat
  /-- The table T: entry k holds (k+1)·Q. -/
  table : List Point
  /-- The accumulator ACC. -/
  acc : Point
  /-- The lookup buffer SEL. -/
  sel : Point
  /-- The scratch field elements of the point engine and the inverter. -/
  scratch : List Fe
  deriving DecidableEq, Repr, Inhabited

end Sys2Proof
end

