-- ==== Sys2Proof/Syntax.lean ====
section
/-! DEFINITION. The commands of the C13318 core, one constructor per row of 30_encoding.md R114, the five operand kinds of R112 and
the error causes of 60_exceptions.md R291. -/

namespace Sys2Proof

/-- The error causes, with NONE for "no error recorded" (60_exceptions.md R291). -/
inductive Cause where
  | none
  | illegalOpcode
  | illegalOperand
  | limbOverflow
  | limbUnderflow
  | invalidPoint
  deriving DecidableEq, Repr, Inhabited

/-- The five operand kinds (30_encoding.md R112). -/
inductive Kind where
  /-- `f`: a field-element register F[v]. -/
  | freg
  /-- `p`: a point register Pt[v]. -/
  | preg
  /-- `s`: a 32-byte slot of BUF. -/
  | slot
  /-- `q`: a 64-byte point slot of BUF. -/
  | pslot
  /-- `-`: unused, must be 0. -/
  | unused
  deriving DecidableEq, Repr, Inhabited

/-- The 21 commands (30_encoding.md R114). Operands are the raw 5-bit fields RD, RA, RB in that order. Fields of kind `-` have no
argument. -/
inductive Instr where
  | feZero (rd : Field5)
  | feOne (rd : Field5)
  | feCopy (rd ra : Field5)
  | feAdd (rd ra rb : Field5)
  | feSub (rd ra rb : Field5)
  | feAdd2p (rd ra : Field5)
  | feAdd4p (rd ra : Field5)
  | feMul (rd ra rb : Field5)
  | feSqr (rd ra : Field5)
  | feCarry (rd ra : Field5)
  | feReduce (rd ra : Field5)
  | feInv (rd ra : Field5)
  | feAddb (rd ra : Field5)
  | feMulb (rd ra : Field5)
  | feFrombytes (rd ra : Field5)
  | feTobytes (rd ra : Field5)
  | ptFrombytes (rd ra : Field5)
  | ptTobytes (rd ra : Field5)
  | ptAdd (rd ra rb : Field5)
  | ptDbl (rd ra : Field5)
  | scalarmult (rd ra rb : Field5)
  deriving DecidableEq, Repr, Inhabited

end Sys2Proof
end

