-- ==== Sys2Proof/WellFormed.lean ====
section
/-! DEFINITION. When a command's operands are legal for their kinds (30_encoding.md R112, R113, R116). -/

namespace Sys2Proof

/-- `legal(kind, v)` of 30_encoding.md R113. -/
def Kind.legal : Kind → Field5 → Bool
  | .freg, v => decide (v.toNat ≤ 31)
  | .preg, v => decide (v.toNat ≤ 7)
  | .slot, v => decide (v.toNat ≤ 7)
  | .pslot, v => decide (v.toNat ≤ 6)
  | .unused, v => decide (v.toNat = 0)

/-- Every operand of the command is legal for its kind (30_encoding.md R114 gives the kinds, R116 the refusal). -/
def Instr.wf : Instr → Bool
  | .feZero rd => Kind.freg.legal rd
  | .feOne rd => Kind.freg.legal rd
  | .feCopy rd ra => Kind.freg.legal rd && Kind.freg.legal ra
  | .feAdd rd ra rb => Kind.freg.legal rd && Kind.freg.legal ra && Kind.freg.legal rb
  | .feSub rd ra rb => Kind.freg.legal rd && Kind.freg.legal ra && Kind.freg.legal rb
  | .feAdd2p rd ra => Kind.freg.legal rd && Kind.freg.legal ra
  | .feAdd4p rd ra => Kind.freg.legal rd && Kind.freg.legal ra
  | .feMul rd ra rb => Kind.freg.legal rd && Kind.freg.legal ra && Kind.freg.legal rb
  | .feSqr rd ra => Kind.freg.legal rd && Kind.freg.legal ra
  | .feCarry rd ra => Kind.freg.legal rd && Kind.freg.legal ra
  | .feReduce rd ra => Kind.freg.legal rd && Kind.freg.legal ra
  | .feInv rd ra => Kind.freg.legal rd && Kind.freg.legal ra
  | .feAddb rd ra => Kind.freg.legal rd && Kind.freg.legal ra
  | .feMulb rd ra => Kind.freg.legal rd && Kind.freg.legal ra
  | .feFrombytes rd ra => Kind.freg.legal rd && Kind.slot.legal ra
  | .feTobytes rd ra => Kind.slot.legal rd && Kind.freg.legal ra
  | .ptFrombytes rd ra => Kind.preg.legal rd && Kind.pslot.legal ra
  | .ptTobytes rd ra => Kind.pslot.legal rd && Kind.preg.legal ra
  | .ptAdd rd ra rb => Kind.preg.legal rd && Kind.preg.legal ra && Kind.preg.legal rb
  | .ptDbl rd ra => Kind.preg.legal rd && Kind.preg.legal ra
  | .scalarmult rd ra rb => Kind.pslot.legal rd && Kind.slot.legal ra && Kind.pslot.legal rb

end Sys2Proof
end

