-- ==== Sys2Proof/Decode.lean ====
section
/-! DEFINITION. The command word: its fields (30_encoding.md R111), the opcode map (R114), the decoder (R113), which is total and
rejects by cause, and the encoder written from the same map. -/

namespace Sys2Proof

/-- Field OP, bits 31..26 (30_encoding.md R111). -/
def opField (w : Word) : BitVec 6 := w.extractLsb' 26 6

/-- Field RD, bits 25..21. -/
def rdField (w : Word) : Field5 := w.extractLsb' 21 5

/-- Field RA, bits 20..16. -/
def raField (w : Word) : Field5 := w.extractLsb' 16 5

/-- Field RB, bits 15..11. -/
def rbField (w : Word) : Field5 := w.extractLsb' 11 5

/-- The reserved field Z, bits 10..0. -/
def zField (w : Word) : BitVec 11 := w.extractLsb' 0 11

/-- A row of the opcode map: the kinds of RD, RA, RB and the command their values make (30_encoding.md R114). -/
structure OpRow where
  kd : Kind
  ka : Kind
  kb : Kind
  make : Field5 → Field5 → Field5 → Instr

/-- The opcode map (30_encoding.md R114). Every other opcode is reserved (R115) and has no row. -/
def opRow (op : BitVec 6) : Option OpRow :=
  match op.toNat with
  | 0x01 => some ⟨.freg, .unused, .unused, fun d _ _ => .feZero d⟩
  | 0x02 => some ⟨.freg, .unused, .unused, fun d _ _ => .feOne d⟩
  | 0x03 => some ⟨.freg, .freg, .unused, fun d a _ => .feCopy d a⟩
  | 0x04 => some ⟨.freg, .freg, .freg, fun d a b => .feAdd d a b⟩
  | 0x05 => some ⟨.freg, .freg, .freg, fun d a b => .feSub d a b⟩
  | 0x06 => some ⟨.freg, .freg, .unused, fun d a _ => .feAdd2p d a⟩
  | 0x07 => some ⟨.freg, .freg, .unused, fun d a _ => .feAdd4p d a⟩
  | 0x08 => some ⟨.freg, .freg, .freg, fun d a b => .feMul d a b⟩
  | 0x09 => some ⟨.freg, .freg, .unused, fun d a _ => .feSqr d a⟩
  | 0x0A => some ⟨.freg, .freg, .unused, fun d a _ => .feCarry d a⟩
  | 0x0B => some ⟨.freg, .freg, .unused, fun d a _ => .feReduce d a⟩
  | 0x0C => some ⟨.freg, .freg, .unused, fun d a _ => .feInv d a⟩
  | 0x0D => some ⟨.freg, .freg, .unused, fun d a _ => .feAddb d a⟩
  | 0x0E => some ⟨.freg, .freg, .unused, fun d a _ => .feMulb d a⟩
  | 0x0F => some ⟨.freg, .slot, .unused, fun d a _ => .feFrombytes d a⟩
  | 0x10 => some ⟨.slot, .freg, .unused, fun d a _ => .feTobytes d a⟩
  | 0x20 => some ⟨.preg, .pslot, .unused, fun d a _ => .ptFrombytes d a⟩
  | 0x21 => some ⟨.pslot, .preg, .unused, fun d a _ => .ptTobytes d a⟩
  | 0x22 => some ⟨.preg, .preg, .preg, fun d a b => .ptAdd d a b⟩
  | 0x23 => some ⟨.preg, .preg, .unused, fun d a _ => .ptDbl d a⟩
  | 0x30 => some ⟨.pslot, .slot, .pslot, fun d a b => .scalarmult d a b⟩
  | _ => none

/-- `decode(w)` (30_encoding.md R113): the opcode is looked at first, then Z and the operands (60_exceptions.md R300). -/
def decode (w : Word) : Except Cause Instr :=
  match opRow (opField w) with
  | none => .error .illegalOpcode
  | some r =>
    if zField w ≠ 0 then .error .illegalOperand
    else if r.kd.legal (rdField w) && r.ka.legal (raField w) && r.kb.legal (rbField w) then
      .ok (r.make (rdField w) (raField w) (rbField w))
    else .error .illegalOperand

/-- The word OP·2²⁶ + RD·2²¹ + RA·2¹⁶ + RB·2¹¹ (30_encoding.md R111), Z being 0. -/
def packWord (op rd ra rb : Nat) : Word :=
  BitVec.ofNat 32 (op * 2 ^ 26 + rd * 2 ^ 21 + ra * 2 ^ 16 + rb * 2 ^ 11)

/-- The opcode of each command (30_encoding.md R114). -/
def Instr.opcode : Instr → Nat
  | .feZero _ => 0x01
  | .feOne _ => 0x02
  | .feCopy _ _ => 0x03
  | .feAdd _ _ _ => 0x04
  | .feSub _ _ _ => 0x05
  | .feAdd2p _ _ => 0x06
  | .feAdd4p _ _ => 0x07
  | .feMul _ _ _ => 0x08
  | .feSqr _ _ => 0x09
  | .feCarry _ _ => 0x0A
  | .feReduce _ _ => 0x0B
  | .feInv _ _ => 0x0C
  | .feAddb _ _ => 0x0D
  | .feMulb _ _ => 0x0E
  | .feFrombytes _ _ => 0x0F
  | .feTobytes _ _ => 0x10
  | .ptFrombytes _ _ => 0x20
  | .ptTobytes _ _ => 0x21
  | .ptAdd _ _ _ => 0x22
  | .ptDbl _ _ => 0x23
  | .scalarmult _ _ _ => 0x30

/-- The RD field of a command. -/
def Instr.rd : Instr → Field5
  | .feZero d | .feOne d => d
  | .feCopy d _ | .feAdd2p d _ | .feAdd4p d _ | .feSqr d _ | .feCarry d _ | .feReduce d _ | .feInv d _ | .feAddb d _
  | .feMulb d _ | .feFrombytes d _ | .feTobytes d _ | .ptFrombytes d _ | .ptTobytes d _ | .ptDbl d _ => d
  | .feAdd d _ _ | .feSub d _ _ | .feMul d _ _ | .ptAdd d _ _ | .scalarmult d _ _ => d

/-- The RA field of a command, 0 where it is unused. -/
def Instr.ra : Instr → Field5
  | .feZero _ | .feOne _ => 0
  | .feCopy _ a | .feAdd2p _ a | .feAdd4p _ a | .feSqr _ a | .feCarry _ a | .feReduce _ a | .feInv _ a | .feAddb _ a
  | .feMulb _ a | .feFrombytes _ a | .feTobytes _ a | .ptFrombytes _ a | .ptTobytes _ a | .ptDbl _ a => a
  | .feAdd _ a _ | .feSub _ a _ | .feMul _ a _ | .ptAdd _ a _ | .scalarmult _ a _ => a

/-- The RB field of a command, 0 where it is unused. -/
def Instr.rb : Instr → Field5
  | .feZero _ | .feOne _ => 0
  | .feCopy _ _ | .feAdd2p _ _ | .feAdd4p _ _ | .feSqr _ _ | .feCarry _ _ | .feReduce _ _ | .feInv _ _ | .feAddb _ _
  | .feMulb _ _ | .feFrombytes _ _ | .feTobytes _ _ | .ptFrombytes _ _ | .ptTobytes _ _ | .ptDbl _ _ => 0
  | .feAdd _ _ b | .feSub _ _ b | .feMul _ _ b | .ptAdd _ _ b | .scalarmult _ _ b => b

/-- The command word of a command (30_encoding.md R111, R114). -/
def encode (i : Instr) : Word :=
  packWord i.opcode i.rd.toNat i.ra.toNat i.rb.toNat

/-- What the decoder reads from the low `nbits` bits of `w`, bit 0 being bit 0 of the command word (30_encoding.md R110: a command
is one 32-bit word, so nothing lies above it). -/
def decodeTableWord (nbits w : Nat) : Option Instr :=
  match decode (BitVec.ofNat 32 (w % 2 ^ nbits)) with
  | .ok i => some i
  | .error _ => none

end Sys2Proof
end

