-- ==== Sys2Proof/Config.lean ====
section
/-! DEFINITION. What the spec leaves to the platform (BASE) and the free values: constants without a body, so that no proof can see
what they are and a statement holds for every value of them (92_eei_decisions.md, OPEN parameters; 93_implementation_defined.md). -/

namespace Sys2Proof

/-- Which multiple of 0x4000 the platform places the block at (20_memory.md R80; OPEN parameter BASE). -/
opaque Config.baseIndex : Nat

/-- The host byte address of offset 0 of the block (20_memory.md R80): aligned to 0x4000, otherwise open. -/
def Config.base : Nat := 0x4000 * Config.baseIndex

/-- What the storage of BUF byte `j` holds after the power-on numbered `epoch` until something writes it
(10_state.md R51; 93_implementation_defined.md U1, U2, U25). -/
opaque Config.powerOnByte : (epoch : Nat) → (j : Nat) → Byte

/-- A free limb: draw number and position within the draw (93_implementation_defined.md U2, U3, U5). -/
opaque Config.freeLimb : (draw : Nat) → (k : Nat) → Limb

/-- A free byte: draw number and position within the draw (93_implementation_defined.md U3, U5). -/
opaque Config.freeByte : (draw : Nat) → (k : Nat) → Byte

/-- A free index into the ladder's phase sequence (OPEN parameter LADDER_READ, 93_implementation_defined.md U6). -/
opaque Config.freeIndex : (draw : Nat) → Nat

/-- The unspecified content of the hidden ladder and scratch state (10_state.md R45; 93_implementation_defined.md U19). -/
opaque Config.freeLadder : (draw : Nat) → LadderState

end Sys2Proof
end

