-- ==== Sys2Proof/Machine/State.lean ====
section
/-! DEFINITION. The state of the C13318 core (10_state.md), the host's coming events as plain data, the reasons a step can stop, and
the state after power-on reset (10_state.md R50, 70_reset_and_hazards.md R331). -/

namespace Sys2Proof.Machine

/-- The fields of the STATUS register; its reserved bits read 0 and take no write (10_state.md R42). -/
structure Status where
  /-- 1 from the acceptance of a command to its completion. -/
  busy : Bool
  /-- Set by a successful completion. -/
  done : Bool
  /-- Set by an error completion. -/
  err : Bool
  /-- Set when a host write is refused. -/
  ovr : Bool
  /-- The cause of the last error completion while ERR = 1. -/
  cause : Cause
  deriving DecidableEq, Repr, Inhabited

/-- What happens at the block's boundary next, in the order the environment chooses (00_scope.md R7, 70_reset_and_hazards.md R339).
Addresses are host byte addresses, sizes are in bytes. -/
inductive HostOp where
  /-- `HostRead(addr, size)`. -/
  | read (addr size : Nat)
  /-- `HostWrite(addr, size, value)`: the low `size` bytes of `value`. -/
  | write (addr size : Nat) (value : Dword)
  /-- The host waits and the core takes its step, if one is enabled. -/
  | core
  /-- The platform asserts the power-on reset input (70_reset_and_hazards.md R330). -/
  | powerOn
  deriving DecidableEq, Repr

/-- What the host port last answered. -/
inductive HostResponse where
  /-- No access has been made since power-on. -/
  | none
  /-- A read returned this value. -/
  | data (value : Dword)
  /-- A write was taken (which includes a write that only set OVR). -/
  | ack
  deriving DecidableEq, Repr, Inhabited

/-- The whole machine. -/
structure State where
  /-- F0 to F31, ten 63-bit limbs each (10_state.md R33, R34); the point registers are views of it (R35). -/
  f : Vector Fe 32
  /-- The byte buffer BUF as (index, byte) pairs, indexes strictly rising; a byte not listed is unwritten (10_state.md R38, R51). -/
  buf : List Host.Cell
  /-- CTRL.IE (10_state.md R41). CTRL.SRST holds no state (90_conflicts.md C14). -/
  ie : Bool
  /-- STATUS (10_state.md R42). -/
  status : Status
  /-- The CMD read-back: the last accepted command word (10_state.md R43). -/
  cmd : Word
  /-- The pending-command latch PENDING (10_state.md R43). -/
  pending : Option Word
  /-- The hidden state of the ladder, the point engine and the inverter (10_state.md R45). -/
  hidden : LadderState
  /-- The model's own: the coming events at the boundary, the next one first. With none left the core has the turn. -/
  host : List HostOp
  /-- The model's own: the host port's last answer. -/
  resp : HostResponse
  /-- The model's own: the host has read STATUS with BUSY = 0 since the last accepted command (70_reset_and_hazards.md R342). -/
  polled : Bool
  /-- The model's own: how many free values have been drawn. -/
  draws : Nat
  /-- The model's own: how many power-on resets came before this one; it names the unknown contents of BUF. -/
  epoch : Nat
  deriving DecidableEq, Repr

/-- The machine has no fault: every command completes with success or with an error completion, which is an ordinary next state
(60_exceptions.md R290), and a command that reads unwritten storage reads an unknown value (10_state.md R51). Safe: there is
nothing here that stops where the block goes on. -/
inductive Fault where
  deriving DecidableEq, Repr

/-- Why a step has no successor state without a fault. -/
inductive Refusal where
  /-- An instruction without a meaning. Raised only by an arm of `exec`; no arm does. Safe: the model stops. -/
  | notModelled (mnemonic : String)
  /-- A bus error: a host access to an unmapped offset, or with a width or alignment its row does not take (20_memory.md R88, which
  asks a model to refuse the host's step). Raised by the host port. Safe: the model stops where the block goes on unchanged. -/
  | busError (offset size : Nat)
  /-- A host access outside the block's window, which does not reach the block (20_memory.md R80). Raised by the host port. Safe: the
  model stops. -/
  | outsideWindow (addr : Nat)
  deriving DecidableEq, Repr

/-- The limb vector of ten zeros, ZERO (40_field_kernel.md R140). -/
def zeroFe : Fe := Vector.replicate 10 0

/-- The hidden state at `State.reset`: unspecified by the spec and never read before it is written, DESIGN CHOICE all zero. -/
def idleLadder : LadderState :=
  { stage := ⟨.idle, 0, 0⟩, q := ⟨zeroFe, zeroFe, zeroFe⟩, digits := [], topCarry := 0, table := [],
    acc := ⟨zeroFe, zeroFe, zeroFe⟩, sel := ⟨zeroFe, zeroFe, zeroFe⟩, scratch := [] }

/-- STATUS with every field 0. -/
def idleStatus : Status := { busy := false, done := false, err := false, ovr := false, cause := .none }

/-- The machine right after power-on reset (10_state.md R50). F0..F31 are unspecified there: DESIGN CHOICE all limbs 0. -/
def State.reset : State :=
  { f := Vector.replicate 32 zeroFe, buf := [], ie := false, status := idleStatus, cmd := 0, pending := none,
    hidden := idleLadder, host := [], resp := .none, polled := false, draws := 0, epoch := 0 }

end Sys2Proof.Machine
end

