-- ==== Sys2Proof/Machine/Ops.lean ====
section
/-! DEFINITION. The shared operations: byte sequences and their little-endian integers (00_scope.md R11), the byte buffer, the register
file, the free values, the two completions of a command (60_exceptions.md R297, R299), the acknowledgement that returns from an
error (R298), the two resets (70_reset_and_hazards.md R331, R332) and the acceptance of a command (10_state.md R43). -/

namespace Sys2Proof.Machine

/-! ## Byte sequences -/

/-- `le(bytes)`: the little-endian integer of a byte sequence (00_scope.md R11). -/
def le : List Byte → Nat
  | [] => 0
  | b :: bs => b.toNat + 256 * le bs

/-- `le_bytes_N(v)`: the N-byte little-endian encoding of v (00_scope.md R11). -/
def leBytes : (n : Nat) → (v : Nat) → List Byte
  | 0, _ => []
  | n + 1, v => BitVec.ofNat 8 v :: leBytes n (v / 256)

/-! ## The byte buffer -/

/-- BUF has 256 bytes (10_state.md R38). -/
def bufSize : Nat := 256

/-- The byte written at an index, if any was. -/
def lookupCell : List Host.Cell → Nat → Option Byte
  | [], _ => none
  | (i, b) :: m, j => if i = j then some b else lookupCell m j

/-- Put a byte into a list of cells at its place in the order. -/
def insertCell : List Host.Cell → Nat → Byte → List Host.Cell
  | [], j, b => [(j, b)]
  | (i, c) :: m, j, b => if j < i then (j, b) :: (i, c) :: m else if j = i then (j, b) :: m else (i, c) :: insertCell m j b

/-- Write one byte; BUF has no byte at an index of 256 or more, so such a write stores nothing. -/
def writeCell (m : List Host.Cell) (j : Nat) (b : Byte) : List Host.Cell :=
  if j < bufSize then insertCell m j b else m

/-- Write a byte sequence from index `off` up. -/
def writeCells (m : List Host.Cell) (off : Nat) : List Byte → List Host.Cell
  | [] => m
  | b :: bs => writeCells (writeCell m off b) (off + 1) bs

/-- Indexes strictly rising, from `lo` up and below 256. -/
def risingFrom : (lo : Nat) → List Host.Cell → Bool
  | _, [] => true
  | lo, (i, _) :: m => decide (lo ≤ i) && decide (i < bufSize) && risingFrom (i + 1) m

/-- The canonical form of BUF's cells: each index at most once, in rising order, inside BUF. An unlisted index is an unwritten byte,
which no listed byte equals, so equal buffers are equal lists. -/
def bufWf (m : List Host.Cell) : Bool := risingFrom 0 m

/-- Read one byte: what was last written, or the unknown content of unwritten storage (10_state.md R51). -/
def bufByte (s : State) (j : Nat) : Byte :=
  match lookupCell s.buf j with
  | some b => b
  | none => Config.powerOnByte s.epoch j

/-- `MemRead(off, n)` (00_scope.md R11). -/
def memRead (s : State) (off n : Nat) : List Byte := (List.range n).map fun k => bufByte s (off + k)

/-- `MemWrite(off, n, bytes)` (00_scope.md R11). -/
def memWrite (s : State) (off : Nat) (bytes : List Byte) : State := { s with buf := writeCells s.buf off bytes }

/-! ## The register file -/

/-- The content of F[n] (10_state.md R33). There is no register above F31. -/
def feReg (s : State) (n : Nat) : Fe := (s.f[n]?).getD zeroFe

/-- `F[n] <- v`, all ten limbs (00_scope.md R10). -/
def setFeReg (s : State) (n : Nat) (v : Fe) : State := { s with f := s.f.setIfInBounds n v }

/-- `Pt[n]`, the view (F[4n], F[4n+1], F[4n+2]) (10_state.md R35). -/
def ptReg (s : State) (n : Nat) : Point := ⟨feReg s (4 * n), feReg s (4 * n + 1), feReg s (4 * n + 2)⟩

/-- `Pt[n] <- (X, Y, Z)`; F[4n+3] keeps its value (10_state.md R35). -/
def setPtReg (s : State) (n : Nat) (v : Point) : State :=
  setFeReg (setFeReg (setFeReg s (4 * n) v.x) (4 * n + 1) v.y) (4 * n + 2) v.z

/-! ## Free values -/

/-- A field element of ten free limbs. -/
def freeFe (draw n : Nat) : Fe := Vector.ofFn fun i : Fin 10 => Config.freeLimb draw (10 * n + i.val)

/-- `n` free bytes. -/
def freeBytes (draw n : Nat) : List Byte := (List.range n).map fun k => Config.freeByte draw k

/-- Count one draw. -/
def countDraw (s : State) : State := { s with draws := s.draws + 1 }

/-- Leave the hidden state unspecified, as it is once the command that used it has ended (10_state.md R45). -/
def scrubHidden (s : State) : State := countDraw { s with hidden := Config.freeLadder s.draws }

/-! ## Acceptance, completion and return -/

/-- Latch a command word: what an accepted write to CMD does (10_state.md R43). The host has not yet seen this command complete. -/
def acceptCommand (s : State) (w : Word) : State :=
  { s with pending := some w, cmd := w, status := { s.status with busy := true, done := false }, polled := false }

/-- `complete_success()` (60_exceptions.md R299), the destinations being written already. -/
def completeSuccess (s : State) : State :=
  { s with pending := none, status := { s.status with done := true, busy := false } }

/-- `complete_error(k)` (60_exceptions.md R297): taking the block's one exception. No destination is written. -/
def completeError (k : Cause) (s : State) : State :=
  { s with pending := none, status := { s.status with cause := k, err := true, busy := false } }

/-- The return from an error: the host's write of 1 to STATUS.ERR clears ERR and CAUSE (60_exceptions.md R298). -/
def acknowledgeError (s : State) : State :=
  { s with status := { s.status with err := false, cause := .none } }

/-- Complete a command that was started in `s`: with success, its destinations written as in `t`, or with its data error, in which
case nothing of it is written (60_exceptions.md R297, R299). -/
def finish (s : State) : Except Cause State → State
  | .ok t => completeSuccess t
  | .error k => completeError k s

/-- Set OVR: the host made a write the block cannot take (60_exceptions.md R302). -/
def setOverrun (s : State) : State := { s with status := { s.status with ovr := true } }

/-! ## Resets -/

/-- Give the destinations of an abandoned command free values (70_reset_and_hazards.md R332). -/
def unspecifyDestination (i : Instr) (s : State) : State :=
  match i with
  | .feZero d | .feOne d | .feCopy d _ | .feAdd d _ _ | .feSub d _ _ | .feAdd2p d _ | .feAdd4p d _ | .feMul d _ _ | .feSqr d _
  | .feCarry d _ | .feReduce d _ | .feInv d _ | .feAddb d _ | .feMulb d _ | .feFrombytes d _ =>
    countDraw (setFeReg s d.toNat (freeFe s.draws 0))
  | .ptFrombytes d _ | .ptAdd d _ _ | .ptDbl d _ =>
    countDraw (setPtReg s d.toNat ⟨freeFe s.draws 0, freeFe s.draws 1, freeFe s.draws 2⟩)
  | .feTobytes d _ => countDraw (memWrite s (32 * d.toNat) (freeBytes s.draws 32))
  | .ptTobytes d _ | .scalarmult d _ _ => countDraw (memWrite s (32 * d.toNat) (freeBytes s.draws 64))

/-- Drop the pending command, if there is one: its destinations and the hidden state become unspecified. A word that does not decode
names no destination (70_reset_and_hazards.md R332). -/
def abandonPending (s : State) : State :=
  match s.pending with
  | none => s
  | some w =>
    match decode w with
    | .ok i => scrubHidden { unspecifyDestination i s with pending := none }
    | .error _ => scrubHidden { s with pending := none }

/-- Soft reset (70_reset_and_hazards.md R332), CTRL.IE being `ie` afterwards. LADDER reads 0 once nothing is pending. -/
def softReset (ie : Bool) (s : State) : State := { abandonPending s with ie := ie, status := idleStatus }

/-- Power-on reset while the machine runs (70_reset_and_hazards.md R331): the control state as in 10_state.md R50, the register
file, BUF and the hidden state unspecified. The host's coming events are no state of the block. -/
def powerOnReset (s : State) : State :=
  { f := Vector.ofFn fun n : Fin 32 => freeFe s.draws n.val
    buf := []
    ie := false
    status := idleStatus
    cmd := 0
    pending := none
    hidden := Config.freeLadder s.draws
    host := s.host
    resp := .none
    polled := false
    draws := s.draws + 1
    epoch := s.epoch + 1 }

end Sys2Proof.Machine
end

