-- ==== Sys2Proof/Machine/Field.lean ====
section
/-! DEFINITION. The field-element kernel on limb vectors (10_state.md R30 to R32, 40_field_kernel.md R140 to R146 and the arithmetic of
R153 to R165). Limb arithmetic is exact: it is done on natural numbers and checked before it is stored (R171). -/

namespace Sys2Proof.Machine

/-- The field modulus p = 2²⁵⁵ − 19 (00_scope.md R3). -/
def p : Nat := 2 ^ 255 - 19

/-- The curve constant b = 13318 (00_scope.md R3). -/
def curveB : Nat := 13318

/-- The weight exponent W[i] = ⌈25.5·i⌉ of limb i (10_state.md R30). -/
def W (i : Nat) : Nat := (51 * i + 1) / 2

/-- The radix exponent RAD[i] of limb i: 26 for even i, 25 for odd i (10_state.md R30). -/
def RAD (i : Nat) : Nat := if i % 2 = 0 then 26 else 25

/-- Limb i of a limb vector, as a number. -/
def limb (x : Fe) (i : Nat) : Nat := ((x[i]?).getD 0).toNat

/-- The limb vector of ten given numbers, each of which must be below 2⁶³ to be kept exactly. -/
def ofLimbs (r : Nat → Nat) : Fe := Vector.ofFn fun i : Fin 10 => BitVec.ofNat 63 (r i.val)

/-- The sum over the ten limb indexes. -/
def sum10 (g : Nat → Nat) : Nat := g 0 + g 1 + g 2 + g 3 + g 4 + g 5 + g 6 + g 7 + g 8 + g 9

/-- The integer value of ten exact limbs (10_state.md R31). -/
def valOf (r : Nat → Nat) : Nat := sum10 fun i => r i * 2 ^ W i

/-- `val(l)` of a limb vector (10_state.md R31). -/
def val (x : Fe) : Nat := valOf (limb x)

/-- `limbs(v)`: the reduced vector of value v < 2²⁵⁵ (40_field_kernel.md R141). -/
def limbs (v : Nat) : Fe := ofLimbs fun i => (v >>> W i) % 2 ^ RAD i

/-- Every limb is below its radix (10_state.md R32). -/
def isReduced (x : Fe) : Prop := ∀ i < 10, limb x i < 2 ^ RAD i

/-- Reduced and below p (10_state.md R32). -/
def isCanonical (x : Fe) : Prop := isReduced x ∧ val x < p

/-- ONE (40_field_kernel.md R140). -/
def oneFe : Fe := ofLimbs fun i => if i = 0 then 1 else 0

/-- Limb i of PL = limbs(p) (40_field_kernel.md R140). -/
def PL (i : Nat) : Nat := if i = 0 then 2 ^ 26 - 19 else 2 ^ RAD i - 1

/-- Limb i of P2L, twice PL limb by limb (40_field_kernel.md R140). -/
def P2L (i : Nat) : Nat := 2 * PL i

/-- Limb i of P4L, four times PL limb by limb (40_field_kernel.md R140). -/
def P4L (i : Nat) : Nat := 4 * PL i

/-- The overflow check `chk63`: LIMB_OVERFLOW when some limb reaches 2⁶³, the vector otherwise (40_field_kernel.md R142). -/
def chk63 (r : Nat → Nat) : Except Cause Fe :=
  if ∀ i < 10, r i < 2 ^ 63 then .ok (ofLimbs r) else .error .limbOverflow

/-- `carryval(V)` (40_field_kernel.md R143). -/
def carryval (V : Nat) : Nat := if V < 2 ^ 255 then V else 19 + (V - 19) % p

/-- `carry(l)` (40_field_kernel.md R143). -/
def carryFe (x : Fe) : Fe := limbs (carryval (val x))

/-- `canon(l)`, the value in [0, p) (40_field_kernel.md R146). -/
def canon (x : Fe) : Nat := val x % p

/-- `reduce(l)` (40_field_kernel.md R146). -/
def reduceFe (x : Fe) : Fe := limbs (canon x)

/-- The coefficient c(i, j): 2 when both indexes are odd (40_field_kernel.md R145). -/
def cross (i j : Nat) : Nat := if i % 2 = 1 ∧ j % 2 = 1 then 2 else 1

/-- The product accumulator h_k: the products with i + j = k, and 19 times those with i + j = k + 10 (40_field_kernel.md R145). -/
def accMul (a b : Nat → Nat) (k : Nat) : Nat :=
  (sum10 fun i => if i ≤ k then cross i (k - i) * a i * b (k - i) else 0)
    + 19 * (sum10 fun i => if k < i then cross i (k + 10 - i) * a i * b (k + 10 - i) else 0)

/-- The reduced product of two limb vectors: what FE_MUL stores when no accumulator overflows (40_field_kernel.md R157). -/
def productFe (x y : Fe) : Fe := limbs (carryval (valOf (accMul (limb x) (limb y))))

/-- FE_MUL: the accumulators are checked, then carried (40_field_kernel.md R157). -/
def mulFe (x y : Fe) : Except Cause Fe :=
  if ∀ k < 10, accMul (limb x) (limb y) k < 2 ^ 63 then .ok (productFe x y) else .error .limbOverflow

/-- FE_ADD, limb by limb with no carry (40_field_kernel.md R153). -/
def addFe (x y : Fe) : Except Cause Fe := chk63 fun i => limb x i + limb y i

/-- FE_SUB, limb by limb with no borrow: LIMB_UNDERFLOW when some difference is negative (40_field_kernel.md R154). -/
def subFe (x y : Fe) : Except Cause Fe :=
  if ∀ i < 10, limb y i ≤ limb x i then .ok (ofLimbs fun i => limb x i - limb y i) else .error .limbUnderflow

/-- FE_ADD2P (40_field_kernel.md R155). -/
def add2pFe (x : Fe) : Except Cause Fe := chk63 fun i => limb x i + P2L i

/-- FE_ADD4P (40_field_kernel.md R156). -/
def add4pFe (x : Fe) : Except Cause Fe := chk63 fun i => limb x i + P4L i

/-- FE_ADDB: b is added to limb 0 (40_field_kernel.md R162). -/
def addbFe (x : Fe) : Except Cause Fe := chk63 fun i => if i = 0 then limb x 0 + curveB else limb x i

/-- FE_MULB: every limb times b, checked, then carried (40_field_kernel.md R163). -/
def mulbFe (x : Fe) : Except Cause Fe :=
  if ∀ i < 10, curveB * limb x i < 2 ^ 63 then .ok (limbs (carryval (valOf fun i => curveB * limb x i)))
  else .error .limbOverflow

/-- SQR of the inverter: the exact function of FE_SQR (40_field_kernel.md R158, R161). -/
def sqrFe (x : Fe) : Fe := productFe x x

/-- SQR^n: n successive squarings (40_field_kernel.md R161). -/
def sqrTimes : Nat → Fe → Fe
  | 0, x => x
  | n + 1, x => sqrTimes n (sqrFe x)

/-- FE_INV: the fixed addition chain for z^(p−2) (40_field_kernel.md R161). -/
def invFe (x : Fe) : Fe :=
  let z := carryFe x
  let t0 := sqrFe z
  let t1 := sqrTimes 2 t0
  let t1 := productFe z t1
  let t0 := productFe t0 t1
  let t2 := sqrFe t0
  let t1 := productFe t1 t2
  let t2 := sqrTimes 5 t1
  let t1 := productFe t2 t1
  let t2 := sqrTimes 10 t1
  let t2 := productFe t2 t1
  let t3 := sqrTimes 20 t2
  let t2 := productFe t3 t2
  let t2 := sqrTimes 10 t2
  let t1 := productFe t2 t1
  let t2 := sqrTimes 50 t1
  let t2 := productFe t2 t1
  let t3 := sqrTimes 100 t2
  let t2 := productFe t3 t2
  let t2 := sqrTimes 50 t2
  let t1 := productFe t2 t1
  let t1 := sqrTimes 5 t1
  productFe t1 t0

/-- The integer a field-element encoding stands for: bit 255 is discarded (20_memory.md R86, 40_field_kernel.md R164). -/
def decodeValue (bytes : List Byte) : Nat := le bytes % 2 ^ 255

/-- The canonical 32-byte encoding of a limb vector (20_memory.md R86, 40_field_kernel.md R165). -/
def encodeFe (x : Fe) : List Byte := leBytes 32 (canon x)

/-- The mask of a bit: all ones or all zeros, 0 − m in 63 bits (41_point_layer.md R208). -/
def maskOf (m : Bool) : Limb := 0 - (if m then 1 else 0)

/-- A limb-wise operation on two limb vectors. -/
def limbwise (op : Limb → Limb → Limb) (x y : Fe) : Fe :=
  Vector.ofFn fun i : Fin 10 => op x[i] y[i]

/-- `select(m, a, b)` = (a AND M) OR (b AND NOT M), limb by limb (41_point_layer.md R208). -/
def selectFe (m : Bool) (x y : Fe) : Fe :=
  limbwise (fun a b => (a &&& maskOf m) ||| (b &&& ~~~ maskOf m)) x y

end Sys2Proof.Machine
end

