-- ==== Sys2Proof/Machine/Operands.lean ====
section
/-! DEFINITION. The operand forms (30_encoding.md R112): a field register, a point register, a slot and a point slot, each read and
written through its 5-bit field. -/

namespace Sys2Proof.Machine

/-- Read an operand of kind `f`. -/
def readF (s : State) (v : Field5) : Fe := feReg s v.toNat

/-- Write an operand of kind `f`. -/
def writeF (s : State) (v : Field5) (x : Fe) : State := setFeReg s v.toNat x

/-- Read an operand of kind `p`. -/
def readP (s : State) (v : Field5) : Point := ptReg s v.toNat

/-- Write an operand of kind `p`. -/
def writeP (s : State) (v : Field5) (P : Point) : State := setPtReg s v.toNat P

/-- The index in BUF of the first byte of a slot (10_state.md R38). -/
def slotBase (v : Field5) : Nat := 32 * v.toNat

/-- Read an operand of kind `s`: 32 bytes. -/
def readS (s : State) (v : Field5) : List Byte := memRead s (slotBase v) 32

/-- Read an operand of kind `q`: 64 bytes, two consecutive slots. -/
def readQ (s : State) (v : Field5) : List Byte := memRead s (slotBase v) 64

/-- Write the bytes of an operand of kind `s` or `q`, from the start of its first slot. -/
def writeSlots (s : State) (v : Field5) (bytes : List Byte) : State := memWrite s (slotBase v) bytes

end Sys2Proof.Machine
end

