-- ==== Sys2Proof/Machine/FieldCommands.lean ====
section
/-! DEFINITION. The meanings of the field commands (40_field_kernel.md R150 to R165). Every operand is read in the state before the
command and the destination is written once (10_state.md R37). Each command completes, with success or with its data error, in
one step (70_reset_and_hazards.md R339). -/

namespace Sys2Proof.Machine

/-- Complete a command started in `s` whose result for register RD is `r`. -/
def finishF (s : State) (rd : Field5) (r : Except Cause Fe) : Host.Outcome State Fault Refusal :=
  .next (finish s (r.map (writeF s rd)))

/-- FE_ZERO (R150). -/
def execFeZero (rd : Field5) (s : State) : Host.Outcome State Fault Refusal := finishF s rd (.ok zeroFe)

/-- FE_ONE (R151). -/
def execFeOne (rd : Field5) (s : State) : Host.Outcome State Fault Refusal := finishF s rd (.ok oneFe)

/-- FE_COPY (R152): the ten limbs unchanged, whatever their form. -/
def execFeCopy (rd ra : Field5) (s : State) : Host.Outcome State Fault Refusal := finishF s rd (.ok (readF s ra))

/-- FE_ADD (R153). -/
def execFeAdd (rd ra rb : Field5) (s : State) : Host.Outcome State Fault Refusal :=
  finishF s rd (addFe (readF s ra) (readF s rb))

/-- FE_SUB (R154). -/
def execFeSub (rd ra rb : Field5) (s : State) : Host.Outcome State Fault Refusal :=
  finishF s rd (subFe (readF s ra) (readF s rb))

/-- FE_ADD2P (R155). -/
def execFeAdd2p (rd ra : Field5) (s : State) : Host.Outcome State Fault Refusal := finishF s rd (add2pFe (readF s ra))

/-- FE_ADD4P (R156). -/
def execFeAdd4p (rd ra : Field5) (s : State) : Host.Outcome State Fault Refusal := finishF s rd (add4pFe (readF s ra))

/-- FE_MUL (R157). -/
def execFeMul (rd ra rb : Field5) (s : State) : Host.Outcome State Fault Refusal :=
  finishF s rd (mulFe (readF s ra) (readF s rb))

/-- FE_SQR (R158): FE_MUL with both operands the same. -/
def execFeSqr (rd ra : Field5) (s : State) : Host.Outcome State Fault Refusal :=
  finishF s rd (mulFe (readF s ra) (readF s ra))

/-- FE_CARRY (R159). -/
def execFeCarry (rd ra : Field5) (s : State) : Host.Outcome State Fault Refusal := finishF s rd (.ok (carryFe (readF s ra)))

/-- FE_REDUCE (R160). -/
def execFeReduce (rd ra : Field5) (s : State) : Host.Outcome State Fault Refusal := finishF s rd (.ok (reduceFe (readF s ra)))

/-- FE_INV (R161). The chain's scratch values are hidden state, left unspecified (10_state.md R45). -/
def execFeInv (rd ra : Field5) (s : State) : Host.Outcome State Fault Refusal :=
  finishF (scrubHidden s) rd (.ok (invFe (readF s ra)))

/-- FE_ADDB (R162). -/
def execFeAddb (rd ra : Field5) (s : State) : Host.Outcome State Fault Refusal := finishF s rd (addbFe (readF s ra))

/-- FE_MULB (R163). -/
def execFeMulb (rd ra : Field5) (s : State) : Host.Outcome State Fault Refusal := finishF s rd (mulbFe (readF s ra))

/-- FE_FROMBYTES (R164): bit 255 is discarded and the value is not reduced mod p. -/
def execFeFrombytes (rd ra : Field5) (s : State) : Host.Outcome State Fault Refusal :=
  finishF s rd (.ok (limbs (decodeValue (readS s ra))))

/-- FE_TOBYTES (R165): the canonical encoding goes to slot RD. -/
def execFeTobytes (rd ra : Field5) (s : State) : Host.Outcome State Fault Refusal :=
  .next (finish s (.ok (writeSlots s rd (encodeFe (readF s ra)))))

end Sys2Proof.Machine
end

