-- ==== Sys2Proof/Machine/Curve.lean ====
section
/-! DEFINITION. The point engine (41_point_layer.md): the complete addition and doubling as sequences of field operations on values mod
p (R203, R204), the curve test (R201), negation (R207), selection (R208) and the point wire format (R210, R211). -/

namespace Sys2Proof.Machine

/-! ## Field values mod p -/

/-- Multiplication mod p. -/
def fmul (a b : Nat) : Nat := a * b % p

/-- Multiplication by the curve constant mod p. -/
def fmulb (a : Nat) : Nat := curveB * a % p

/-- Addition mod p. -/
def fadd (a b : Nat) : Nat := (a + b) % p

/-- Subtraction mod p. -/
def fsub (a b : Nat) : Nat := (a + (p - b % p)) % p

/-- Square and multiply over the `n` low bits of the exponent `e`: acc · b^(e mod 2ⁿ) mod p. -/
def powLoop : (n : Nat) → (b e acc : Nat) → Nat
  | 0, _, _, acc => acc
  | n + 1, b, e, acc => powLoop n (fmul b b) (e / 2) (if e % 2 = 1 then fmul acc b else acc)

/-- `inv_p(x)` is x^(p−2) mod p (00_scope.md R13): the inverse of a nonzero value, and 0 for 0. -/
def invp (x : Nat) : Nat := powLoop 255 (x % p) (p - 2) 1

/-! ## The group law -/

/-- `padd`, the complete projective addition for a = −3 (41_point_layer.md R203). -/
def padd (P Q : Triple) : Triple :=
  let X1 := P.X
  let Y1 := P.Y
  let Z1 := P.Z
  let X2 := Q.X
  let Y2 := Q.Y
  let Z2 := Q.Z
  let t0 := fmul X1 X2
  let t1 := fmul Y1 Y2
  let t2 := fmul Z1 Z2
  let t3 := fadd X1 Y1
  let t4 := fadd X2 Y2
  let t3 := fmul t3 t4
  let t4 := fadd t0 t1
  let t3 := fsub t3 t4
  let t4 := fadd Y1 Z1
  let X3 := fadd Y2 Z2
  let t4 := fmul t4 X3
  let X3 := fadd t1 t2
  let t4 := fsub t4 X3
  let X3 := fadd X1 Z1
  let Y3 := fadd X2 Z2
  let X3 := fmul X3 Y3
  let Y3 := fadd t0 t2
  let Y3 := fsub X3 Y3
  let Z3 := fmulb t2
  let X3 := fsub Y3 Z3
  let Z3 := fadd X3 X3
  let X3 := fadd X3 Z3
  let Z3 := fsub t1 X3
  let X3 := fadd t1 X3
  let Y3 := fmulb Y3
  let t1 := fadd t2 t2
  let t2 := fadd t1 t2
  let Y3 := fsub Y3 t2
  let Y3 := fsub Y3 t0
  let t1 := fadd Y3 Y3
  let Y3 := fadd t1 Y3
  let t1 := fadd t0 t0
  let t0 := fadd t1 t0
  let t0 := fsub t0 t2
  let t1 := fmul t4 Y3
  let t2 := fmul t0 Y3
  let Y3 := fmul X3 Z3
  let Y3 := fadd Y3 t2
  let X3 := fmul t3 X3
  let X3 := fsub X3 t1
  let Z3 := fmul t4 Z3
  let t1 := fmul t3 t0
  let Z3 := fadd Z3 t1
  ⟨X3, Y3, Z3⟩

/-- `pdbl`, the complete projective doubling for a = −3 (41_point_layer.md R204). -/
def pdbl (P : Triple) : Triple :=
  let X := P.X
  let Y := P.Y
  let Z := P.Z
  let t0 := fmul X X
  let t1 := fmul Y Y
  let t2 := fmul Z Z
  let t3 := fmul X Y
  let t3 := fadd t3 t3
  let Z3 := fmul X Z
  let Z3 := fadd Z3 Z3
  let Y3 := fmulb t2
  let Y3 := fsub Y3 Z3
  let X3 := fadd Y3 Y3
  let Y3 := fadd X3 Y3
  let X3 := fsub t1 Y3
  let Y3 := fadd t1 Y3
  let Y3 := fmul X3 Y3
  let X3 := fmul X3 t3
  let t3 := fadd t2 t2
  let t2 := fadd t2 t3
  let Z3 := fmulb Z3
  let Z3 := fsub Z3 t2
  let Z3 := fsub Z3 t0
  let t3 := fadd Z3 Z3
  let Z3 := fadd Z3 t3
  let t3 := fadd t0 t0
  let t0 := fadd t3 t0
  let t0 := fsub t0 t2
  let t0 := fmul t0 Z3
  let Y3 := fadd Y3 t0
  let t0 := fmul Y Z
  let t0 := fadd t0 t0
  let Z3 := fmul t0 Z3
  let X3 := fsub X3 Z3
  let Z3 := fmul t0 t1
  let Z3 := fadd Z3 Z3
  let Z3 := fadd Z3 Z3
  ⟨X3, Y3, Z3⟩

/-- The values mod p of a triple of limb vectors: all the engine sees of its inputs (41_point_layer.md R205). -/
def residues (P : Point) : Triple := ⟨canon P.x, canon P.y, canon P.z⟩

/-- A triple of values written in canonical form (41_point_layer.md R205). -/
def ofTriple (T : Triple) : Point := ⟨limbs (T.X % p), limbs (T.Y % p), limbs (T.Z % p)⟩

/-- The engine's addition on limb vectors (41_point_layer.md R203, R205). -/
def addPoints (P Q : Point) : Point := ofTriple (padd (residues P) (residues Q))

/-- The engine's doubling on limb vectors (41_point_layer.md R204, R205). -/
def dblPoint (P : Point) : Point := ofTriple (pdbl (residues P))

/-- `pneg`: (X, (−Y) mod p, Z) (41_point_layer.md R207). -/
def negPoint (P : Point) : Point := ⟨P.x, limbs (fsub 0 (canon P.y)), P.z⟩

/-- The block's identity triple (0, 1, 0) (10_state.md R36, 41_point_layer.md R202). -/
def identityPoint : Point := ⟨zeroFe, oneFe, zeroFe⟩

/-- The triple (0, 0, 0), which denotes no point (41_point_layer.md R202). -/
def zeroPoint : Point := ⟨zeroFe, zeroFe, zeroFe⟩

/-- `select(m, a, b)` on points (41_point_layer.md R208). -/
def selectPoint (m : Bool) (P Q : Point) : Point :=
  ⟨selectFe m P.x Q.x, selectFe m P.y Q.y, selectFe m P.z Q.z⟩

/-- `select(m, a, b)` on tables of limb vectors of one length, entry by entry (41_point_layer.md R208). -/
def selectFeTable (m : Bool) (A B : List Fe) : List Fe := List.zipWith (selectFe m) A B

/-- `select(m, a, b)` on tables of points of one length, entry by entry (41_point_layer.md R208). -/
def selectTable (m : Bool) (A B : List Point) : List Point := List.zipWith (selectPoint m) A B

/-! ## The curve and the wire format -/

/-- `oncurve(x, y)`: y² − (x³ − 3x + 13318) is 0 mod p (41_point_layer.md R201). -/
def onCurve (x y : Nat) : Bool := decide (((y : Int) ^ 2 - ((x : Int) ^ 3 - 3 * (x : Int) + (curveB : Int))) % (p : Int) = 0)

/-- Decode and validate 64 bytes (41_point_layer.md R210, 42_scalar_ladder.md R242): INVALID_POINT when the pair is not on the curve
and is not the identity encoding. -/
def decodePoint (bytes : List Byte) : Except Cause Point :=
  let x := decodeValue (bytes.take 32)
  let y := decodeValue (bytes.drop 32)
  let inf := decide (x = 0) && decide (y = 0)
  if !inf && !onCurve (x % p) (y % p) then .error .invalidPoint
  else .ok (selectPoint inf identityPoint ⟨limbs x, limbs y, oneFe⟩)

/-- The affine x of a point, X·Z⁻¹ mod p; 0 when Z ≡ 0 (41_point_layer.md R211). -/
def affineX (P : Point) : Nat := fmul (canon P.x) (invp (canon P.z))

/-- The affine y of a point (41_point_layer.md R211). -/
def affineY (P : Point) : Nat := fmul (canon P.y) (invp (canon P.z))

/-- Encode a point as 64 affine bytes (41_point_layer.md R211, 42_scalar_ladder.md R249). -/
def encodePoint (P : Point) : List Byte := leBytes 32 (affineX P) ++ leBytes 32 (affineY P)

end Sys2Proof.Machine
end

