-- ==== Sys2Proof/Machine/Ladder.lean ====
section
/-! DEFINITION. The scalar-multiplication ladder (42_scalar_ladder.md): the recoding (R243), the table (R245), the lookup (R248) and the
state machine that runs through the phases of R241 on the hidden state of 10_state.md R45. -/

namespace Sys2Proof.Machine

/-- The steps of `decompose` for the `n` windows from window `i` up, `c` being the incoming carry (42_scalar_ladder.md R243). -/
def recode : (n i k c : Nat) → List Int × Nat
  | 0, _, _, c => ([], c)
  | n + 1, i, k, c =>
    let v := ((k >>> (5 * i)) &&& 31) + c
    let c' := if 16 ≤ v then 1 else 0
    let rest := recode n (i + 1) k c'
    (((v : Int) - 32 * (c' : Int)) :: rest.1, rest.2)

/-- `decompose(K)`: 51 digits and the top carry; bit 255 of K is ignored (42_scalar_ladder.md R243). -/
def decompose (K : Nat) : List Int × Nat := recode 51 0 (K % 2 ^ 255) 0

/-- Entry k of a table. -/
def entry (T : List Point) (k : Nat) : Point := T.getD k zeroPoint

/-- The next entry of the table under construction, the one for the multiple m (42_scalar_ladder.md R245). -/
def nextEntry (T : List Point) (m : Nat) : Point :=
  if m % 2 = 0 then dblPoint (entry T (m / 2 - 1)) else addPoints (entry T (m - 2)) (entry T 0)

/-- The table T[0..15], built for m = 2 to 16 in turn (42_scalar_ladder.md R245). -/
def precompute (Q : Point) : List Point :=
  (List.range 15).foldl (fun T j => T ++ [nextEntry T (j + 2)]) [Q]

/-- INIT: the accumulator starts at T[0] when the top carry is 1 and at the identity when it is 0 (42_scalar_ladder.md R246). -/
def initAcc (c : Nat) (T : List Point) : Point := selectPoint (decide (c = 1)) (entry T 0) identityPoint

/-- SEL OR (mask AND cand), limb by limb (42_scalar_ladder.md R248). -/
def orMasked (m : Bool) (sel cand : Point) : Point :=
  let f := limbwise fun a b => a ||| (maskOf m &&& b)
  ⟨f sel.x cand.x, f sel.y cand.y, f sel.z cand.z⟩

/-- The candidate scanned at place k: the identity, then the table's entries (42_scalar_ladder.md R248). -/
def candidate (T : List Point) (k : Nat) : Point := if k = 0 then identityPoint else entry T (k - 1)

/-- `lookup(T, d)`: every candidate is scanned, then Y is negated for a negative digit (42_scalar_ladder.md R248). -/
def lookupDigit (T : List Point) (d : Int) : Point :=
  let sel := (List.range 17).foldl (fun sel k => orMasked (decide (d.natAbs = k)) sel (candidate T k)) zeroPoint
  selectPoint (decide (d < 0)) (negPoint sel) sel

/-- The five doublings and the addition of window i (42_scalar_ladder.md R241). -/
def windowStages (i : Nat) : List LadderStage :=
  (List.range 5).map (fun t => ⟨.loopDouble, i, t⟩) ++ [⟨.loopAdd, i, 0⟩]

/-- The phases after DECODE, in order (42_scalar_ladder.md R241). -/
def stagesAfterDecode : List LadderStage :=
  [⟨.decompose, 0, 0⟩, ⟨.precompute, 0, 0⟩, ⟨.init, 0, 0⟩] ++ ((List.range 51).reverse.flatMap windowStages) ++ [⟨.finalize, 0, 0⟩]

/-- The phase DECODE, which a SCALARMULT with an invalid point does not get past (42_scalar_ladder.md R241). -/
def decodeStage : LadderStage := ⟨.decode, 0, 0⟩

/-- What the state machine does in one phase, K being the scalar read at the start (42_scalar_ladder.md R243 to R249). FINALIZE
encodes ACC and changes no hidden value. -/
def runStage (K : Nat) (h : LadderState) (g : LadderStage) : LadderState :=
  let h := { h with stage := g }
  match g.phase with
  | .idle => h
  | .decode => h
  | .decompose => { h with digits := (decompose K).1, topCarry := (decompose K).2 }
  | .precompute => { h with table := precompute h.q }
  | .init => { h with acc := initAcc h.topCarry h.table }
  | .loopDouble => { h with acc := dblPoint h.acc }
  | .loopAdd =>
    let sel := lookupDigit h.table (h.digits.getD g.win 0)
    { h with sel := sel, acc := addPoints h.acc sel }
  | .finalize => h

/-- The state machine from the decoded point Q to the end of its phase sequence (42_scalar_ladder.md R240, R241). -/
def runLadder (K : Nat) (Q : Point) (h : LadderState) : LadderState :=
  stagesAfterDecode.foldl (runStage K) { h with stage := decodeStage, q := Q }

end Sys2Proof.Machine
end

