-- ==== Sys2Proof/Machine/LadderCommand.lean ====
section
/-! DEFINITION. The meaning of SCALARMULT (42_scalar_ladder.md R240). -/

namespace Sys2Proof.Machine

/-- The 64 bytes SCALARMULT writes for the scalar bytes and the point bytes, or its error (42_scalar_ladder.md R240). The ladder works
in the hidden state `h`, whose old content it never reads. -/
def ladderResult (sbytes pbytes : List Byte) (h : LadderState) : Except Cause (List Byte) :=
  (decodePoint pbytes).map fun Q => encodePoint (runLadder (le sbytes) Q h).acc

/-- SCALARMULT (R240): on success the 64 result bytes go to slots RD and RD + 1 and nothing else visible changes (R253). The hidden
state is left unspecified either way (10_state.md R45). -/
def execScalarmult (rd ra rb : Field5) (s : State) : Host.Outcome State Fault Refusal :=
  .next (finish (scrubHidden s) ((ladderResult (readS s ra) (readQ s rb) s.hidden).map (writeSlots (scrubHidden s) rd)))

end Sys2Proof.Machine
end

