-- ==== Sys2Proof/Machine/PointCommands.lean ====
section
/-! DEFINITION. The meanings of the point commands (41_point_layer.md R210 to R213). The engine's scratch values are hidden state,
left unspecified when the command ends (10_state.md R45). -/

namespace Sys2Proof.Machine

/-- Complete a command started in `s` whose result for point register RD is `r`. -/
def finishP (s : State) (rd : Field5) (r : Except Cause Point) : Host.Outcome State Fault Refusal :=
  .next (finish s (r.map (writeP s rd)))

/-- PT_FROMBYTES (R210). -/
def execPtFrombytes (rd ra : Field5) (s : State) : Host.Outcome State Fault Refusal :=
  finishP (scrubHidden s) rd (decodePoint (readQ s ra))

/-- PT_TOBYTES (R211). -/
def execPtTobytes (rd ra : Field5) (s : State) : Host.Outcome State Fault Refusal :=
  .next (finish s (.ok (writeSlots (scrubHidden s) rd (encodePoint (readP s ra)))))

/-- PT_ADD (R212). -/
def execPtAdd (rd ra rb : Field5) (s : State) : Host.Outcome State Fault Refusal :=
  finishP (scrubHidden s) rd (.ok (addPoints (readP s ra) (readP s rb)))

/-- PT_DBL (R213). -/
def execPtDbl (rd ra : Field5) (s : State) : Host.Outcome State Fault Refusal :=
  finishP (scrubHidden s) rd (.ok (dblPoint (readP s ra)))

end Sys2Proof.Machine
end

