-- ==== Sys2Proof/Machine/Dispatch.lean ====
section
/-! DEFINITION. The one match from a command to its meaning (30_encoding.md R114). -/

namespace Sys2Proof.Machine

def exec (i : Instr) (s : State) : Host.Outcome State Fault Refusal :=
  match i with
  | .feZero rd => Sys2Proof.Machine.execFeZero rd s
  | .feOne rd => Sys2Proof.Machine.execFeOne rd s
  | .feCopy rd ra => Sys2Proof.Machine.execFeCopy rd ra s
  | .feAdd rd ra rb => Sys2Proof.Machine.execFeAdd rd ra rb s
  | .feSub rd ra rb => Sys2Proof.Machine.execFeSub rd ra rb s
  | .feAdd2p rd ra => Sys2Proof.Machine.execFeAdd2p rd ra s
  | .feAdd4p rd ra => Sys2Proof.Machine.execFeAdd4p rd ra s
  | .feMul rd ra rb => Sys2Proof.Machine.execFeMul rd ra rb s
  | .feSqr rd ra => Sys2Proof.Machine.execFeSqr rd ra s
  | .feCarry rd ra => Sys2Proof.Machine.execFeCarry rd ra s
  | .feReduce rd ra => Sys2Proof.Machine.execFeReduce rd ra s
  | .feInv rd ra => Sys2Proof.Machine.execFeInv rd ra s
  | .feAddb rd ra => Sys2Proof.Machine.execFeAddb rd ra s
  | .feMulb rd ra => Sys2Proof.Machine.execFeMulb rd ra s
  | .feFrombytes rd ra => Sys2Proof.Machine.execFeFrombytes rd ra s
  | .feTobytes rd ra => Sys2Proof.Machine.execFeTobytes rd ra s
  | .ptFrombytes rd ra => Sys2Proof.Machine.execPtFrombytes rd ra s
  | .ptTobytes rd ra => Sys2Proof.Machine.execPtTobytes rd ra s
  | .ptAdd rd ra rb => Sys2Proof.Machine.execPtAdd rd ra rb s
  | .ptDbl rd ra => Sys2Proof.Machine.execPtDbl rd ra s
  | .scalarmult rd ra rb => Sys2Proof.Machine.execScalarmult rd ra rb s

end Sys2Proof.Machine
end

