-- ==== Sys2Proof/Machine/Flags.lean ====
section
/-! DEFINITION. The status bits. The block has no condition flags (10_state.md R47): what a command sets besides its destinations is
in STATUS. Here are the words the control registers read as (10_state.md R40 to R44), the write-1-to-clear rule of STATUS, the
write of CTRL and the interrupt output (60_exceptions.md R304). -/

namespace Sys2Proof.Machine

/-- A bit as a number. -/
def bitOf (b : Bool) : Nat := if b then 1 else 0

/-- The code of a cause in STATUS.CAUSE (60_exceptions.md R291). -/
def causeCode : Cause → Nat
  | .none => 0
  | .illegalOpcode => 1
  | .illegalOperand => 2
  | .limbOverflow => 3
  | .limbUnderflow => 4
  | .invalidPoint => 5

/-- What ID reads as, a constant (10_state.md R40). -/
def idWord : Word := 0x13318007#32

/-- What CTRL reads as: IE in bit 0, SRST and the reserved bits 0 (10_state.md R41). -/
def ctrlWord (s : State) : Word := BitVec.ofNat 32 (bitOf s.ie)

/-- What STATUS reads as (10_state.md R42). -/
def statusWord (s : State) : Word :=
  BitVec.ofNat 32 (bitOf s.status.busy + 2 * bitOf s.status.done + 4 * bitOf s.status.err + 8 * bitOf s.status.ovr
    + 256 * causeCode s.status.cause)

/-- The code of a phase in LADDER.PHASE (10_state.md R44). -/
def phaseCode : Phase → Nat
  | .idle => 0
  | .decode => 1
  | .decompose => 2
  | .precompute => 3
  | .init => 4
  | .loopDouble => 5
  | .loopAdd => 6
  | .finalize => 7

/-- The LADDER word of a point of the phase sequence: PHASE in bits 3..0, WIN in 9..4, DBL in 12..10 (10_state.md R44). -/
def stageWord (g : LadderStage) : Word := BitVec.ofNat 32 (phaseCode g.phase + 16 * g.win + 1024 * g.dbl)

/-- A host write of `v` to STATUS: DONE, ERR and OVR are cleared where `v` has a 1, CAUSE goes with ERR, and nothing else changes
(10_state.md R42). -/
def writeStatus (v : Word) (s : State) : State :=
  let s := if v.getLsbD 1 then { s with status := { s.status with done := false } } else s
  let s := if v.getLsbD 2 then acknowledgeError s else s
  if v.getLsbD 3 then { s with status := { s.status with ovr := false } } else s

/-- A host write of `v` to CTRL: bit 1 performs a soft reset, and IE takes bit 0 either way (10_state.md R41,
70_reset_and_hazards.md R332). -/
def writeCtrl (v : Word) (s : State) : State :=
  if v.getLsbD 1 then softReset (v.getLsbD 0) s else { s with ie := v.getLsbD 0 }

/-- A host write of `w` to CMD is accepted when BUSY = 0 and ERR = 0, and refused otherwise (10_state.md R43). -/
def writeCmd (w : Word) (s : State) : State :=
  if s.status.busy = false ∧ s.status.err = false then acceptCommand s w else setOverrun s

/-- The interrupt output IRQ, a level (60_exceptions.md R304). -/
def irq (s : State) : Bool := s.ie && (s.status.done || s.status.err)

end Sys2Proof.Machine
end

