-- ==== Sys2Proof/Machine/HostPort.lean ====
section
/-! DEFINITION. The host port (20_memory.md): the address map, the reads and writes of its targets, the free values of the reads that
have no defined value, and bus errors. -/

namespace Sys2Proof.Machine

/-- What a taken host access reaches (20_memory.md R81). -/
inductive Target where
  | id
  | ctrl
  | status
  | cmd
  | ladder
  /-- Limb `i` of F[n] (20_memory.md R82). -/
  | limb (n i : Nat)
  /-- `size` bytes of BUF from index `j` (20_memory.md R84). -/
  | bytes (j size : Nat)
  deriving DecidableEq, Repr

/-- The control register at a word offset (20_memory.md R81). -/
def controlRegister : Nat → Option Target
  | 0x000 => some .id
  | 0x004 => some .ctrl
  | 0x008 => some .status
  | 0x00C => some .cmd
  | 0x010 => some .ladder
  | _ => none

/-- The target of an access of `size` bytes at offset `off`, or none for a bus error (20_memory.md R81 to R84, R88). -/
def locate (off size : Nat) : Option Target :=
  if off < 0x1000 then (if size = 4 then controlRegister off else none)
  else if off < 0x1A00 then
    (if size = 8 ∧ off % 8 = 0 then some (.limb ((off - 0x1000) / 0x50) ((off - 0x1000) % 0x50 / 8)) else none)
  else if 0x2000 ≤ off ∧ off < 0x2100 then
    (if (size = 1 ∨ size = 2 ∨ size = 4 ∨ size = 8) ∧ off % size = 0 then some (.bytes (off - 0x2000) size) else none)
  else none

/-- The offset in the block of a host byte address, or none outside the window of 0x3000 bytes at BASE (20_memory.md R80). -/
def offsetOf (addr : Nat) : Option Nat :=
  if Config.base ≤ addr ∧ addr < Config.base + 0x3000 then some (addr - Config.base) else none

/-- The phases a pending SCALARMULT passes through: all of them when its point decodes, DECODE alone when it does not
(42_scalar_ladder.md R241). -/
def stagesOf (pbytes : List Byte) : List LadderStage :=
  match decodePoint pbytes with
  | .ok _ => decodeStage :: stagesAfterDecode
  | .error _ => [decodeStage]

/-- The phases of the pending command, if it is a SCALARMULT (10_state.md R44). -/
def pendingStages (s : State) : Option (List LadderStage) :=
  match s.pending with
  | none => none
  | some w =>
    match decode w with
    | .ok (.scalarmult _ _ rb) => some (stagesOf (readQ s rb))
    | _ => none

/-- Answer a read with a 32-bit register's value. -/
def answerWord (w : Word) (s : State) : State := { s with resp := .data (w.setWidth 64) }

/-- A read of LADDER: 0 while BUSY = 0 or no SCALARMULT is pending, and any point of its phase sequence otherwise (10_state.md R44). -/
def readLadder (s : State) : State :=
  match s.status.busy, pendingStages s with
  | true, some gs => countDraw (answerWord (stageWord (gs.getD (Config.freeIndex s.draws % gs.length) decodeStage)) s)
  | _, _ => answerWord 0 s

/-- A read of STATUS (10_state.md R42). The model notes that the host has seen BUSY = 0 (70_reset_and_hazards.md R342). -/
def readStatus (s : State) : State := { answerWord (statusWord s) s with polled := s.polled || !s.status.busy }

/-- A read of a limb: its 63 bits, bit 63 reading 0 (20_memory.md R82); any such value while BUSY = 1 (R92). -/
def readLimb (n i : Nat) (s : State) : State :=
  if s.status.busy then countDraw { s with resp := .data ((Config.freeLimb s.draws 0).setWidth 64) }
  else { s with resp := .data ((((feReg s n)[i]?).getD 0).setWidth 64) }

/-- A read of BUF: the little-endian integer of the bytes (20_memory.md R84, R85); any bytes while BUSY = 1 (R92). -/
def readBytes (j size : Nat) (s : State) : State :=
  if s.status.busy then countDraw { s with resp := .data (BitVec.ofNat 64 (le (freeBytes s.draws size))) }
  else { s with resp := .data (BitVec.ofNat 64 (le (memRead s j size))) }

/-- A host read of a target (20_memory.md R81). A read changes nothing of the block (R90). -/
def hostRead (t : Target) (s : State) : State :=
  match t with
  | .id => answerWord idWord s
  | .ctrl => answerWord (ctrlWord s) s
  | .status => readStatus s
  | .cmd => answerWord s.cmd s
  | .ladder => readLadder s
  | .limb n i => readLimb n i s
  | .bytes j size => readBytes j size s

/-- A write of a limb: bits 62..0 are stored (10_state.md R34); refused with OVR while BUSY = 1 (20_memory.md R92). -/
def writeLimb (n i : Nat) (v : Dword) (s : State) : State :=
  if s.status.busy then setOverrun s
  else setFeReg s n ((feReg s n).setIfInBounds i (v.setWidth 63))

/-- A write of BUF: exactly `size` bytes change (20_memory.md R87); refused with OVR while BUSY = 1 (R92). -/
def writeBytes (j size : Nat) (v : Dword) (s : State) : State :=
  if s.status.busy then setOverrun s else memWrite s j (leBytes size v.toNat)

/-- A host write to a target (20_memory.md R81, R90). ID and LADDER ignore writes (R83). -/
def hostWrite (t : Target) (v : Dword) (s : State) : State :=
  let s := { s with resp := .ack }
  match t with
  | .id => s
  | .ctrl => writeCtrl (v.setWidth 32) s
  | .status => writeStatus (v.setWidth 32) s
  | .cmd => writeCmd (v.setWidth 32) s
  | .ladder => s
  | .limb n i => writeLimb n i v s
  | .bytes j size => writeBytes j size v s

/-- An access of `size` bytes at a host address: outside the window it does not reach the block, at an offset the map does not take
it is a bus error, and otherwise `act` is done on its target (20_memory.md R80, R88). -/
def access (addr size : Nat) (act : Target → State → State) (s : State) : Host.Outcome State Fault Refusal :=
  match offsetOf addr with
  | none => .refused (.outsideWindow addr)
  | some off =>
    match locate off size with
    | none => .refused (.busError off size)
    | some t => .next (act t s)

end Sys2Proof.Machine
end

