-- ==== Sys2Proof/Machine/CoreStep.lean ====
section
/-! DEFINITION. The core step (70_reset_and_hazards.md R339) and the events at the boundary, which `step` calls. -/

namespace Sys2Proof.Machine

/-- The core step: enabled while a command is pending, it decodes the pending word and completes the command, all at once. With
nothing pending the block idles and keeps its state (60_exceptions.md R313). -/
def coreStep (s : State) : Host.Outcome State Fault Refusal :=
  match s.pending with
  | none => .next s
  | some w =>
    match decode w with
    | .ok i => exec i s
    | .error k => .next (completeError k s)

/-- One event at the boundary (70_reset_and_hazards.md R339). -/
def boundaryStep (e : HostOp) (s : State) : Host.Outcome State Fault Refusal :=
  match e with
  | .read addr size => access addr size hostRead s
  | .write addr size v => access addr size (fun t => hostWrite t v) s
  | .core => coreStep s
  | .powerOn => .next (powerOnReset s)

/-- The state in which the core is about to run the command word `w`: an accepted write to CMD has latched it (10_state.md R43), which
needs ERR = 0, and the core has the turn. -/
def latched (s : State) (w : Word) : State :=
  acceptCommand { acknowledgeError s with host := [] } w

end Sys2Proof.Machine
end

