-- ==== Sys2Proof/Machine/Step.lean ====
section
/-! DEFINITION. One step of the machine: the next event at the boundary, or the core's step when there is none
(70_reset_and_hazards.md R339). -/

namespace Sys2Proof.Machine

/-- One step. Which agent moves is plain data of the state: the next event of `host`, and the core when no event is left. -/
def step (s : State) : Host.Outcome State Fault Refusal :=
  match s.host with
  | [] => coreStep s
  | e :: rest => boundaryStep e { s with host := rest }

/-- The state whose very next step runs the command word of the low `nbits` bits of `w`. -/
def State.withFetchWord (s : State) (nbits w : Nat) : State := latched s (BitVec.ofNat 32 (w % 2 ^ nbits))

end Sys2Proof.Machine
end

