-- ==== Sys2Proof/Machine/Assembly.lean ====
section
/-! DEFINITION. The assembler spelling of the commands (30_encoding.md R118), the pseudo-instructions (R119) and the host accesses
that issue a list of commands one after another. -/

namespace Sys2Proof.Machine

/-- The spelling of an operand of a kind; a point slot is named by its first slot (30_encoding.md R112, R118). -/
def operandName (k : Kind) (v : Field5) : List String :=
  match k with
  | .freg => ["f" ++ toString v.toNat]
  | .preg => ["p" ++ toString v.toNat]
  | .slot => ["s" ++ toString v.toNat]
  | .pslot => ["s" ++ toString v.toNat]
  | .unused => []

/-- The mnemonic as the assembler spells it (30_encoding.md R118). -/
def mnemonic : Instr → String
  | .feZero _ => "fe.zero"
  | .feOne _ => "fe.one"
  | .feCopy _ _ => "fe.copy"
  | .feAdd _ _ _ => "fe.add"
  | .feSub _ _ _ => "fe.sub"
  | .feAdd2p _ _ => "fe.add2p"
  | .feAdd4p _ _ => "fe.add4p"
  | .feMul _ _ _ => "fe.mul"
  | .feSqr _ _ => "fe.sqr"
  | .feCarry _ _ => "fe.carry"
  | .feReduce _ _ => "fe.reduce"
  | .feInv _ _ => "fe.inv"
  | .feAddb _ _ => "fe.addb"
  | .feMulb _ _ => "fe.mulb"
  | .feFrombytes _ _ => "fe.frombytes"
  | .feTobytes _ _ => "fe.tobytes"
  | .ptFrombytes _ _ => "pt.frombytes"
  | .ptTobytes _ _ => "pt.tobytes"
  | .ptAdd _ _ _ => "pt.add"
  | .ptDbl _ _ => "pt.dbl"
  | .scalarmult _ _ _ => "scalarmult"

/-- The assembler line of a command: the mnemonic, then the operands in the order RD, RA, RB (30_encoding.md R118). -/
def assembler (i : Instr) : String :=
  match opRow (BitVec.ofNat 6 i.opcode) with
  | none => mnemonic i
  | some r =>
    mnemonic i ++ " " ++ String.intercalate ", " (operandName r.kd i.rd ++ operandName r.ka i.ra ++ operandName r.kb i.rb)

/-- The pseudo-instructions (30_encoding.md R119). -/
inductive Pseudo where
  | feMov (fd fa : Field5)
  | feDbl (fd fa : Field5)
  | feSub2p (fd fa fb : Field5)
  | feSub4p (fd fa fb : Field5)
  | feNeg (fd fa : Field5)
  | ptIdent (pn : Field5)
  | ptMov (pd pa : Field5)
  deriving DecidableEq, Repr

/-- The conditions of 30_encoding.md R119 on a pseudo-instruction's operands, and the range of the point numbers (R112). Its conditions
on limbs depend on the state and are not here. -/
def Pseudo.legal : Pseudo → Bool
  | .feMov _ _ | .feDbl _ _ => true
  | .feSub2p d _ b | .feSub4p d _ b => decide (d ≠ b)
  | .feNeg d a => decide (d ≠ a)
  | .ptIdent n => Kind.preg.legal n
  | .ptMov d a => Kind.preg.legal d && Kind.preg.legal a

/-- The field of register F[4n + k] of point register Pn (10_state.md R35). DESIGN CHOICE (log entry 17): for n above 7, which names no
point register, the number 4n + k wraps modulo 32. -/
def coordField (n : Field5) (k : Nat) : Field5 := BitVec.ofNat 5 (4 * n.toNat + k)

/-- The commands a pseudo-instruction expands to (30_encoding.md R119). DESIGN CHOICE (log entry 17): one that is not `Pseudo.legal`, on
which R119 is silent, expands in the same form. -/
def expand : Pseudo → List Instr
  | .feMov d a => [.feCopy d a]
  | .feDbl d a => [.feAdd d a a]
  | .feSub2p d a b => [.feAdd2p d a, .feSub d d b]
  | .feSub4p d a b => [.feAdd4p d a, .feSub d d b]
  | .feNeg d a => [.feZero d, .feAdd2p d d, .feSub d d a]
  | .ptIdent n => [.feZero (coordField n 0), .feOne (coordField n 1), .feZero (coordField n 2)]
  | .ptMov d a =>
    [.feCopy (coordField d 0) (coordField a 0), .feCopy (coordField d 1) (coordField a 1),
     .feCopy (coordField d 2) (coordField a 2)]

/-- The host's read of STATUS. -/
def pollStatus : HostOp := .read (Config.base + 0x008) 4

/-- The host's accesses for a list of commands: each is written to CMD, the host waits for the core, and reads STATUS to see the
completion before the next (30_encoding.md R119, 70_reset_and_hazards.md R335, R342). -/
def commandScript : List Instr → List HostOp
  | [] => []
  | i :: is => .write (Config.base + 0x00C) 4 ((encode i).setWidth 64) :: .core :: pollStatus :: commandScript is

end Sys2Proof.Machine
end

