-- ==== Sys2Proof/Machine/CarryUnit.lean ====
section
/-! DEFINITION. The carry unit's fixed, data-independent schedule (40_field_kernel.md R144). No command's meaning uses it: FE_CARRY is
defined by its result (R143, 90_conflicts.md C7), and that the schedule gives this result is a statement about it. -/

namespace Sys2Proof.Machine

/-- A carry step on limb i: its excess goes to limb i + 1, or, from limb 9, 19 times into limb 0 (40_field_kernel.md R144). -/
def carryStep (l : Nat → Nat) (i : Nat) : Nat → Nat := fun j =>
  if j = i then l i % 2 ^ RAD i
  else if i < 9 ∧ j = i + 1 then l j + (l i >>> RAD i)
  else if i = 9 ∧ j = 0 then l 0 + 19 * (l 9 >>> RAD 9)
  else l j

/-- The limbs the 21 steps are done on, in order: 0 to 9, 0 to 9 again, then 0 (40_field_kernel.md R144). -/
def carrySchedule : List Nat := List.range 10 ++ List.range 10 ++ [0]

/-- The limbs the carry unit ends with. -/
def carryUnit (l : Nat → Nat) : Nat → Nat := carrySchedule.foldl carryStep l

end Sys2Proof.Machine
end

