-- ==== Sys2Proof/Machine/Group.lean ====
section
/-! DEFINITION. The group E(GF(p)) in affine coordinates with the chord-and-tangent law (41_point_layer.md R200): the reference that
statements compare the point engine and the ladder with. No command's meaning uses it. -/

namespace Sys2Proof.Machine

/-- A point in affine coordinates, or the identity O. Coordinates are values below p. -/
inductive AffinePoint where
  | infinity
  | affine (x y : Nat)
  deriving DecidableEq, Repr, Inhabited

/-- The point lies on the curve and its coordinates are below p (41_point_layer.md R200). -/
def AffinePoint.valid : AffinePoint → Bool
  | .infinity => true
  | .affine x y => decide (x < p) && decide (y < p) && onCurve x y

/-- −(x, y) = (x, −y) (41_point_layer.md R200). -/
def affineNeg : AffinePoint → AffinePoint
  | .infinity => .infinity
  | .affine x y => .affine x (fsub 0 y)

/-- The third point of the line of slope `l` through (x1, y1) and a point with abscissa x2, reflected. -/
def throughSlope (l x1 y1 x2 : Nat) : AffinePoint :=
  let x3 := fsub (fsub (fmul l l) x1) x2
  .affine x3 (fsub (fmul l (fsub x1 x3)) y1)

/-- The chord-and-tangent addition (41_point_layer.md R200; 93_implementation_defined.md I2). -/
def affineAdd : AffinePoint → AffinePoint → AffinePoint
  | .infinity, Q => Q
  | P, .infinity => P
  | .affine x1 y1, .affine x2 y2 =>
    if x1 = x2 then
      if fadd y1 y2 = 0 then .infinity
      else throughSlope (fmul (fsub (fmul 3 (fmul x1 x1)) 3) (invp (fadd y1 y1))) x1 y1 x2
    else throughSlope (fmul (fsub y2 y1) (invp (fsub x2 x1))) x1 y1 x2

/-- [k]Q (00_scope.md R13): the sum of k copies of Q. -/
def affineMul : Nat → AffinePoint → AffinePoint
  | 0, _ => .infinity
  | k + 1, Q => affineAdd (affineMul k Q) Q

/-- What a projective triple denotes (41_point_layer.md R202): (X/Z, Y/Z) when Z ≢ 0, O when Z ≡ 0 and (X, Y) ≢ (0, 0), and no point
when all three are ≡ 0. -/
def denoted (T : Triple) : Option AffinePoint :=
  if T.Z % p ≠ 0 then some (.affine (fmul T.X (invp T.Z)) (fmul T.Y (invp T.Z)))
  else if T.X % p = 0 ∧ T.Y % p = 0 then none
  else some .infinity

/-- The triple denotes the point P, and P is a point of E in the sense of 41_point_layer.md R206: Z ≢ 0 with P on the curve, or Z ≡ 0
with Y ≢ 0 and X ≡ 0. R206 is narrower than R202 here: (X, Y, 0) with X ≢ 0 denotes O, but is outside the domain of the group law. -/
structure Denotes (T : Triple) (P : AffinePoint) : Prop where
  point : denoted T = some P
  onE : P.valid = true
  identity : T.Z % p = 0 → T.Y % p ≠ 0 ∧ T.X % p = 0

/-- The canonical 64-byte encoding of a point: X‖Y, and 64 zero bytes for O (20_memory.md R86). -/
def encodeAffine : AffinePoint → List Byte
  | .infinity => List.replicate 64 0
  | .affine x y => leBytes 32 x ++ leBytes 32 y

end Sys2Proof.Machine
end

