-- ==== Sys2Proof/Safety.lean ====
section
/-! DEFINITION. What claims are stated in: the invariant of the machine's states, the observation at the end of a host program
(70_reset_and_hazards.md R342), the parts of the state a command leaves alone, and safe steps. -/

namespace Sys2Proof.Machine

/-- A step is safe when it answers a next state. -/
def isNext : Host.Outcome State Fault Refusal → Prop
  | .next _ => True
  | .fault _ => False
  | .refused _ => False

/-- What every reachable state of the block satisfies (10_state.md R42, R43; 60_exceptions.md R297 to R299). -/
structure Inv (s : State) : Prop where
  /-- BUF's cells are in canonical form. -/
  buf : bufWf s.buf = true
  /-- BUSY is 1 exactly while a command is pending. -/
  busy_pending : s.status.busy = s.pending.isSome
  /-- DONE and ERR are both 0 while a command is pending. -/
  busy_clear : s.status.busy = true → s.status.done = false ∧ s.status.err = false
  /-- DONE and ERR are never both 1. -/
  done_err : ¬ (s.status.done = true ∧ s.status.err = true)
  /-- CAUSE is 0 exactly while ERR = 0. -/
  err_cause : s.status.err = true ↔ s.status.cause ≠ .none
  /-- CMD reads back the pending word. -/
  cmd_pending : ∀ w, s.pending = some w → s.cmd = w
  /-- The host has not seen BUSY = 0 since the last accepted command while that command is pending. -/
  polled_idle : s.polled = true → s.status.busy = false

/-- Everything but the register file, BUF, STATUS, the pending latch, the hidden state and the count of free values is the same: what
no command changes. -/
structure SameControl (s t : State) : Prop where
  ie : t.ie = s.ie
  cmd : t.cmd = s.cmd
  host : t.host = s.host
  resp : t.resp = s.resp
  polled : t.polled = s.polled
  epoch : t.epoch = s.epoch

/-- `t` is `s` after a success completion, as far as STATUS, the latch and the control state go (60_exceptions.md R299): DONE is 1,
BUSY is 0, nothing is pending, and ERR, CAUSE and OVR are unchanged. -/
structure Succeeded (s t : State) : Prop where
  done : t.status.done = true
  busy : t.status.busy = false
  err : t.status.err = s.status.err
  cause : t.status.cause = s.status.cause
  ovr : t.status.ovr = s.status.ovr
  pending : t.pending = none
  control : SameControl s t

/-- `t` is `s` after an error completion with cause `k`, as far as STATUS, the latch and the control state go (60_exceptions.md
R297). -/
structure Failed (k : Cause) (s t : State) : Prop where
  cause : t.status.cause = k
  err : t.status.err = true
  busy : t.status.busy = false
  done : t.status.done = s.status.done
  ovr : t.status.ovr = s.status.ovr
  pending : t.pending = none
  control : SameControl s t

/-- The hidden state is the same and no free value was drawn. -/
structure HiddenKept (s t : State) : Prop where
  hidden : t.hidden = s.hidden
  draws : t.draws = s.draws

/-- Every register of the file is the same. -/
def SameRegs (s t : State) : Prop := ∀ n, feReg t n = feReg s n

/-- Every byte of BUF reads as before. -/
def SameBytes (s t : State) : Prop := ∀ j, bufByte t j = bufByte s j

/-- The frame of a command that succeeds and writes F[n] alone. -/
structure WroteReg (n : Nat) (s t : State) : Prop where
  completed : Succeeded s t
  regs : ∀ m, m ≠ n → feReg t m = feReg s m
  bytes : SameBytes s t

/-- The frame of a command that succeeds and writes the point register Pt[n] alone; F[4n+3] keeps its value (10_state.md R35). -/
structure WrotePoint (n : Nat) (s t : State) : Prop where
  completed : Succeeded s t
  regs : ∀ m, m ≠ 4 * n → m ≠ 4 * n + 1 → m ≠ 4 * n + 2 → feReg t m = feReg s m
  bytes : SameBytes s t

/-- The frame of a command that succeeds and writes the `n` bytes of BUF from `off` alone. -/
structure WroteBytes (off n : Nat) (s t : State) : Prop where
  completed : Succeeded s t
  regs : SameRegs s t
  bytes : ∀ j, ¬ (off ≤ j ∧ j < off + n) → bufByte t j = bufByte s j

/-- The frame of a command that ends with the error `k`: nothing of it is written (60_exceptions.md R297). -/
structure WroteNothing (k : Cause) (s t : State) : Prop where
  completed : Failed k s t
  regs : SameRegs s t
  bytes : SameBytes s t

/-- The registers a command writes (70_reset_and_hazards.md R332 lists the destinations). -/
def destRegs : Instr → Nat → Prop
  | .feZero d, n | .feOne d, n | .feCopy d _, n | .feAdd d _ _, n | .feSub d _ _, n | .feAdd2p d _, n | .feAdd4p d _, n
  | .feMul d _ _, n | .feSqr d _, n | .feCarry d _, n | .feReduce d _, n | .feInv d _, n | .feAddb d _, n | .feMulb d _, n
  | .feFrombytes d _, n => n = d.toNat
  | .ptFrombytes d _, n | .ptAdd d _ _, n | .ptDbl d _, n => n = 4 * d.toNat ∨ n = 4 * d.toNat + 1 ∨ n = 4 * d.toNat + 2
  | .feTobytes _ _, _ | .ptTobytes _ _, _ | .scalarmult _ _ _, _ => False

/-- The bytes of BUF a command writes (20_memory.md R91, 70_reset_and_hazards.md R332). -/
def destBytes : Instr → Nat → Prop
  | .feTobytes d _, j => 32 * d.toNat ≤ j ∧ j < 32 * d.toNat + 32
  | .ptTobytes d _, j | .scalarmult d _ _, j => 32 * d.toNat ≤ j ∧ j < 32 * d.toNat + 64
  | .feZero _, _ | .feOne _, _ | .feCopy _ _, _ | .feAdd _ _ _, _ | .feSub _ _ _, _ | .feAdd2p _ _, _ | .feAdd4p _ _, _
  | .feMul _ _ _, _ | .feSqr _ _, _ | .feCarry _ _, _ | .feReduce _ _, _ | .feInv _ _, _ | .feAddb _ _, _ | .feMulb _ _, _
  | .feFrombytes _ _, _ | .ptFrombytes _ _, _ | .ptAdd _ _ _, _ | .ptDbl _ _, _ => False

/-- The data error a command can end with, if it has one (60_exceptions.md R291, R300). -/
def dataError : Instr → Option Cause
  | .feAdd _ _ _ | .feAdd2p _ _ | .feAdd4p _ _ | .feAddb _ _ | .feMul _ _ _ | .feSqr _ _ | .feMulb _ _ => some .limbOverflow
  | .feSub _ _ _ => some .limbUnderflow
  | .ptFrombytes _ _ | .scalarmult _ _ _ => some .invalidPoint
  | .feZero _ | .feOne _ | .feCopy _ _ | .feCarry _ _ | .feReduce _ _ | .feInv _ _ | .feFrombytes _ _ | .feTobytes _ _
  | .ptTobytes _ _ | .ptAdd _ _ _ | .ptDbl _ _ => none

/-- The largest legal value of an operand kind (30_encoding.md R112). -/
def kindMax : Kind → Nat
  | .freg => 31
  | .preg => 7
  | .slot => 7
  | .pslot => 6
  | .unused => 0

/-- The columns OP, RD, RA, RB of the opcode map (30_encoding.md R114). -/
def kindTable : List (Nat × Kind × Kind × Kind) :=
  [(0x01, .freg, .unused, .unused), (0x02, .freg, .unused, .unused), (0x03, .freg, .freg, .unused), (0x04, .freg, .freg, .freg),
   (0x05, .freg, .freg, .freg), (0x06, .freg, .freg, .unused), (0x07, .freg, .freg, .unused), (0x08, .freg, .freg, .freg),
   (0x09, .freg, .freg, .unused), (0x0A, .freg, .freg, .unused), (0x0B, .freg, .freg, .unused), (0x0C, .freg, .freg, .unused),
   (0x0D, .freg, .freg, .unused), (0x0E, .freg, .freg, .unused), (0x0F, .freg, .slot, .unused), (0x10, .slot, .freg, .unused),
   (0x20, .preg, .pslot, .unused), (0x21, .pslot, .preg, .unused), (0x22, .preg, .preg, .preg), (0x23, .preg, .preg, .unused),
   (0x30, .pslot, .slot, .pslot)]

/-- The reserved opcodes (30_encoding.md R115). -/
def isReservedOpcode (op : Nat) : Bool :=
  decide (op = 0) || (decide (0x11 ≤ op) && decide (op ≤ 0x1F)) || (decide (0x24 ≤ op) && decide (op ≤ 0x2F))
    || (decide (0x31 ≤ op) && decide (op ≤ 0x3F))

/-- The accesses the block takes (20_memory.md R81 to R84). -/
def isTaken (off size : Nat) : Prop :=
  ((off = 0x000 ∨ off = 0x004 ∨ off = 0x008 ∨ off = 0x00C ∨ off = 0x010) ∧ size = 4)
    ∨ (0x1000 ≤ off ∧ off < 0x1A00 ∧ size = 8 ∧ off % 8 = 0)
    ∨ (0x2000 ≤ off ∧ off < 0x2100 ∧ (size = 1 ∨ size = 2 ∨ size = 4 ∨ size = 8) ∧ off % size = 0)

/-- The block is idle and accepts a command (10_state.md R43). -/
structure Idle (s : State) : Prop where
  pending : s.pending = none
  busy : s.status.busy = false
  err : s.status.err = false

/-- What the host can observe at the end of a program: the register file, BUF and STATUS (70_reset_and_hazards.md R342). -/
structure SameObservation (s t : State) : Prop where
  regs : SameRegs s t
  bytes : SameBytes s t
  status : t.status = s.status

/-- The end of a host program (70_reset_and_hazards.md R342, log entry 18): the host has read STATUS with BUSY = 0 after its last accepted command,
and none of its writes is left. -/
structure isEnd (s : State) : Prop where
  polled : s.polled = true
  noWrite : ∀ addr size v, HostOp.write addr size v ∉ s.host

/-- A run without end: the event `e n` at the boundary takes the state `σ n` to `σ (n + 1)` (70_reset_and_hazards.md R339). -/
def isRun (σ : Nat → State) (e : Nat → HostOp) : Prop := ∀ n, boundaryStep (e n) (σ n) = .next (σ (n + 1))

/-- Weak fairness of the core step (70_reset_and_hazards.md R339): if from some moment on a command is always pending, the core gets
its turn. -/
def isFair (σ : Nat → State) (e : Nat → HostOp) : Prop :=
  ∀ n, (∀ m, n ≤ m → (σ m).pending.isSome = true) → ∃ m, n ≤ m ∧ e m = .core

/-- A hang (70_reset_and_hazards.md R342; DEDUCED, log entry 18): from some moment on the host writes no command and reads STATUS again and again, and every
read answers BUSY = 1. -/
def isHang (σ : Nat → State) (e : Nat → HostOp) : Prop :=
  ∃ n, (∀ m, n ≤ m → ∀ v, e m ≠ .write (Config.base + 0x00C) 4 v) ∧
    (∀ m, n ≤ m → ∃ k, m ≤ k ∧ e k = .read (Config.base + 0x008) 4) ∧
    (∀ m, n ≤ m → e m = .read (Config.base + 0x008) 4 → ∃ d : Dword, (σ (m + 1)).resp = .data d ∧ d.getLsbD 0 = true)

end Sys2Proof.Machine
end

