-- ==== Sys2Proof/Certificates/Slice0/Obligations.lean ====
section
/-! DEFINITION. The statements for the provers. Each says which rules of spec/ it formalises. -/

open Sys2Proof Sys2Proof.Machine

/-! ## Encoding and decoding -/

/-- 30_encoding.md R111, R113, R114: no field of an encoding is dropped. Decoding the word of a well-formed command gives it back. -/
def Obligations.DecodeOfEncode : Prop :=
  ∀ i : Instr, i.wf = true → decode (encode i) = .ok i

/-- 30_encoding.md R113, R116, R117: every word the decoder takes is the word of a well-formed command, so no two words are read as
the same command and no bit of a word is ignored. -/
def Obligations.EncodeOfDecode : Prop :=
  ∀ (w : Word) (i : Instr), decode w = .ok i → i.wf = true ∧ encode i = w

/-- 30_encoding.md R115, 60_exceptions.md R292: there are 43 reserved opcodes, 0 among them, and a pending command completes with
ILLEGAL_OPCODE, writing nothing, when its OP is one of them, whatever its other bits are; no other word is refused with that
cause. -/
def Obligations.ReservedOpcodesAreRefused : Prop :=
  ((List.range 64).filter isReservedOpcode).length = 43 ∧ isReservedOpcode 0 = true ∧
  ∀ (s : State) (w : Word), s.pending = some w →
    (isReservedOpcode (opField w).toNat = true → ∃ t, coreStep s = .next t ∧ WroteNothing .illegalOpcode s t) ∧
    (isReservedOpcode (opField w).toNat = false → decode w ≠ .error .illegalOpcode)

/-- 30_encoding.md R116, 60_exceptions.md R293: a pending command of a defined OP with Z ≠ 0 or with an operand above the largest
value of its kind (0 for an unused field) completes with ILLEGAL_OPERAND, writing nothing; any other word of a defined OP is read as
a command of that OP with those operands. -/
def Obligations.IllegalOperandsAreRefused : Prop :=
  ∀ (op : Nat) (kd ka kb : Kind), (op, kd, ka, kb) ∈ kindTable → ∀ (s : State) (w : Word), s.pending = some w →
    (opField w).toNat = op →
    ((zField w ≠ 0 ∨ kindMax kd < (rdField w).toNat ∨ kindMax ka < (raField w).toNat ∨ kindMax kb < (rbField w).toNat) →
      ∃ t, coreStep s = .next t ∧ WroteNothing .illegalOperand s t) ∧
    ((zField w = 0 ∧ (rdField w).toNat ≤ kindMax kd ∧ (raField w).toNat ≤ kindMax ka ∧ (rbField w).toNat ≤ kindMax kb) →
      ∃ i, decode w = .ok i ∧ i.opcode = op ∧ i.rd = rdField w ∧ i.ra = raField w ∧ i.rb = rbField w ∧ coreStep s = exec i s)

/-- 30_encoding.md R118: some of the words the spec spells out decode to the commands it spells. -/
def Obligations.SpelledWordsDecode : Prop :=
  decode 0x04600000#32 = .ok (.feZero 3) ∧ decode 0x14400800#32 = .ok (.feSub 2 0 1) ∧
  decode 0x28E60000#32 = .ok (.feCarry 7 6) ∧ decode 0x3C010000#32 = .ok (.feFrombytes 0 1) ∧
  decode 0x40420000#32 = .ok (.feTobytes 2 2) ∧ decode 0x88400800#32 = .ok (.ptAdd 2 0 1) ∧
  decode 0xC0800800#32 = .ok (.scalarmult 4 0 1) ∧ decode 0x23FFF800#32 = .ok (.feMul 31 31 31)

/-- 70_reset_and_hazards.md R339, 30_encoding.md R113: when it is the core's turn and a command is pending, a step decodes the pending
word and runs the command, or completes it with the decoder's error. It is the core's turn when the next event says so, or when no
event is left (the model's choice, log entry 4). -/
def Obligations.StepRunsPendingCommand : Prop :=
  ∀ (s u : State), (s.host = [] ∧ u = s ∨ ∃ rest, s.host = .core :: rest ∧ u = { s with host := rest }) →
    (∀ (w : Word) (i : Instr), s.pending = some w → decode w = .ok i → step s = exec i u) ∧
    (∀ (w : Word) (k : Cause), s.pending = some w → decode w = .error k → ∃ t, step s = .next t ∧ WroteNothing k u t) ∧
    (s.pending = none → step s = .next u)

/-! ## Constant loads and the adder / subtractor -/

/-- 40_field_kernel.md R150, R151, R152: FE_ZERO, FE_ONE and FE_COPY, encoded with OP 0x01, 0x02 and 0x03 in their row's form and
spelled fe.zero, fe.one and fe.copy, complete in every state, write ten limbs (zeros; 1 and nine zeros; the source's limbs as they
stand), and change nothing else. -/
def Obligations.ConstantLoadsAndCopy : Prop :=
  ∀ (s : State) (rd ra : Field5),
    (decode (0x01#6 ++ rd ++ 0#5 ++ 0#5 ++ 0#11) = .ok (.feZero rd) ∧ decode (0x02#6 ++ rd ++ 0#5 ++ 0#5 ++ 0#11) = .ok (.feOne rd) ∧
      decode (0x03#6 ++ rd ++ ra ++ 0#5 ++ 0#11) = .ok (.feCopy rd ra)) ∧
    (assembler (.feZero rd) = "fe.zero f" ++ toString rd.toNat ∧ assembler (.feOne rd) = "fe.one f" ++ toString rd.toNat ∧
      assembler (.feCopy rd ra) = "fe.copy f" ++ toString rd.toNat ++ ", f" ++ toString ra.toNat) ∧
    (∃ t, exec (.feZero rd) s = .next t ∧ WroteReg rd.toNat s t ∧ HiddenKept s t ∧ ∀ i < 10, limb (feReg t rd.toNat) i = 0) ∧
    (∃ t, exec (.feOne rd) s = .next t ∧ WroteReg rd.toNat s t ∧ HiddenKept s t ∧
      limb (feReg t rd.toNat) 0 = 1 ∧ ∀ i, 1 ≤ i → i < 10 → limb (feReg t rd.toNat) i = 0) ∧
    (∃ t, exec (.feCopy rd ra) s = .next t ∧ WroteReg rd.toNat s t ∧ HiddenKept s t ∧
      ∀ i < 10, limb (feReg t rd.toNat) i = limb (feReg s ra.toNat) i)

/-- 40_field_kernel.md R153, R142: FE_ADD adds limb by limb with no carry, and raises LIMB_OVERFLOW when a sum reaches 2⁶³. -/
def Obligations.AddIsLimbwise : Prop :=
  ∀ (s : State) (rd ra rb : Field5),
    ((∀ i < 10, limb (feReg s ra.toNat) i + limb (feReg s rb.toNat) i < 2 ^ 63) →
      ∃ t, exec (.feAdd rd ra rb) s = .next t ∧ WroteReg rd.toNat s t ∧ HiddenKept s t ∧
        ∀ i < 10, limb (feReg t rd.toNat) i = limb (feReg s ra.toNat) i + limb (feReg s rb.toNat) i) ∧
    ((∃ i < 10, 2 ^ 63 ≤ limb (feReg s ra.toNat) i + limb (feReg s rb.toNat) i) →
      ∃ t, exec (.feAdd rd ra rb) s = .next t ∧ WroteNothing .limbOverflow s t ∧ HiddenKept s t)

/-- 40_field_kernel.md R154: FE_SUB subtracts limb by limb with no borrow, and raises LIMB_UNDERFLOW when a difference is negative. -/
def Obligations.SubIsLimbwise : Prop :=
  ∀ (s : State) (rd ra rb : Field5),
    ((∀ i < 10, limb (feReg s rb.toNat) i ≤ limb (feReg s ra.toNat) i) →
      ∃ t, exec (.feSub rd ra rb) s = .next t ∧ WroteReg rd.toNat s t ∧ HiddenKept s t ∧
        ∀ i < 10, limb (feReg t rd.toNat) i + limb (feReg s rb.toNat) i = limb (feReg s ra.toNat) i) ∧
    ((∃ i < 10, limb (feReg s ra.toNat) i < limb (feReg s rb.toNat) i) →
      ∃ t, exec (.feSub rd ra rb) s = .next t ∧ WroteNothing .limbUnderflow s t ∧ HiddenKept s t)

/-- 40_field_kernel.md R140, R155, R156: FE_ADD2P and FE_ADD4P add the limbs of 2p and 4p as the spec writes them out, so that the
value grows by 2p and 4p, and raise LIMB_OVERFLOW when a sum reaches 2⁶³. -/
def Obligations.AddMultiplesOfTheModulus : Prop :=
  let p2 := [134217690, 67108862, 134217726, 67108862, 134217726, 67108862, 134217726, 67108862, 134217726, 67108862]
  let p4 := [268435380, 134217724, 268435452, 134217724, 268435452, 134217724, 268435452, 134217724, 268435452, 134217724]
  ∀ (s : State) (rd ra : Field5),
    ((∀ i < 10, limb (feReg s ra.toNat) i + p2.getD i 0 < 2 ^ 63) →
      ∃ t, exec (.feAdd2p rd ra) s = .next t ∧ WroteReg rd.toNat s t ∧ HiddenKept s t ∧
        (∀ i < 10, limb (feReg t rd.toNat) i = limb (feReg s ra.toNat) i + p2.getD i 0) ∧
        val (feReg t rd.toNat) = val (feReg s ra.toNat) + 2 * (2 ^ 255 - 19)) ∧
    ((∃ i < 10, 2 ^ 63 ≤ limb (feReg s ra.toNat) i + p2.getD i 0) →
      ∃ t, exec (.feAdd2p rd ra) s = .next t ∧ WroteNothing .limbOverflow s t ∧ HiddenKept s t) ∧
    ((∀ i < 10, limb (feReg s ra.toNat) i + p4.getD i 0 < 2 ^ 63) →
      ∃ t, exec (.feAdd4p rd ra) s = .next t ∧ WroteReg rd.toNat s t ∧ HiddenKept s t ∧
        (∀ i < 10, limb (feReg t rd.toNat) i = limb (feReg s ra.toNat) i + p4.getD i 0) ∧
        val (feReg t rd.toNat) = val (feReg s ra.toNat) + 4 * (2 ^ 255 - 19)) ∧
    ((∃ i < 10, 2 ^ 63 ≤ limb (feReg s ra.toNat) i + p4.getD i 0) →
      ∃ t, exec (.feAdd4p rd ra) s = .next t ∧ WroteNothing .limbOverflow s t ∧ HiddenKept s t)

/-- 40_field_kernel.md R162: FE_ADDB adds 13318 to limb 0 and copies the other limbs, and raises LIMB_OVERFLOW when limb 0 would
reach 2⁶³. -/
def Obligations.AddbAddsToLimbZero : Prop :=
  ∀ (s : State) (rd ra : Field5),
    (limb (feReg s ra.toNat) 0 + 13318 < 2 ^ 63 →
      ∃ t, exec (.feAddb rd ra) s = .next t ∧ WroteReg rd.toNat s t ∧ HiddenKept s t ∧
        limb (feReg t rd.toNat) 0 = limb (feReg s ra.toNat) 0 + 13318 ∧
        ∀ i, 1 ≤ i → i < 10 → limb (feReg t rd.toNat) i = limb (feReg s ra.toNat) i) ∧
    (2 ^ 63 ≤ limb (feReg s ra.toNat) 0 + 13318 →
      ∃ t, exec (.feAddb rd ra) s = .next t ∧ WroteNothing .limbOverflow s t ∧ HiddenKept s t)

/-- 40_field_kernel.md R170: FE_ADD2P or FE_ADD4P of the minuend followed by FE_SUB never underflows when every limb of the
subtrahend is at most the limb of 2p (4p) plus the minuend's, in particular for a reduced subtrahend (for the sum of two reduced
vectors); the two commands then leave, limb by limb, the minuend plus 2p (4p) less the subtrahend. -/
def Obligations.SubtractionIdiom : Prop :=
  ∀ (s : State) (rd ra rc : Field5), rc ≠ rd →
    ((∀ i < 10, limb (feReg s ra.toNat) i + P2L i < 2 ^ 63) →
      (isReduced (feReg s rc.toNat) ∨ ∀ i < 10, limb (feReg s rc.toNat) i ≤ limb (feReg s ra.toNat) i + P2L i) →
      ∃ t u, exec (.feAdd2p rd ra) s = .next t ∧ exec (.feSub rd rd rc) t = .next u ∧ WroteReg rd.toNat t u ∧
        (∀ m, m ≠ rd.toNat → feReg u m = feReg s m) ∧
        (∀ i < 10, limb (feReg u rd.toNat) i + limb (feReg s rc.toNat) i = limb (feReg s ra.toNat) i + P2L i) ∧
        val (feReg u rd.toNat) + val (feReg s rc.toNat) = val (feReg s ra.toNat) + 2 * p) ∧
    ((∀ i < 10, limb (feReg s ra.toNat) i + P4L i < 2 ^ 63) →
      ((∀ i < 10, limb (feReg s rc.toNat) i ≤ 2 * (2 ^ RAD i - 1)) ∨
        ∀ i < 10, limb (feReg s rc.toNat) i ≤ limb (feReg s ra.toNat) i + P4L i) →
      ∃ t u, exec (.feAdd4p rd ra) s = .next t ∧ exec (.feSub rd rd rc) t = .next u ∧ WroteReg rd.toNat t u ∧
        (∀ m, m ≠ rd.toNat → feReg u m = feReg s m) ∧
        (∀ i < 10, limb (feReg u rd.toNat) i + limb (feReg s rc.toNat) i = limb (feReg s ra.toNat) i + P4L i) ∧
        val (feReg u rd.toNat) + val (feReg s rc.toNat) = val (feReg s ra.toNat) + 4 * p)

/-! ## The multiplier, carry, reduce and the inverter -/

/-- 40_field_kernel.md R145, R157, R143: FE_MUL stores the reduced vector of the carried accumulator sum when every accumulator is
below 2⁶³, and raises LIMB_OVERFLOW otherwise. -/
def Obligations.MulStoresCarriedProduct : Prop :=
  ∀ (s : State) (rd ra rb : Field5),
    let h := accMul (limb (feReg s ra.toNat)) (limb (feReg s rb.toNat))
    ((∀ k < 10, h k < 2 ^ 63) →
      ∃ t, exec (.feMul rd ra rb) s = .next t ∧ WroteReg rd.toNat s t ∧ HiddenKept s t ∧ isReduced (feReg t rd.toNat) ∧
        val (feReg t rd.toNat) = carryval (valOf h) ∧
        val (feReg t rd.toNat) % p = val (feReg s ra.toNat) * val (feReg s rb.toNat) % p) ∧
    ((∃ k < 10, 2 ^ 63 ≤ h k) →
      ∃ t, exec (.feMul rd ra rb) s = .next t ∧ WroteNothing .limbOverflow s t ∧ HiddenKept s t)

/-- 40_field_kernel.md R147: with every limb of both operands at most 2²⁷, FE_MUL and FE_SQR do not raise LIMB_OVERFLOW, and with
reduced operands every accumulator is below 2⁵⁹. -/
def Obligations.MulOperandBounds : Prop :=
  ∀ (s : State) (rd ra rb : Field5),
    ((∀ i < 10, limb (feReg s ra.toNat) i ≤ 2 ^ 27) →
      (∃ t, exec (.feSqr rd ra) s = .next t ∧ WroteReg rd.toNat s t) ∧
      ((∀ i < 10, limb (feReg s rb.toNat) i ≤ 2 ^ 27) → ∃ t, exec (.feMul rd ra rb) s = .next t ∧ WroteReg rd.toNat s t)) ∧
    (isReduced (feReg s ra.toNat) → isReduced (feReg s rb.toNat) →
      ∀ k < 10, accMul (limb (feReg s ra.toNat)) (limb (feReg s rb.toNat)) k < 2 ^ 59)

/-- 40_field_kernel.md R158, R157: FE_SQR is FE_MUL with both operands the same register, in every state; its result is the square
mod p in reduced form when every accumulator is below 2⁶³, and otherwise it raises LIMB_OVERFLOW. FE_MUL is commutative. -/
def Obligations.SqrIsMulOfItself : Prop :=
  ∀ (s : State) (rd ra rb : Field5),
    exec (.feSqr rd ra) s = exec (.feMul rd ra ra) s ∧ exec (.feMul rd ra rb) s = exec (.feMul rd rb ra) s ∧
    ((∀ k < 10, accMul (limb (feReg s ra.toNat)) (limb (feReg s ra.toNat)) k < 2 ^ 63) →
      ∃ t, exec (.feSqr rd ra) s = .next t ∧ WroteReg rd.toNat s t ∧ HiddenKept s t ∧ isReduced (feReg t rd.toNat) ∧
        val (feReg t rd.toNat) % p = val (feReg s ra.toNat) ^ 2 % p) ∧
    ((∃ k < 10, 2 ^ 63 ≤ accMul (limb (feReg s ra.toNat)) (limb (feReg s ra.toNat)) k) →
      ∃ t, exec (.feSqr rd ra) s = .next t ∧ WroteNothing .limbOverflow s t ∧ HiddenKept s t)

/-- 40_field_kernel.md R163: FE_MULB stores a reduced vector of 13318 times the value when every scaled limb is below 2⁶³, in
particular when every limb is below 2⁴⁹, and raises LIMB_OVERFLOW otherwise. -/
def Obligations.MulbStoresScaledValue : Prop :=
  ∀ (s : State) (rd ra : Field5),
    (((∀ i < 10, 13318 * limb (feReg s ra.toNat) i < 2 ^ 63) ∨ (∀ i < 10, limb (feReg s ra.toNat) i < 2 ^ 49)) →
      ∃ t, exec (.feMulb rd ra) s = .next t ∧ WroteReg rd.toNat s t ∧ HiddenKept s t ∧ isReduced (feReg t rd.toNat) ∧
        val (feReg t rd.toNat) = carryval (13318 * val (feReg s ra.toNat)) ∧
        val (feReg t rd.toNat) % p = 13318 * val (feReg s ra.toNat) % p) ∧
    ((∃ i < 10, 2 ^ 63 ≤ 13318 * limb (feReg s ra.toNat) i) →
      ∃ t, exec (.feMulb rd ra) s = .next t ∧ WroteNothing .limbOverflow s t ∧ HiddenKept s t)

/-- 40_field_kernel.md R143, R159: FE_CARRY completes in every state, with a reduced vector that is the input's value when that is
below 2²⁵⁵ and otherwise the value in [19, 2²⁵⁵) congruent to it; a reduced input comes back unchanged. -/
def Obligations.CarryRestoresTheRadix : Prop :=
  ∀ (s : State) (rd ra : Field5),
    ∃ t, exec (.feCarry rd ra) s = .next t ∧ WroteReg rd.toNat s t ∧ HiddenKept s t ∧ isReduced (feReg t rd.toNat) ∧
      val (feReg t rd.toNat) % p = val (feReg s ra.toNat) % p ∧
      (val (feReg s ra.toNat) < 2 ^ 255 → val (feReg t rd.toNat) = val (feReg s ra.toNat)) ∧
      (2 ^ 255 ≤ val (feReg s ra.toNat) → 19 ≤ val (feReg t rd.toNat)) ∧
      (isReduced (feReg s ra.toNat) → feReg t rd.toNat = feReg s ra.toNat)

/-- 40_field_kernel.md R144: the carry unit's fixed schedule of 21 carry steps is complete for every storable input and ends with the
result of R143, whatever the limbs are. -/
def Obligations.CarryScheduleIsComplete : Prop :=
  ∀ (x : Fe) (i : Nat), i < 10 → carryUnit (limb x) i = limb (carryFe x) i

/-- 40_field_kernel.md R146, R160: FE_REDUCE completes in every state with the canonical vector of the input's residue; a canonical
input comes back unchanged. -/
def Obligations.ReduceIsCanonical : Prop :=
  ∀ (s : State) (rd ra : Field5),
    ∃ t, exec (.feReduce rd ra) s = .next t ∧ WroteReg rd.toNat s t ∧ HiddenKept s t ∧ isCanonical (feReg t rd.toNat) ∧
      val (feReg t rd.toNat) = val (feReg s ra.toNat) % p ∧
      (isCanonical (feReg s ra.toNat) → feReg t rd.toNat = feReg s ra.toNat)

/-- 40_field_kernel.md R161: FE_INV completes in every state with a reduced vector of z^(p−2) mod p; a register of value 0 gives
ZERO. -/
def Obligations.InvIsThePower : Prop :=
  ∀ (s : State) (rd ra : Field5),
    ∃ t, exec (.feInv rd ra) s = .next t ∧ WroteReg rd.toNat s t ∧ isReduced (feReg t rd.toNat) ∧
      (val (feReg t rd.toNat) : ZMod p) = (val (feReg s ra.toNat) : ZMod p) ^ (p - 2) ∧
      (val (feReg s ra.toNat) = 0 → feReg t rd.toNat = zeroFe)

/-- 40_field_kernel.md R161, R172: FE_INV inverts. FE_MUL of a nonzero element with the result of its FE_INV completes and gives a
value congruent to 1 mod p. It rests on p being prime, which the spec takes from its source (00_scope.md R3). -/
def Obligations.InvInverts : Prop :=
  ∀ (s : State) (rd ra rc : Field5), rd ≠ ra → isReduced (feReg s ra.toNat) → val (feReg s ra.toNat) % p ≠ 0 →
    ∃ t u, exec (.feInv rd ra) s = .next t ∧ exec (.feMul rc ra rd) t = .next u ∧ WroteReg rc.toNat t u ∧
      val (feReg u rc.toNat) % p = 1

/-! ## The field-element wire format -/

/-- 20_memory.md R86, 40_field_kernel.md R164: FE_FROMBYTES completes in every state with the reduced vector of the little-endian
integer of slot ra, bit 255 discarded, not reduced mod p. -/
def Obligations.FromBytesDecodes : Prop :=
  ∀ (s : State) (rd ra : Field5), (Instr.feFrombytes rd ra).wf = true →
    ∃ t, exec (.feFrombytes rd ra) s = .next t ∧ WroteReg rd.toNat s t ∧ HiddenKept s t ∧ isReduced (feReg t rd.toNat) ∧
      val (feReg t rd.toNat) = le ((List.range 32).map fun k => bufByte s (32 * ra.toNat + k)) % 2 ^ 255

/-- 20_memory.md R86, 40_field_kernel.md R165: FE_TOBYTES completes in every state and writes to slot rd the 32 bytes of the
canonical value, whose bit 255 is 0; no register changes. -/
def Obligations.ToBytesEncodes : Prop :=
  ∀ (s : State) (rd ra : Field5), (Instr.feTobytes rd ra).wf = true →
    ∃ t, exec (.feTobytes rd ra) s = .next t ∧ WroteBytes (32 * rd.toNat) 32 s t ∧ HiddenKept s t ∧
      le ((List.range 32).map fun k => bufByte t (32 * rd.toNat + k)) = val (feReg s ra.toNat) % p ∧
      (bufByte t (32 * rd.toNat + 31)).getLsbD 7 = false

/-- 90_conflicts.md C5, 40_field_kernel.md R164, R165: decoding a slot and encoding the element again gives back the same 32 bytes
exactly when they encode an integer below p. -/
def Obligations.FieldRoundTrip : Prop :=
  ∀ (s : State) (rd ra rs : Field5), (Instr.feFrombytes rd ra).wf = true → (Instr.feTobytes rs rd).wf = true →
    ∃ t u, exec (.feFrombytes rd ra) s = .next t ∧ exec (.feTobytes rs rd) t = .next u ∧
      ((∀ k < 32, bufByte u (32 * rs.toNat + k) = bufByte s (32 * ra.toNat + k)) ↔
        le ((List.range 32).map fun k => bufByte s (32 * ra.toNat + k)) < p)

/-! ## The point layer -/

/-- 41_point_layer.md R201, R210: PT_FROMBYTES of slot ra decodes x and y with bit 255 discarded. The all-zero pair gives (0, 1, 0); a
pair on the curve gives (limbs(x), limbs(y), 1); any other pair ends with INVALID_POINT and writes nothing. -/
def Obligations.PointDecoding : Prop :=
  ∀ (s : State) (rd ra : Field5), (Instr.ptFrombytes rd ra).wf = true →
    let x : Nat := le ((List.range 32).map fun k => bufByte s (32 * ra.toNat + k)) % 2 ^ 255
    let y : Nat := le ((List.range 32).map fun k => bufByte s (32 * ra.toNat + 32 + k)) % 2 ^ 255
    let curve : Prop := (y : ZMod p) ^ 2 = (x : ZMod p) ^ 3 - 3 * (x : ZMod p) + 13318
    (x = 0 ∧ y = 0 → ∃ t, exec (.ptFrombytes rd ra) s = .next t ∧ WrotePoint rd.toNat s t ∧
      ptReg t rd.toNat = ⟨limbs 0, limbs 1, limbs 0⟩) ∧
    (¬ (x = 0 ∧ y = 0) → curve → ∃ t, exec (.ptFrombytes rd ra) s = .next t ∧ WrotePoint rd.toNat s t ∧
      ptReg t rd.toNat = ⟨limbs x, limbs y, limbs 1⟩) ∧
    (¬ (x = 0 ∧ y = 0) → ¬ curve → ∃ t, exec (.ptFrombytes rd ra) s = .next t ∧ WroteNothing .invalidPoint s t)

/-- 41_point_layer.md R211: PT_TOBYTES completes in every state, on the curve or not. It writes canonical x and y with x·Z ≡ X and
y·Z ≡ Y mod p when Z ≢ 0, and 64 zero bytes when Z ≡ 0; no register changes. -/
def Obligations.PointEncoding : Prop :=
  ∀ (s : State) (rd ra : Field5), (Instr.ptTobytes rd ra).wf = true →
    ∃ t, exec (.ptTobytes rd ra) s = .next t ∧ WroteBytes (32 * rd.toNat) 64 s t ∧
      (let P := ptReg s ra.toNat
       let x : Nat := le ((List.range 32).map fun k => bufByte t (32 * rd.toNat + k))
       let y : Nat := le ((List.range 32).map fun k => bufByte t (32 * rd.toNat + 32 + k))
       x < p ∧ y < p ∧ (val P.z % p ≠ 0 → x * val P.z % p = val P.x % p ∧ y * val P.z % p = val P.y % p) ∧
         (val P.z % p = 0 → x = 0 ∧ y = 0))

/-- 41_point_layer.md R203, R205, R212, 10_state.md R35: PT_ADD completes in every state. Its three coordinates are the canonical
vectors of R203's addition of the residues of its operands; F[4rd+3], every other register and BUF are unchanged. -/
def Obligations.PointAdditionResult : Prop :=
  ∀ (s : State) (rd ra rb : Field5), (Instr.ptAdd rd ra rb).wf = true →
    ∃ t, exec (.ptAdd rd ra rb) s = .next t ∧ WrotePoint rd.toNat s t ∧
      isCanonical (feReg t (4 * rd.toNat)) ∧ isCanonical (feReg t (4 * rd.toNat + 1)) ∧ isCanonical (feReg t (4 * rd.toNat + 2)) ∧
      (⟨val (feReg t (4 * rd.toNat)), val (feReg t (4 * rd.toNat + 1)), val (feReg t (4 * rd.toNat + 2))⟩ : Triple) =
        padd ⟨val (feReg s (4 * ra.toNat)) % p, val (feReg s (4 * ra.toNat + 1)) % p, val (feReg s (4 * ra.toNat + 2)) % p⟩
          ⟨val (feReg s (4 * rb.toNat)) % p, val (feReg s (4 * rb.toNat + 1)) % p, val (feReg s (4 * rb.toNat + 2)) % p⟩

/-- 41_point_layer.md R204, R205, R213, 10_state.md R35: PT_DBL completes in every state. Its three coordinates are the canonical
vectors of R204's doubling of the residues of its operand; F[4rd+3], every other register and BUF are unchanged. -/
def Obligations.PointDoublingResult : Prop :=
  ∀ (s : State) (rd ra : Field5), (Instr.ptDbl rd ra).wf = true →
    ∃ t, exec (.ptDbl rd ra) s = .next t ∧ WrotePoint rd.toNat s t ∧
      isCanonical (feReg t (4 * rd.toNat)) ∧ isCanonical (feReg t (4 * rd.toNat + 1)) ∧ isCanonical (feReg t (4 * rd.toNat + 2)) ∧
      (⟨val (feReg t (4 * rd.toNat)), val (feReg t (4 * rd.toNat + 1)), val (feReg t (4 * rd.toNat + 2))⟩ : Triple) =
        pdbl ⟨val (feReg s (4 * ra.toNat)) % p, val (feReg s (4 * ra.toNat + 1)) % p, val (feReg s (4 * ra.toNat + 2)) % p⟩

/-- 41_point_layer.md R206, R200: the complete addition adds. For triples that denote points P and Q of E, padd denotes their
chord-and-tangent sum, the cases P = Q, P = O, Q = O and Q = −P included, and its triple is one that denotes a point of E again. -/
def Obligations.CompleteAddition : Prop :=
  ∀ (S T : Triple) (P Q : AffinePoint), Denotes S P → Denotes T Q → Denotes (padd S T) (affineAdd P Q)

/-- 41_point_layer.md R206, R200: the complete doubling doubles. For a triple that denotes a point P of E, pdbl denotes 2·P, as padd of
the triple with itself does, and its triple is one that denotes a point of E again. -/
def Obligations.CompleteDoubling : Prop :=
  ∀ (S : Triple) (P : AffinePoint), Denotes S P → Denotes (pdbl S) (affineAdd P P) ∧ denoted (padd S S) = denoted (pdbl S)

/-- 41_point_layer.md R202, 90_conflicts.md C1: what a triple denotes. With Z ≢ 0 it denotes an affine point with x·Z ≡ X and y·Z ≡ Y;
with Z ≡ 0 and (X, Y) ≢ (0, 0) it denotes O; with all three ≡ 0 it denotes no point. (0, 0, 0) is absorbing: the formulas map it to
(0, 0, 0) in every argument position, so it cannot serve as the identity. The block's identity (0, 1, 0) denotes O and doubles to
itself. -/
def Obligations.ZeroTripleIsAbsorbing : Prop :=
  (∀ T : Triple, T.Z % p ≠ 0 →
    ∃ x y, denoted T = some (.affine x y) ∧ x < p ∧ y < p ∧ x * T.Z % p = T.X % p ∧ y * T.Z % p = T.Y % p) ∧
  (∀ T : Triple, denoted T = some .infinity ↔ T.Z % p = 0 ∧ ¬ (T.X % p = 0 ∧ T.Y % p = 0)) ∧
  (∀ T : Triple, denoted T = none ↔ T.X % p = 0 ∧ T.Y % p = 0 ∧ T.Z % p = 0) ∧
  (∀ T : Triple, padd ⟨0, 0, 0⟩ T = ⟨0, 0, 0⟩ ∧ padd T ⟨0, 0, 0⟩ = ⟨0, 0, 0⟩) ∧ pdbl ⟨0, 0, 0⟩ = ⟨0, 0, 0⟩ ∧
  pdbl ⟨0, 1, 0⟩ = ⟨0, 1, 0⟩ ∧ padd ⟨0, 1, 0⟩ ⟨0, 1, 0⟩ = ⟨0, 1, 0⟩
  ∧ denoted ⟨0, 1, 0⟩ = some .infinity

/-- 41_point_layer.md R214: 64 bytes that encode a point of E, or 64 zero bytes, go through PT_FROMBYTES and PT_TOBYTES. With
canonical halves they come back as they were; an input with a coordinate in [p, 2²⁵⁵) or with bit 255 set comes back in canonical
form, as the encoding of its coordinates mod p. -/
def Obligations.PointRoundTrip : Prop :=
  ∀ (s : State) (rd ra rs : Field5), (Instr.ptFrombytes rd ra).wf = true → (Instr.ptTobytes rs rd).wf = true →
    let xRaw : Nat := le ((List.range 32).map fun k => bufByte s (32 * ra.toNat + k))
    let yRaw : Nat := le ((List.range 32).map fun k => bufByte s (32 * ra.toNat + 32 + k))
    let x : Nat := xRaw % 2 ^ 255
    let y : Nat := yRaw % 2 ^ 255
    (x = 0 ∧ y = 0 ∨ (y : ZMod p) ^ 2 = (x : ZMod p) ^ 3 - 3 * (x : ZMod p) + 13318) →
    ∃ t u, exec (.ptFrombytes rd ra) s = .next t ∧ exec (.ptTobytes rs rd) t = .next u ∧
      le ((List.range 32).map fun k => bufByte u (32 * rs.toNat + k)) = x % p ∧
      le ((List.range 32).map fun k => bufByte u (32 * rs.toNat + 32 + k)) = y % p ∧
      (xRaw < p ∧ yRaw < p → ∀ k < 64, bufByte u (32 * rs.toNat + k) = bufByte s (32 * ra.toNat + k))

/-! ## The ladder -/

/-- 42_scalar_ladder.md R243: the recoding reconstructs the scalar. The 51 digits lie in [−16, 15], the top carry is 0 or 1, and
K mod 2²⁵⁵ = Σ d[i]·32^i + c·32⁵¹. -/
def Obligations.RecodingReconstructs : Prop :=
  ∀ K : Nat,
    (decompose K).1.length = 51 ∧ (∀ d ∈ (decompose K).1, -16 ≤ d ∧ d ≤ 15) ∧ (decompose K).2 ≤ 1 ∧
    ((K % 2 ^ 255 : Nat) : Int) =
      ((List.range 51).map fun i => (decompose K).1.getD i 0 * 32 ^ i).sum + ((decompose K).2 : Int) * 32 ^ 51

/-- 41_point_layer.md R208, 42_scalar_ladder.md R248, R245: select(m, a, b) is a when m = 1 and b when m = 0, for limb vectors, points
and tables of either. The masked scan of 17 candidates gives (0, 1, 0) for digit 0, T[d−1] for a positive digit and the
negated T[−d−1] for a negative one; the table has 16 entries and T[k] is built by R245's doublings and additions. -/
def Obligations.LookupSelects : Prop :=
  (∀ (m : Bool) (a b : Fe), selectFe m a b = if m then a else b) ∧
  (∀ (m : Bool) (P Q : Point), selectPoint m P Q = if m then P else Q) ∧
  (∀ (m : Bool) (A B : List Fe), A.length = B.length → selectFeTable m A B = if m then A else B) ∧
  (∀ (m : Bool) (A B : List Point), A.length = B.length → selectTable m A B = if m then A else B) ∧
  (∀ (T : List Point) (d : Int), -16 ≤ d → d ≤ 15 →
    lookupDigit T d = if d = 0 then identityPoint else if 0 < d then entry T (d.toNat - 1) else negPoint (entry T ((-d).toNat - 1))) ∧
  (∀ Q : Point, (precompute Q).length = 16 ∧ entry (precompute Q) 0 = Q ∧
    ∀ m, 2 ≤ m → m ≤ 16 → entry (precompute Q) (m - 1) =
      if m % 2 = 0 then dblPoint (entry (precompute Q) (m / 2 - 1))
      else addPoints (entry (precompute Q) (m - 2)) (entry (precompute Q) 0))

/-- 42_scalar_ladder.md R240, R242, R253: SCALARMULT completes in every state. When the point bytes do not decode it ends with
INVALID_POINT and writes nothing; when they do it writes the 64 bytes of slots rd and rd + 1 and nothing else. -/
def Obligations.ScalarMultFrame : Prop :=
  ∀ (s : State) (rd ra rb : Field5), (Instr.scalarmult rd ra rb).wf = true →
    let x : Nat := le ((List.range 32).map fun k => bufByte s (32 * rb.toNat + k)) % 2 ^ 255
    let y : Nat := le ((List.range 32).map fun k => bufByte s (32 * rb.toNat + 32 + k)) % 2 ^ 255
    let decodes : Prop := x = 0 ∧ y = 0 ∨ (y : ZMod p) ^ 2 = (x : ZMod p) ^ 3 - 3 * (x : ZMod p) + 13318
    (decodes → ∃ t, exec (.scalarmult rd ra rb) s = .next t ∧ WroteBytes (32 * rd.toNat) 64 s t) ∧
    (¬ decodes → ∃ t, exec (.scalarmult rd ra rb) s = .next t ∧ WroteNothing .invalidPoint s t)

/-- 42_scalar_ladder.md R253, 10_state.md R45, R37: SCALARMULT is a function of its 32 scalar bytes and 64 point bytes alone. Two
states that agree on those bytes, whatever else they hold (the hidden state of the ladder included) and wherever the slots lie, end
with the same status and the same 64 result bytes. -/
def Obligations.ScalarMultIsPure : Prop :=
  ∀ (s u : State) (rd ra rb rd' ra' rb' : Field5),
    (Instr.scalarmult rd ra rb).wf = true → (Instr.scalarmult rd' ra' rb').wf = true →
    (∀ k < 32, bufByte s (32 * ra.toNat + k) = bufByte u (32 * ra'.toNat + k)) →
    (∀ k < 64, bufByte s (32 * rb.toNat + k) = bufByte u (32 * rb'.toNat + k)) → s.status = u.status →
    ∃ s' u', exec (.scalarmult rd ra rb) s = .next s' ∧ exec (.scalarmult rd' ra' rb') u = .next u' ∧ s'.status = u'.status ∧
      (s'.status.done = true → s.status.done = false →
        ∀ k < 64, bufByte s' (32 * rd.toNat + k) = bufByte u' (32 * rd'.toNat + k))

/-- 42_scalar_ladder.md R250: the result theorem. When the point bytes decode to Q, SCALARMULT writes the canonical encoding of
[K mod 2²⁵⁵]Q, K being the little-endian integer of the scalar bytes: 64 zero bytes when that is O. -/
def Obligations.ScalarMultIsScalarMultiple : Prop :=
  ∀ (s : State) (rd ra rb : Field5), (Instr.scalarmult rd ra rb).wf = true →
    let K : Nat := le ((List.range 32).map fun k => bufByte s (32 * ra.toNat + k))
    let x : Nat := le ((List.range 32).map fun k => bufByte s (32 * rb.toNat + k)) % 2 ^ 255
    let y : Nat := le ((List.range 32).map fun k => bufByte s (32 * rb.toNat + 32 + k)) % 2 ^ 255
    ∀ Q : AffinePoint, (x = 0 ∧ y = 0 ∧ Q = .infinity ∨ ¬ (x = 0 ∧ y = 0) ∧ Q = .affine (x % p) (y % p) ∧ Q.valid = true) →
      ∃ t, exec (.scalarmult rd ra rb) s = .next t ∧ WroteBytes (32 * rd.toNat) 64 s t ∧
        ∀ k < 64, bufByte t (32 * rd.toNat + k) = (encodeAffine (affineMul (K % 2 ^ 255) Q)).getD k 0

/-- 42_scalar_ladder.md R242, R250: an identity input writes 64 zero bytes for every scalar. -/
def Obligations.ScalarMultOfIdentity : Prop :=
  ∀ (s : State) (rd ra rb : Field5), (Instr.scalarmult rd ra rb).wf = true →
    (∀ k < 64, bufByte s (32 * rb.toNat + k) = 0) →
    ∃ t, exec (.scalarmult rd ra rb) s = .next t ∧ WroteBytes (32 * rd.toNat) 64 s t ∧
      ∀ k < 64, bufByte t (32 * rd.toNat + k) = 0

/-- 42_scalar_ladder.md R241, 10_state.md R44: the phase sequence is DECODE, DECOMPOSE, PRECOMPUTE, INIT, then for each window 50
down to 0 five doublings and one addition, then FINALIZE, 311 phases in all. A read of LADDER while a SCALARMULT with a valid point
is pending returns one of them, and one with an invalid point DECODE, which is the model's choice (log entry 8); while BUSY = 0, or
while another command is pending, it returns 0; that a word with the opcode of SCALARMULT and an illegal operand is such another
command is the model's choice (log entry 13). -/
def Obligations.LadderRegisterReads : Prop :=
  ((decodeStage :: stagesAfterDecode).map fun g => (phaseCode g.phase, g.win, g.dbl)) =
    [(1, 0, 0), (2, 0, 0), (3, 0, 0), (4, 0, 0)] ++
      ((List.range 51).reverse.map fun i => [(5, i, 0), (5, i, 1), (5, i, 2), (5, i, 3), (5, i, 4), (6, i, 0)]).flatten ++ [(7, 0, 0)] ∧
  ∀ (s : State) (rest : List HostOp), s.host = .read (Config.base + 0x010) 4 :: rest →
    ((s.status.busy = false ∨ ∀ w rd ra rb, s.pending = some w → decode w ≠ .ok (.scalarmult rd ra rb)) →
      ∃ t, step s = .next t ∧ t.resp = .data 0) ∧
    (∀ w rd ra rb P, s.status.busy = true → s.pending = some w → decode w = .ok (.scalarmult rd ra rb) →
      decodePoint (readQ s rb) = .ok P →
      ∃ t g, step s = .next t ∧ g ∈ decodeStage :: stagesAfterDecode ∧
        t.resp = .data (BitVec.ofNat 64 (phaseCode g.phase + 16 * g.win + 1024 * g.dbl))) ∧
    (∀ w rd ra rb k, s.status.busy = true → s.pending = some w → decode w = .ok (.scalarmult rd ra rb) →
      decodePoint (readQ s rb) = .error k → ∃ t, step s = .next t ∧ t.resp = .data 1)

/-! ## All commands -/

/-- 60_exceptions.md R290, R297, R299, R300, R291: every command completes, with success or with the one data error of its kind, and
an error is precise: no register and no byte of BUF changes. -/
def Obligations.EveryCommandCompletes : Prop :=
  ∀ (i : Instr) (s : State), i.wf = true →
    ∃ t, exec i s = .next t ∧ (Succeeded s t ∨ ∃ k, dataError i = some k ∧ WroteNothing k s t)

/-- 20_memory.md R80, R91, 42_scalar_ladder.md R253, 10_state.md R35: a command changes no register and no byte of BUF outside its
destination; in particular FE_TOBYTES, PT_TOBYTES and SCALARMULT change no register, and no other command changes BUF. -/
def Obligations.CommandsWriteOnlyTheirDestination : Prop :=
  ∀ (i : Instr) (s t : State), i.wf = true → exec i s = .next t →
    (∀ n, ¬ destRegs i n → feReg t n = feReg s n) ∧ (∀ j, ¬ destBytes i j → bufByte t j = bufByte s j)

/-! ## Acceptance, status and errors -/

/-- 10_state.md R43: a host write of a word to CMD is accepted when BUSY = 0 and ERR = 0, and then latches the word, sets BUSY and
clears DONE; otherwise it sets OVR. Nothing else of the block changes. -/
def Obligations.CommandAcceptance : Prop :=
  ∀ (s : State) (rest : List HostOp) (v : Dword), s.host = .write (Config.base + 0x00C) 4 v :: rest →
    ∃ t, step s = .next t ∧ t.host = rest ∧ SameRegs s t ∧ SameBytes s t ∧ t.ie = s.ie ∧ HiddenKept s t ∧
      (s.status.busy = false → s.status.err = false →
        t.pending = some (v.setWidth 32) ∧ t.cmd = v.setWidth 32 ∧ t.status = { s.status with busy := true, done := false }) ∧
      (s.status.busy = true ∨ s.status.err = true →
        t.pending = s.pending ∧ t.cmd = s.cmd ∧ t.status = { s.status with ovr := true })

/-- 10_state.md R40, R42, R44, 20_memory.md R83, 60_exceptions.md R298: a host write to STATUS clears DONE, ERR and OVR where it has a 1 in
bits 1, 2 and 3, and CAUSE with ERR; BUSY and everything else stay. A write to ID or to LADDER is ignored without error: nothing of
the block changes. -/
def Obligations.StatusIsWriteOneToClear : Prop :=
  (∀ (s : State) (rest : List HostOp) (v : Dword), s.host = .write (Config.base + 0x008) 4 v :: rest →
    ∃ t, step s = .next t ∧ t.host = rest ∧ SameRegs s t ∧ SameBytes s t ∧ HiddenKept s t ∧
      t.ie = s.ie ∧ t.cmd = s.cmd ∧ t.pending = s.pending ∧ t.status.busy = s.status.busy ∧
      t.status.done = (s.status.done && !v.getLsbD 1) ∧ t.status.err = (s.status.err && !v.getLsbD 2) ∧
      t.status.ovr = (s.status.ovr && !v.getLsbD 3) ∧
      t.status.cause = if v.getLsbD 2 then .none else s.status.cause) ∧
  (∀ (s : State) (rest : List HostOp) (v : Dword),
    (s.host = .write (Config.base + 0x000) 4 v :: rest ∨ s.host = .write (Config.base + 0x010) 4 v :: rest) →
    ∃ t, step s = .next t ∧ t.host = rest ∧ SameObservation s t ∧ HiddenKept s t ∧ t.ie = s.ie ∧ t.cmd = s.cmd ∧ t.pending = s.pending)

/-- 60_exceptions.md R298, R301: an error is sticky and its return is the acknowledging write. From an idle block with ERR = 1, a
command write, then 4 written to STATUS, then the command write again: the first is refused and sets OVR, the second clears ERR and
CAUSE and leaves OVR, and the third is accepted. -/
def Obligations.StickyErrorAndReturn : Prop :=
  ∀ (s : State) (rest : List HostOp) (v : Dword), s.status.busy = false → s.status.err = true →
    s.host = [.write (Config.base + 0x00C) 4 v, .write (Config.base + 0x008) 4 4, .write (Config.base + 0x00C) 4 v] ++ rest →
    ∃ t u w, step s = .next t ∧ step t = .next u ∧ step u = .next w ∧
      t.pending = s.pending ∧ t.cmd = s.cmd ∧ t.status = { s.status with ovr := true } ∧
      u.pending = s.pending ∧ u.status = { s.status with ovr := true, err := false, cause := .none } ∧
      w.pending = some (v.setWidth 32) ∧ w.cmd = v.setWidth 32 ∧
      w.status = { busy := true, done := false, err := false, ovr := true, cause := .none }

/-- 10_state.md R42, R43, 60_exceptions.md R298, R299, R302, 70_reset_and_hazards.md R332: which events clear the bits of STATUS.
OVR, ERR and DONE are sticky: in a step that clears one of them the host writes a 1 to its bit of STATUS, a reset happens, or, for
DONE, a command is accepted. BUSY falls only at the core's step or a reset. -/
def Obligations.StatusBitsAreSticky : Prop :=
  ∀ s t : State, step s = .next t →
    let reset : Prop := (∃ v rest, s.host = .write (Config.base + 0x004) 4 v :: rest ∧ v.getLsbD 1 = true) ∨ ∃ rest, s.host = .powerOn :: rest
    let clears (k : Nat) : Prop := ∃ v rest, s.host = .write (Config.base + 0x008) 4 v :: rest ∧ v.getLsbD k = true
    (s.status.ovr = true → t.status.ovr = false → clears 3 ∨ reset) ∧
    (s.status.err = true → t.status.err = false → clears 2 ∨ reset) ∧
    (s.status.done = true → t.status.done = false →
      clears 1 ∨ reset ∨ (s.status.err = false ∧ ∃ v rest, s.host = .write (Config.base + 0x00C) 4 v :: rest)) ∧
    (s.status.busy = true → t.status.busy = false → s.pending.isSome = true ∧ (s.host = [] ∨ ∃ rest, s.host = .core :: rest) ∨ reset)

/-- 10_state.md R40, R41, R42, R43, 20_memory.md R83, 60_exceptions.md R291: what 32-bit host reads of the control registers answer.
ID reads 0x13318007, CTRL and STATUS their words, CMD the last accepted command word. The words of STATUS and CTRL bit by bit: BUSY,
DONE, ERR, OVR in bits 0 to 3, CAUSE in bits 15..8 with the codes 0 to 5, IE in bit 0 of CTRL, and every reserved bit 0. -/
def Obligations.StatusWordLayout : Prop :=
  (∀ s : State,
    (statusWord s).getLsbD 0 = s.status.busy ∧ (statusWord s).getLsbD 1 = s.status.done ∧ (statusWord s).getLsbD 2 = s.status.err ∧
    (statusWord s).getLsbD 3 = s.status.ovr ∧ (statusWord s).extractLsb' 4 4 = 0#4 ∧ (statusWord s).extractLsb' 16 16 = 0#16 ∧
    ((statusWord s).extractLsb' 8 8).toNat =
      (match s.status.cause with
       | .none => 0 | .illegalOpcode => 1 | .illegalOperand => 2 | .limbOverflow => 3 | .limbUnderflow => 4 | .invalidPoint => 5) ∧
    (ctrlWord s).getLsbD 0 = s.ie ∧ (ctrlWord s).extractLsb' 1 31 = 0#31) ∧
  (∀ (s : State) (rest : List HostOp),
    (s.host = .read (Config.base + 0x000) 4 :: rest → ∃ t, step s = .next t ∧ t.resp = .data 0x13318007#64) ∧
    (s.host = .read (Config.base + 0x004) 4 :: rest → ∃ t, step s = .next t ∧ t.resp = .data ((ctrlWord s).setWidth 64)) ∧
    (s.host = .read (Config.base + 0x008) 4 :: rest → ∃ t, step s = .next t ∧ t.resp = .data ((statusWord s).setWidth 64)) ∧
    (s.host = .read (Config.base + 0x00C) 4 :: rest → ∃ t, step s = .next t ∧ t.resp = .data (s.cmd.setWidth 64)))

/-- 60_exceptions.md R304: IRQ is CTRL.IE AND (STATUS.DONE OR STATUS.ERR); so with IE = 1 it is 1 after every completion of a pending
word, whether it decodes to a command or not,
and an accepted command write takes it to 0. -/
def Obligations.InterruptOutput : Prop :=
  (∀ s : State, irq s = true ↔ s.ie = true ∧ (s.status.done = true ∨ s.status.err = true)) ∧
  (∀ (i : Instr) (s t : State), i.wf = true → s.ie = true → exec i s = .next t → irq t = true) ∧
  (∀ (s t : State) (w : Word), s.pending = some w → s.ie = true → coreStep s = .next t → irq t = true) ∧
  (∀ (s t : State) (v : Dword) (rest : List HostOp), s.status.busy = false → s.status.err = false →
    s.host = .write (Config.base + 0x00C) 4 v :: rest → step s = .next t → irq t = false)

/-! ## Resets -/

/-- 10_state.md R50, 70_reset_and_hazards.md R331: what the control registers hold at reset, and IRQ. -/
def Obligations.ResetValues : Prop :=
  idWord = 0x13318007#32 ∧ ctrlWord State.reset = 0 ∧ statusWord State.reset = 0 ∧ State.reset.cmd = 0 ∧
  State.reset.pending = none ∧ irq State.reset = false ∧ pendingStages State.reset = none

/-- 70_reset_and_hazards.md R331, 10_state.md R50: asserting power-on reset while the machine runs sets the control state as in R50 and
abandons a pending command; what the register file and BUF hold is left open. -/
def Obligations.PowerOnReset : Prop :=
  ∀ (s : State) (rest : List HostOp), s.host = .powerOn :: rest →
    ∃ t, step s = .next t ∧ t.host = rest ∧ t.ie = false ∧ t.status = State.reset.status ∧ t.cmd = 0 ∧ t.pending = none ∧
      irq t = false ∧ Inv t

/-- 70_reset_and_hazards.md R332: a write to CTRL with bit 1 set clears STATUS, empties the pending latch, takes IE from bit 0 and
keeps the CMD read-back, every register and byte outside the destination of the command it abandons; with nothing pending it keeps
them all, and so it does with a pending word that does not decode, which is the model's choice (log entry 9). With bit 1 clear it
sets IE alone. -/
def Obligations.SoftReset : Prop :=
  ∀ (s : State) (rest : List HostOp) (v : Dword), s.host = .write (Config.base + 0x004) 4 v :: rest →
    (v.getLsbD 1 = true →
      ∃ t, step s = .next t ∧ t.host = rest ∧ t.ie = v.getLsbD 0 ∧
        t.status = { busy := false, done := false, err := false, ovr := false, cause := .none } ∧
        t.pending = none ∧ t.cmd = s.cmd ∧
        (∀ w i, s.pending = some w → decode w = .ok i →
          (∀ n, ¬ destRegs i n → feReg t n = feReg s n) ∧ (∀ j, ¬ destBytes i j → bufByte t j = bufByte s j)) ∧
        ((∀ w i, s.pending = some w → decode w ≠ .ok i) → SameRegs s t ∧ SameBytes s t)) ∧
    (v.getLsbD 1 = false →
      ∃ t, step s = .next t ∧ t.host = rest ∧ t.ie = v.getLsbD 0 ∧ SameObservation s t ∧ t.pending = s.pending ∧ t.cmd = s.cmd ∧
        HiddenKept s t)

/-! ## The host port -/

/-- 20_memory.md R82, 10_state.md R34: a 64-bit write of limb i of F[n] at offset 0x1000 + 0x50·n + 8·i while BUSY = 0 stores bits
62..0 and changes no other limb, register or byte; a read returns the stored limb with bit 63 clear. -/
def Obligations.LimbWindow : Prop :=
  ∀ (s : State) (rest : List HostOp) (n i : Nat) (v : Dword), n < 32 → i < 10 → s.status.busy = false →
    (s.host = .write (Config.base + (0x1000 + 0x50 * n + 8 * i)) 8 v :: rest →
      ∃ t, step s = .next t ∧ limb (feReg t n) i = v.toNat % 2 ^ 63 ∧
        (∀ m k, ¬ (m = n ∧ k = i) → limb (feReg t m) k = limb (feReg s m) k) ∧ SameBytes s t ∧ t.status = s.status ∧
        t.pending = s.pending) ∧
    (s.host = .read (Config.base + (0x1000 + 0x50 * n + 8 * i)) 8 :: rest →
      ∃ t d, step s = .next t ∧ t.resp = .data d ∧ d.toNat = limb (feReg s n) i ∧ d.getLsbD 63 = false ∧ SameObservation s t)

/-- 20_memory.md R84, R85, R87: a host write of size bytes at BUF index j changes exactly those bytes, little-endian, and a read of
any width returns the bytes as they stand, assembled little-endian. -/
def Obligations.BufferAccesses : Prop :=
  ∀ (s : State) (rest : List HostOp) (j size : Nat) (v : Dword), (size = 1 ∨ size = 2 ∨ size = 4 ∨ size = 8) → j % size = 0 →
    j < 256 → s.status.busy = false →
    (s.host = .write (Config.base + (0x2000 + j)) size v :: rest →
      ∃ t, step s = .next t ∧ (∀ k < size, bufByte t (j + k) = v.extractLsb' (8 * k) 8) ∧
        (∀ m, ¬ (j ≤ m ∧ m < j + size) → bufByte t m = bufByte s m) ∧ SameRegs s t ∧ t.status = s.status ∧ t.pending = s.pending) ∧
    (s.host = .read (Config.base + (0x2000 + j)) size :: rest →
      ∃ t d, step s = .next t ∧ t.resp = .data d ∧ (∀ k < size, d.extractLsb' (8 * k) 8 = bufByte s (j + k)) ∧
        d.toNat < 256 ^ size ∧ SameObservation s t)

/-- 20_memory.md R92, 60_exceptions.md R302: while BUSY = 1 a write of a limb or of BUF stores nothing and sets OVR, and nothing else
of the block changes. -/
def Obligations.BusyRefusesDataWrites : Prop :=
  ∀ (s : State) (rest : List HostOp) (off size : Nat) (v : Dword), s.status.busy = true → 0x1000 ≤ off → isTaken off size →
    s.host = .write (Config.base + off) size v :: rest →
    ∃ t, step s = .next t ∧ t.status = { s.status with ovr := true } ∧ SameRegs s t ∧ SameBytes s t ∧ t.pending = s.pending ∧
      t.cmd = s.cmd ∧ t.ie = s.ie ∧ HiddenKept s t

/-- 20_memory.md R90, R92: a read has no side effect on the block: the register file, BUF, STATUS and the control state stay, whatever
the target, also while BUSY = 1. -/
def Obligations.ReadsChangeNothing : Prop :=
  ∀ (s t : State) (rest : List HostOp) (addr size : Nat), s.host = .read addr size :: rest → step s = .next t →
    SameObservation s t ∧ t.ie = s.ie ∧ t.cmd = s.cmd ∧ t.pending = s.pending ∧ t.hidden = s.hidden ∧ t.host = rest

/-- 20_memory.md R80, R81, R83, R84, R88: which accesses the block takes. Inside the window, a read or write at an offset and size the
map takes has a next state, and any other is refused as a bus error; outside the window an access does not reach the
block, and that the model refuses it there is the model's choice (log entry 6). -/
def Obligations.BusErrors : Prop :=
  ∀ (s : State) (rest : List HostOp) (addr size : Nat) (v : Dword),
    (s.host = .read addr size :: rest ∨ s.host = .write addr size v :: rest) →
    (∀ off, addr = Config.base + off → off < 0x3000 → isTaken off size → ∃ t, step s = .next t) ∧
    (∀ off, addr = Config.base + off → off < 0x3000 → ¬ isTaken off size → step s = .refused (.busError off size)) ∧
    (addr < Config.base ∨ Config.base + 0x3000 ≤ addr → step s = .refused (.outsideWindow addr))

/-- 20_memory.md R93, R96, 70_reset_and_hazards.md R339: while a command is pending its sources cannot change. A host access that
does not ask for a soft reset leaves the register file, BUF, the pending word and BUSY as they are, so running the command after it
ends in the same way and with the same registers and bytes as running it before. -/
def Obligations.PendingSourcesAreStable : Prop :=
  ∀ (s t : State) (w : Word) (i : Instr) (e : HostOp) (rest : List HostOp),
    Inv s → s.pending = some w → decode w = .ok i → s.host = e :: rest →
    (∀ v : Dword, v.getLsbD 1 = true → e ≠ .write (Config.base + 0x004) 4 v) → e ≠ .core → e ≠ .powerOn → step s = .next t →
    SameRegs s t ∧ SameBytes s t ∧ t.pending = some w ∧ t.status.busy = true ∧
      ∃ s' t', exec i s = .next s' ∧ exec i t = .next t' ∧ SameRegs s' t' ∧ SameBytes s' t' ∧
        s'.status.done = t'.status.done ∧ s'.status.err = t'.status.err ∧ s'.status.cause = t'.status.cause

/-! ## Invariants -/

/-- The state after reset satisfies the invariant. -/
def Obligations.ResetSatisfiesInvariant : Prop := Inv State.reset

/-- 10_state.md R42, R43, 60_exceptions.md R297, R299, R301: every step keeps the invariant: BUF's cells stay canonical, BUSY is 1
exactly while a command is pending, DONE and ERR are never both 1 and both 0 while BUSY, CAUSE is 0 exactly while ERR = 0, CMD
reads back the pending word, and no command is pending when the host has seen BUSY = 0 since the last one was accepted. -/
def Obligations.StepKeepsInvariant : Prop :=
  ∀ s t : State, Inv s → step s = .next t → Inv t

/-- 70_reset_and_hazards.md R339, R342, 10_state.md R43: a run of commands, and no hang. From an idle block whose coming events are,
for each of a list of well-formed commands, the host's write of the command, the core's turn (an event of the model, log entry 4)
and the host's read of STATUS, every command takes three steps, no step is refused, and with at least one command the run is at its
end as R342 defines it: no host write is left and the host has read BUSY = 0 after the last command. And in a run without end in
which the core step is weakly fair, the host is never left reading BUSY = 1 for ever. How the end and a hang are put in terms of the
model is log entry 18. -/
def Obligations.CommandScriptsRun : Prop :=
  (∀ (is : List Instr) (s : State), Idle s → (∀ i ∈ is, i.wf = true) → s.host = commandScript is →
    ∃ t, Host.Core.run Sys2Proof.core (3 * is.length) s = .next t ∧ (is ≠ [] → isEnd t) ∧ t.host = [] ∧ t.pending = none ∧ t.status.busy = false ∧
      (t.status.err = false → ∀ i, is.getLast? = some i → t.cmd = encode i ∧ t.status.done = true)) ∧
  (∀ (σ : Nat → State) (e : Nat → HostOp), Inv (σ 0) → isRun σ e → isFair σ e → ¬ isHang σ e)

/-- 30_encoding.md R119, 40_field_kernel.md R170: the pseudo-instruction fe.neg. From an idle block, its three commands, each
written, run and seen complete, take nine steps and leave in fd the limbs of 2p less those of fa, a value congruent to −fa; no other
register and no byte changes. -/
def Obligations.NegationPseudoInstruction : Prop :=
  ∀ (s : State) (fd fa : Field5), Idle s → fd ≠ fa → (∀ i < 10, limb (feReg s fa.toNat) i ≤ P2L i) →
    s.host = commandScript (expand (.feNeg fd fa)) →
    ∃ t, Host.Core.run Sys2Proof.core 9 s = .next t ∧ isEnd t ∧ t.status.err = false ∧
      (∀ i < 10, limb (feReg t fd.toNat) i + limb (feReg s fa.toNat) i = P2L i) ∧
      val (feReg t fd.toNat) + val (feReg s fa.toNat) = 2 * p ∧
      (∀ n, n ≠ fd.toNat → feReg t n = feReg s n) ∧ SameBytes s t
end

