-- ==== Sys2Proof/Laws/Field.lean ====
section
/-! SUPPORT. The field kernel: limb vectors and their values (10_state.md R30 to R32), limbs(v) and its uniqueness (40_field_kernel.md
R141), the complete carry (R143), the product accumulators (R145, R147) and select (41_point_layer.md R208). -/

namespace Sys2Proof.Machine

/-! ## The modulus -/

theorem p_eq : p = 57896044618658097711785492504343953926634992332820282019728792003956564819949 := by decide

theorem p_lt : p < 2 ^ 255 := by decide

theorem lt_two_p : 2 ^ 255 < 2 * p := by decide

theorem p_pos : 0 < p := by decide

/-! ## Limbs -/

theorem limb_lt (x : Fe) (i : Nat) : limb x i < 2 ^ 63 := by
  unfold limb; exact BitVec.isLt _

theorem limb_ofLimbs (r : Nat → Nat) {i : Nat} (h : i < 10) : limb (ofLimbs r) i = r i % 2 ^ 63 := by
  simp [limb, ofLimbs, h]

theorem limb_ofLimbs_of_lt (r : Nat → Nat) {i : Nat} (h : i < 10) (hr : r i < 2 ^ 63) : limb (ofLimbs r) i = r i := by
  rw [limb_ofLimbs r h, Nat.mod_eq_of_lt hr]

theorem fe_ext {x y : Fe} (h : ∀ i < 10, limb x i = limb y i) : x = y := by
  apply Vector.ext
  intro i hi
  have := h i hi
  simp only [limb, Vector.getElem?_eq_getElem hi, Option.getD_some] at this
  exact BitVec.eq_of_toNat_eq this

theorem ofLimbs_limb (x : Fe) : ofLimbs (limb x) = x :=
  fe_ext fun i hi => limb_ofLimbs_of_lt _ hi (limb_lt x i)

theorem limb_zeroFe (i : Nat) : limb zeroFe i = 0 := by
  unfold limb zeroFe
  by_cases h : i < 10
  · simp [h]
  · simp [h]

theorem limb_oneFe {i : Nat} (h : i < 10) : limb oneFe i = if i = 0 then 1 else 0 := by
  rw [oneFe, limb_ofLimbs _ h]; split <;> rfl

/-! ## Sums over the limb indexes -/

theorem sum10_congr {g h : Nat → Nat} (e : ∀ i < 10, g i = h i) : sum10 g = sum10 h := by
  unfold sum10
  rw [e 0 (by decide), e 1 (by decide), e 2 (by decide), e 3 (by decide), e 4 (by decide), e 5 (by decide), e 6 (by decide),
    e 7 (by decide), e 8 (by decide), e 9 (by decide)]

theorem sum10_le {g h : Nat → Nat} (e : ∀ i < 10, g i ≤ h i) : sum10 g ≤ sum10 h := by
  unfold sum10
  have := e 0 (by decide); have := e 1 (by decide); have := e 2 (by decide); have := e 3 (by decide); have := e 4 (by decide)
  have := e 5 (by decide); have := e 6 (by decide); have := e 7 (by decide); have := e 8 (by decide); have := e 9 (by decide)
  omega

theorem sum10_add (g h : Nat → Nat) : (sum10 fun i => g i + h i) = sum10 g + sum10 h := by unfold sum10; ring

theorem sum10_mul (c : Nat) (g : Nat → Nat) : (sum10 fun i => c * g i) = c * sum10 g := by unfold sum10; ring

theorem valOf_congr {r q : Nat → Nat} (e : ∀ i < 10, r i = q i) : valOf r = valOf q :=
  sum10_congr fun i hi => by rw [e i hi]

theorem valOf_add (r q : Nat → Nat) : (valOf fun i => r i + q i) = valOf r + valOf q := by
  unfold valOf; rw [← sum10_add]; exact sum10_congr fun i _ => by ring

theorem valOf_mul (c : Nat) (r : Nat → Nat) : (valOf fun i => c * r i) = c * valOf r := by
  unfold valOf; rw [← sum10_mul]; exact sum10_congr fun i _ => by ring

theorem val_ofLimbs {r : Nat → Nat} (h : ∀ i < 10, r i < 2 ^ 63) : val (ofLimbs r) = valOf r :=
  valOf_congr fun i hi => limb_ofLimbs_of_lt r hi (h i hi)

theorem val_zeroFe : val zeroFe = 0 := by decide

theorem val_oneFe : val oneFe = 1 := by decide

theorem valOf_PL : valOf PL = p := by decide

/-! ## The reduced vector of a value -/

theorem RAD_le (i : Nat) : RAD i ≤ 26 := by unfold RAD; split <;> omega

theorem digit_lt (v i : Nat) : (v >>> W i) % 2 ^ RAD i < 2 ^ RAD i := Nat.mod_lt _ (by positivity)

theorem pow_RAD_le (i : Nat) : 2 ^ RAD i ≤ 2 ^ 26 := Nat.pow_le_pow_right (by decide) (RAD_le i)

theorem limb_limbs (v : Nat) {i : Nat} (h : i < 10) : limb (limbs v) i = (v >>> W i) % 2 ^ RAD i :=
  limb_ofLimbs_of_lt _ h (lt_of_lt_of_le (digit_lt v i) (le_trans (pow_RAD_le i) (by decide)))

theorem limbs_reduced (v : Nat) : isReduced (limbs v) := fun i hi => by
  rw [limb_limbs v hi]; exact digit_lt v i

/-- The digits in radix 2^RAD[i] make up the value below 2²⁵⁵. -/
theorem valOf_digits (v : Nat) : (valOf fun i => (v >>> W i) % 2 ^ RAD i) = v % 2 ^ 255 := by
  have split (a b : Nat) : v % 2 ^ (a + b) = v % 2 ^ a + 2 ^ a * (v / 2 ^ a % 2 ^ b) := by rw [pow_add, Nat.mod_mul]
  have e1 := split 26 25
  have e2 := split 51 26
  have e3 := split 77 25
  have e4 := split 102 26
  have e5 := split 128 25
  have e6 := split 153 26
  have e7 := split 179 25
  have e8 := split 204 26
  have e9 := split 230 25
  simp only [Nat.reduceAdd] at e1 e2 e3 e4 e5 e6 e7 e8 e9
  simp only [valOf, sum10, W, RAD, Nat.shiftRight_eq_div_pow, Nat.reduceMul, Nat.reduceAdd, Nat.reduceDiv, Nat.reduceMod,
    if_true, if_false, Nat.one_ne_zero]
  rw [e9, e8, e7, e6, e5, e4, e3, e2, e1]
  simp only [pow_zero, Nat.div_one]
  ring

theorem val_limbs {v : Nat} (h : v < 2 ^ 255) : val (limbs v) = v := by
  rw [val, valOf_congr fun i hi => limb_limbs v hi, valOf_digits, Nat.mod_eq_of_lt h]

theorem val_lt_of_reduced {x : Fe} (h : isReduced x) : val x < 2 ^ 255 := by
  have := h 0 (by decide); have := h 1 (by decide); have := h 2 (by decide); have := h 3 (by decide); have := h 4 (by decide)
  have := h 5 (by decide); have := h 6 (by decide); have := h 7 (by decide); have := h 8 (by decide); have := h 9 (by decide)
  simp only [RAD, Nat.reduceMod, if_true, if_false, Nat.one_ne_zero] at *
  simp only [val, valOf, sum10, W, Nat.reduceMul, Nat.reduceAdd, Nat.reduceDiv]
  omega

/-- The mixed-radix digits of a value below 2²⁵⁵ are unique (40_field_kernel.md R141). -/
theorem reduced_eq_limbs {x : Fe} (h : isReduced x) : x = limbs (val x) := by
  apply fe_ext
  intro i hi
  rw [limb_limbs _ hi]
  have := h 0 (by decide); have := h 1 (by decide); have := h 2 (by decide); have := h 3 (by decide); have := h 4 (by decide)
  have := h 5 (by decide); have := h 6 (by decide); have := h 7 (by decide); have := h 8 (by decide); have := h 9 (by decide)
  simp only [RAD, Nat.reduceMod, if_true, if_false, Nat.one_ne_zero] at *
  simp only [val, valOf, sum10, W, Nat.shiftRight_eq_div_pow]
  interval_cases i <;> simp only [Nat.reduceMul, Nat.reduceAdd, Nat.reduceDiv, Nat.reduceMod, if_true, if_false,
    Nat.one_ne_zero] <;> omega

theorem reduced_ext {x y : Fe} (hx : isReduced x) (hy : isReduced y) (h : val x = val y) : x = y := by
  rw [reduced_eq_limbs hx, reduced_eq_limbs hy, h]

theorem limbs_canonical {v : Nat} (h : v < p) : isCanonical (limbs v) :=
  ⟨limbs_reduced v, by rw [val_limbs (lt_trans h p_lt)]; exact h⟩

/-! ## Carry and reduce -/

theorem carryval_lt (V : Nat) : carryval V < 2 ^ 255 := by
  unfold carryval
  split
  · assumption
  · have := Nat.mod_lt (V - 19) p_pos
    have : 19 + p = 2 ^ 255 := by decide
    omega

theorem carryval_mod (V : Nat) : carryval V % p = V % p := by
  unfold carryval
  split
  · rfl
  · rename_i h
    have h19 : 19 ≤ V := by omega
    rw [Nat.add_mod, Nat.mod_mod, ← Nat.add_mod, Nat.add_sub_cancel' h19]

theorem val_limbs_carryval (V : Nat) : val (limbs (carryval V)) = carryval V := val_limbs (carryval_lt V)

theorem val_carryFe (x : Fe) : val (carryFe x) = carryval (val x) := val_limbs_carryval _

theorem canon_lt (x : Fe) : canon x < p := Nat.mod_lt _ p_pos

theorem val_reduceFe (x : Fe) : val (reduceFe x) = canon x := val_limbs (lt_trans (canon_lt x) p_lt)

/-! ## Products -/

/-- What folding the high half takes away from the product: a multiple of p (40_field_kernel.md R145). -/
theorem valOf_accMul (a b : Nat → Nat) :
    valOf (accMul a b) + p * (valOf fun k => sum10 fun i => if k < i then cross i (k + 10 - i) * a i * b (k + 10 - i) else 0) =
      valOf a * valOf b := by
  have hp : (2 : Nat) ^ 255 = p + 19 := by decide
  have key : ∀ k < 10, accMul a b k + p * (sum10 fun i => if k < i then cross i (k + 10 - i) * a i * b (k + 10 - i) else 0) =
      (sum10 fun i => if i ≤ k then cross i (k - i) * a i * b (k - i) else 0)
        + 2 ^ 255 * (sum10 fun i => if k < i then cross i (k + 10 - i) * a i * b (k + 10 - i) else 0) := by
    intro k _; rw [hp, accMul]; ring
  rw [← valOf_mul, ← valOf_add, valOf_congr key]
  simp only [valOf, sum10, cross, W, Nat.reduceMul, Nat.reduceAdd, Nat.reduceDiv, Nat.reduceMod, Nat.reduceSub, Nat.reduceLeDiff,
    Nat.reduceLT, if_true, if_false, and_true, and_false, and_self, Nat.zero_ne_one, le_refl, Nat.zero_le, lt_irrefl]
  ring

theorem valOf_accMul_mod (a b : Nat → Nat) : valOf (accMul a b) % p = valOf a * valOf b % p := by
  rw [← valOf_accMul, Nat.add_mul_mod_self_left]

theorem val_productFe (x y : Fe) : val (productFe x y) = carryval (valOf (accMul (limb x) (limb y))) := val_limbs_carryval _

theorem productFe_reduced (x y : Fe) : isReduced (productFe x y) := limbs_reduced _

theorem val_productFe_mod (x y : Fe) : val (productFe x y) % p = val x * val y % p := by
  rw [val_productFe, carryval_mod, valOf_accMul_mod]; rfl

/-- A product accumulator is bounded by the sum of its coefficients (40_field_kernel.md R145, R147). -/
theorem accMul_le {a b : Nat → Nat} {m n : Nat} (ha : ∀ i < 10, a i ≤ m) (hb : ∀ i < 10, b i ≤ n) {k : Nat} (hk : k < 10) :
    accMul a b k ≤ 267 * (m * n) := by
  have hprod : ∀ i < 10, ∀ j < 10, a i * b j ≤ m * n := fun i hi j hj => Nat.mul_le_mul (ha i hi) (hb j hj)
  have h : accMul a b k ≤ (sum10 fun i => if i ≤ k then cross i (k - i) * (m * n) else 0)
      + 19 * (sum10 fun i => if k < i then cross i (k + 10 - i) * (m * n) else 0) := by
    unfold accMul
    refine Nat.add_le_add (sum10_le fun i hi => ?_) (Nat.mul_le_mul le_rfl (sum10_le fun i hi => ?_))
    · split
      · rw [Nat.mul_assoc]; exact Nat.mul_le_mul le_rfl (hprod _ hi _ (by omega))
      · exact le_rfl
    · split
      · rw [Nat.mul_assoc]; exact Nat.mul_le_mul le_rfl (hprod _ hi _ (by omega))
      · exact le_rfl
  refine le_trans h ?_
  interval_cases k <;>
    simp only [sum10, cross, Nat.reduceMod, Nat.reduceSub, Nat.reduceAdd, Nat.reduceLeDiff, Nat.reduceLT, if_true, if_false,
      and_true, and_false, and_self, Nat.zero_ne_one, le_refl, Nat.zero_le, lt_irrefl] <;>
    omega

/-- The accumulators of two reduced vectors (40_field_kernel.md R147). -/
theorem accMul_reduced {x y : Fe} (hx : isReduced x) (hy : isReduced y) {k : Nat} (hk : k < 10) :
    accMul (limb x) (limb y) k < 2 ^ 59 := by
  have hprod : ∀ i < 10, ∀ j < 10, limb x i * limb y j ≤ 2 ^ RAD i * 2 ^ RAD j := fun i hi j hj =>
    Nat.mul_le_mul (le_of_lt (hx i hi)) (le_of_lt (hy j hj))
  have h : accMul (limb x) (limb y) k ≤ (sum10 fun i => if i ≤ k then cross i (k - i) * (2 ^ RAD i * 2 ^ RAD (k - i)) else 0)
      + 19 * (sum10 fun i => if k < i then cross i (k + 10 - i) * (2 ^ RAD i * 2 ^ RAD (k + 10 - i)) else 0) := by
    unfold accMul
    refine Nat.add_le_add (sum10_le fun i hi => ?_) (Nat.mul_le_mul le_rfl (sum10_le fun i hi => ?_))
    · split
      · rw [Nat.mul_assoc]; exact Nat.mul_le_mul le_rfl (hprod _ hi _ (by omega))
      · exact le_rfl
    · split
      · rw [Nat.mul_assoc]; exact Nat.mul_le_mul le_rfl (hprod _ hi _ (by omega))
      · exact le_rfl
  refine lt_of_le_of_lt h ?_
  interval_cases k <;> decide

/-- The accumulators are symmetric (40_field_kernel.md R145). -/
theorem accMul_comm (a b : Nat → Nat) {k : Nat} (hk : k < 10) : accMul a b k = accMul b a k := by
  interval_cases k <;>
    simp only [accMul, sum10, cross, Nat.reduceMod, Nat.reduceSub, Nat.reduceAdd, Nat.reduceLeDiff, Nat.reduceLT, if_true, if_false,
      and_true, and_false, and_self, Nat.zero_ne_one, le_refl, Nat.zero_le, lt_irrefl] <;>
    ring

/-! ## The checks -/

theorem chk63_ok {r : Nat → Nat} (h : ∀ i < 10, r i < 2 ^ 63) : chk63 r = .ok (ofLimbs r) := if_pos h

theorem chk63_error {r : Nat → Nat} (h : ∃ i < 10, 2 ^ 63 ≤ r i) : chk63 r = .error .limbOverflow :=
  if_neg fun g => by obtain ⟨i, hi, hr⟩ := h; exact absurd (g i hi) (by omega)

/-- Either every limb fits and is stored, or some limb does not and the cause is LIMB_OVERFLOW (40_field_kernel.md R142). -/
theorem chk63_cases (r : Nat → Nat) :
    ((∀ i < 10, r i < 2 ^ 63) ∧ chk63 r = .ok (ofLimbs r)) ∨ ((∃ i < 10, 2 ^ 63 ≤ r i) ∧ chk63 r = .error .limbOverflow) := by
  by_cases h : ∀ i < 10, r i < 2 ^ 63
  · exact .inl ⟨h, chk63_ok h⟩
  · have h' : ∃ i < 10, 2 ^ 63 ≤ r i := by
      by_contra g
      exact h fun i hi => by
        by_contra hl
        exact g ⟨i, hi, by omega⟩
    exact .inr ⟨h', chk63_error h'⟩

/-! ## Select -/

theorem maskOf_true : maskOf true = BitVec.allOnes 63 := by decide

theorem maskOf_false : maskOf false = 0#63 := by decide

@[simp] theorem selectFe_true (x y : Fe) : selectFe true x y = x := by
  apply Vector.ext
  intro i hi
  simp only [selectFe, limbwise, maskOf_true, Vector.getElem_ofFn, BitVec.and_allOnes, BitVec.not_allOnes]
  simp

@[simp] theorem selectFe_false (x y : Fe) : selectFe false x y = y := by
  apply Vector.ext
  intro i hi
  simp only [selectFe, limbwise, maskOf_false, Vector.getElem_ofFn, BitVec.and_zero, BitVec.not_zero, BitVec.and_allOnes]
  simp

end Sys2Proof.Machine
end

