-- ==== Sys2Proof/Laws/CarryUnit.lean ====
section
/-! SUPPORT. One pass of the carry unit over the ten limbs (40_field_kernel.md R144). -/

namespace Sys2Proof.Machine

/-- Carry steps on limbs 0 to 9 in order take c·p from the value, c being its quotient by 2²⁵⁵, and leave every limb below its radix
but for 19·c added to limb 0. -/
theorem carryPass_spec (l : Nat → Nat) :
    ∃ c r, (List.range 10).foldl carryStep l 0 = r + 19 * c ∧ r < 2 ^ 26 ∧
      (∀ i, 1 ≤ i → i < 10 → (List.range 10).foldl carryStep l i < 2 ^ RAD i) ∧
      valOf ((List.range 10).foldl carryStep l) + c * p = valOf l ∧ c = valOf l / 2 ^ 255 := by
  have e : List.range 10 = [0, 1, 2, 3, 4, 5, 6, 7, 8, 9] := by decide
  obtain ⟨q0, h0⟩ : ∃ q, q = l 0 / 2 ^ 26 := ⟨_, rfl⟩
  obtain ⟨q1, h1⟩ : ∃ q, q = (l 1 + q0) / 2 ^ 25 := ⟨_, rfl⟩
  obtain ⟨q2, h2⟩ : ∃ q, q = (l 2 + q1) / 2 ^ 26 := ⟨_, rfl⟩
  obtain ⟨q3, h3⟩ : ∃ q, q = (l 3 + q2) / 2 ^ 25 := ⟨_, rfl⟩
  obtain ⟨q4, h4⟩ : ∃ q, q = (l 4 + q3) / 2 ^ 26 := ⟨_, rfl⟩
  obtain ⟨q5, h5⟩ : ∃ q, q = (l 5 + q4) / 2 ^ 25 := ⟨_, rfl⟩
  obtain ⟨q6, h6⟩ : ∃ q, q = (l 6 + q5) / 2 ^ 26 := ⟨_, rfl⟩
  obtain ⟨q7, h7⟩ : ∃ q, q = (l 7 + q6) / 2 ^ 25 := ⟨_, rfl⟩
  obtain ⟨q8, h8⟩ : ∃ q, q = (l 8 + q7) / 2 ^ 26 := ⟨_, rfl⟩
  obtain ⟨q9, h9⟩ : ∃ q, q = (l 9 + q8) / 2 ^ 25 := ⟨_, rfl⟩
  have m0 : (List.range 10).foldl carryStep l 0 = l 0 % 2 ^ 26 + 19 * q9 := by
    simp [e, carryStep, RAD, Nat.shiftRight_eq_div_pow, h0, h1, h2, h3, h4, h5, h6, h7, h8, h9]
  have m1 : (List.range 10).foldl carryStep l 1 = (l 1 + q0) % 2 ^ 25 := by
    simp [e, carryStep, RAD, Nat.shiftRight_eq_div_pow, h0]
  have m2 : (List.range 10).foldl carryStep l 2 = (l 2 + q1) % 2 ^ 26 := by
    simp [e, carryStep, RAD, Nat.shiftRight_eq_div_pow, h0, h1]
  have m3 : (List.range 10).foldl carryStep l 3 = (l 3 + q2) % 2 ^ 25 := by
    simp [e, carryStep, RAD, Nat.shiftRight_eq_div_pow, h0, h1, h2]
  have m4 : (List.range 10).foldl carryStep l 4 = (l 4 + q3) % 2 ^ 26 := by
    simp [e, carryStep, RAD, Nat.shiftRight_eq_div_pow, h0, h1, h2, h3]
  have m5 : (List.range 10).foldl carryStep l 5 = (l 5 + q4) % 2 ^ 25 := by
    simp [e, carryStep, RAD, Nat.shiftRight_eq_div_pow, h0, h1, h2, h3, h4]
  have m6 : (List.range 10).foldl carryStep l 6 = (l 6 + q5) % 2 ^ 26 := by
    simp [e, carryStep, RAD, Nat.shiftRight_eq_div_pow, h0, h1, h2, h3, h4, h5]
  have m7 : (List.range 10).foldl carryStep l 7 = (l 7 + q6) % 2 ^ 25 := by
    simp [e, carryStep, RAD, Nat.shiftRight_eq_div_pow, h0, h1, h2, h3, h4, h5, h6]
  have m8 : (List.range 10).foldl carryStep l 8 = (l 8 + q7) % 2 ^ 26 := by
    simp [e, carryStep, RAD, Nat.shiftRight_eq_div_pow, h0, h1, h2, h3, h4, h5, h6, h7]
  have m9 : (List.range 10).foldl carryStep l 9 = (l 9 + q8) % 2 ^ 25 := by
    simp [e, carryStep, RAD, Nat.shiftRight_eq_div_pow, h0, h1, h2, h3, h4, h5, h6, h7, h8]
  have hv : valOf ((List.range 10).foldl carryStep l) + q9 * p = valOf l := by
    rw [p_eq]
    simp only [valOf, sum10, W, Nat.reduceMul, Nat.reduceAdd, Nat.reduceDiv, m0, m1, m2, m3, m4, m5, m6, m7, m8, m9]
    clear m0 m1 m2 m3 m4 m5 m6 m7 m8 m9 e
    omega
  refine ⟨q9, l 0 % 2 ^ 26, m0, Nat.mod_lt _ (by decide), ?_, hv, ?_⟩
  · intro i hi hi'
    interval_cases i <;> simp only [m1, m2, m3, m4, m5, m6, m7, m8, m9] <;> exact Nat.mod_lt _ (by decide)
  · simp only [valOf, sum10, W, Nat.reduceMul, Nat.reduceAdd, Nat.reduceDiv]
    clear m0 m1 m2 m3 m4 m5 m6 m7 m8 m9 e hv
    omega

end Sys2Proof.Machine
end

