-- ==== Sys2Proof/Laws/State.lean ====
section
/-! SUPPORT. One lemma per field of the state for each shared operation, so that no proof unfolds a record update. -/

namespace Sys2Proof.Machine

/-! ## setFeReg -/

@[simp] theorem setFeReg_f (s : State) (n : Nat) (v : Fe) : (setFeReg s n v).f = s.f.setIfInBounds n v := rfl
@[simp] theorem setFeReg_buf (s : State) (n : Nat) (v : Fe) : (setFeReg s n v).buf = s.buf := rfl
@[simp] theorem setFeReg_ie (s : State) (n : Nat) (v : Fe) : (setFeReg s n v).ie = s.ie := rfl
@[simp] theorem setFeReg_status (s : State) (n : Nat) (v : Fe) : (setFeReg s n v).status = s.status := rfl
@[simp] theorem setFeReg_cmd (s : State) (n : Nat) (v : Fe) : (setFeReg s n v).cmd = s.cmd := rfl
@[simp] theorem setFeReg_pending (s : State) (n : Nat) (v : Fe) : (setFeReg s n v).pending = s.pending := rfl
@[simp] theorem setFeReg_hidden (s : State) (n : Nat) (v : Fe) : (setFeReg s n v).hidden = s.hidden := rfl
@[simp] theorem setFeReg_host (s : State) (n : Nat) (v : Fe) : (setFeReg s n v).host = s.host := rfl
@[simp] theorem setFeReg_resp (s : State) (n : Nat) (v : Fe) : (setFeReg s n v).resp = s.resp := rfl
@[simp] theorem setFeReg_polled (s : State) (n : Nat) (v : Fe) : (setFeReg s n v).polled = s.polled := rfl
@[simp] theorem setFeReg_draws (s : State) (n : Nat) (v : Fe) : (setFeReg s n v).draws = s.draws := rfl
@[simp] theorem setFeReg_epoch (s : State) (n : Nat) (v : Fe) : (setFeReg s n v).epoch = s.epoch := rfl

/-! ## memWrite -/

@[simp] theorem memWrite_f (s : State) (off : Nat) (bs : List Byte) : (memWrite s off bs).f = s.f := rfl
@[simp] theorem memWrite_buf (s : State) (off : Nat) (bs : List Byte) : (memWrite s off bs).buf = writeCells s.buf off bs := rfl
@[simp] theorem memWrite_ie (s : State) (off : Nat) (bs : List Byte) : (memWrite s off bs).ie = s.ie := rfl
@[simp] theorem memWrite_status (s : State) (off : Nat) (bs : List Byte) : (memWrite s off bs).status = s.status := rfl
@[simp] theorem memWrite_cmd (s : State) (off : Nat) (bs : List Byte) : (memWrite s off bs).cmd = s.cmd := rfl
@[simp] theorem memWrite_pending (s : State) (off : Nat) (bs : List Byte) : (memWrite s off bs).pending = s.pending := rfl
@[simp] theorem memWrite_hidden (s : State) (off : Nat) (bs : List Byte) : (memWrite s off bs).hidden = s.hidden := rfl
@[simp] theorem memWrite_host (s : State) (off : Nat) (bs : List Byte) : (memWrite s off bs).host = s.host := rfl
@[simp] theorem memWrite_resp (s : State) (off : Nat) (bs : List Byte) : (memWrite s off bs).resp = s.resp := rfl
@[simp] theorem memWrite_polled (s : State) (off : Nat) (bs : List Byte) : (memWrite s off bs).polled = s.polled := rfl
@[simp] theorem memWrite_draws (s : State) (off : Nat) (bs : List Byte) : (memWrite s off bs).draws = s.draws := rfl
@[simp] theorem memWrite_epoch (s : State) (off : Nat) (bs : List Byte) : (memWrite s off bs).epoch = s.epoch := rfl

/-! ## setPtReg -/

@[simp] theorem setPtReg_f (s : State) (n : Nat) (v : Point) : (setPtReg s n v).f = ((s.f.setIfInBounds (4 * n) v.x).setIfInBounds (4 * n + 1) v.y).setIfInBounds (4 * n + 2) v.z := rfl
@[simp] theorem setPtReg_buf (s : State) (n : Nat) (v : Point) : (setPtReg s n v).buf = s.buf := rfl
@[simp] theorem setPtReg_ie (s : State) (n : Nat) (v : Point) : (setPtReg s n v).ie = s.ie := rfl
@[simp] theorem setPtReg_status (s : State) (n : Nat) (v : Point) : (setPtReg s n v).status = s.status := rfl
@[simp] theorem setPtReg_cmd (s : State) (n : Nat) (v : Point) : (setPtReg s n v).cmd = s.cmd := rfl
@[simp] theorem setPtReg_pending (s : State) (n : Nat) (v : Point) : (setPtReg s n v).pending = s.pending := rfl
@[simp] theorem setPtReg_hidden (s : State) (n : Nat) (v : Point) : (setPtReg s n v).hidden = s.hidden := rfl
@[simp] theorem setPtReg_host (s : State) (n : Nat) (v : Point) : (setPtReg s n v).host = s.host := rfl
@[simp] theorem setPtReg_resp (s : State) (n : Nat) (v : Point) : (setPtReg s n v).resp = s.resp := rfl
@[simp] theorem setPtReg_polled (s : State) (n : Nat) (v : Point) : (setPtReg s n v).polled = s.polled := rfl
@[simp] theorem setPtReg_draws (s : State) (n : Nat) (v : Point) : (setPtReg s n v).draws = s.draws := rfl
@[simp] theorem setPtReg_epoch (s : State) (n : Nat) (v : Point) : (setPtReg s n v).epoch = s.epoch := rfl

/-! ## countDraw -/

@[simp] theorem countDraw_f (s : State) : (countDraw s).f = s.f := rfl
@[simp] theorem countDraw_buf (s : State) : (countDraw s).buf = s.buf := rfl
@[simp] theorem countDraw_ie (s : State) : (countDraw s).ie = s.ie := rfl
@[simp] theorem countDraw_status (s : State) : (countDraw s).status = s.status := rfl
@[simp] theorem countDraw_cmd (s : State) : (countDraw s).cmd = s.cmd := rfl
@[simp] theorem countDraw_pending (s : State) : (countDraw s).pending = s.pending := rfl
@[simp] theorem countDraw_hidden (s : State) : (countDraw s).hidden = s.hidden := rfl
@[simp] theorem countDraw_host (s : State) : (countDraw s).host = s.host := rfl
@[simp] theorem countDraw_resp (s : State) : (countDraw s).resp = s.resp := rfl
@[simp] theorem countDraw_polled (s : State) : (countDraw s).polled = s.polled := rfl
@[simp] theorem countDraw_draws (s : State) : (countDraw s).draws = s.draws + 1 := rfl
@[simp] theorem countDraw_epoch (s : State) : (countDraw s).epoch = s.epoch := rfl

/-! ## scrubHidden -/

@[simp] theorem scrubHidden_f (s : State) : (scrubHidden s).f = s.f := rfl
@[simp] theorem scrubHidden_buf (s : State) : (scrubHidden s).buf = s.buf := rfl
@[simp] theorem scrubHidden_ie (s : State) : (scrubHidden s).ie = s.ie := rfl
@[simp] theorem scrubHidden_status (s : State) : (scrubHidden s).status = s.status := rfl
@[simp] theorem scrubHidden_cmd (s : State) : (scrubHidden s).cmd = s.cmd := rfl
@[simp] theorem scrubHidden_pending (s : State) : (scrubHidden s).pending = s.pending := rfl
@[simp] theorem scrubHidden_hidden (s : State) : (scrubHidden s).hidden = Config.freeLadder s.draws := rfl
@[simp] theorem scrubHidden_host (s : State) : (scrubHidden s).host = s.host := rfl
@[simp] theorem scrubHidden_resp (s : State) : (scrubHidden s).resp = s.resp := rfl
@[simp] theorem scrubHidden_polled (s : State) : (scrubHidden s).polled = s.polled := rfl
@[simp] theorem scrubHidden_draws (s : State) : (scrubHidden s).draws = s.draws + 1 := rfl
@[simp] theorem scrubHidden_epoch (s : State) : (scrubHidden s).epoch = s.epoch := rfl

/-! ## acceptCommand -/

@[simp] theorem acceptCommand_f (s : State) (w : Word) : (acceptCommand s w).f = s.f := rfl
@[simp] theorem acceptCommand_buf (s : State) (w : Word) : (acceptCommand s w).buf = s.buf := rfl
@[simp] theorem acceptCommand_ie (s : State) (w : Word) : (acceptCommand s w).ie = s.ie := rfl
@[simp] theorem acceptCommand_status (s : State) (w : Word) : (acceptCommand s w).status = { s.status with busy := true, done := false } := rfl
@[simp] theorem acceptCommand_cmd (s : State) (w : Word) : (acceptCommand s w).cmd = w := rfl
@[simp] theorem acceptCommand_pending (s : State) (w : Word) : (acceptCommand s w).pending = some w := rfl
@[simp] theorem acceptCommand_hidden (s : State) (w : Word) : (acceptCommand s w).hidden = s.hidden := rfl
@[simp] theorem acceptCommand_host (s : State) (w : Word) : (acceptCommand s w).host = s.host := rfl
@[simp] theorem acceptCommand_resp (s : State) (w : Word) : (acceptCommand s w).resp = s.resp := rfl
@[simp] theorem acceptCommand_polled (s : State) (w : Word) : (acceptCommand s w).polled = false := rfl
@[simp] theorem acceptCommand_draws (s : State) (w : Word) : (acceptCommand s w).draws = s.draws := rfl
@[simp] theorem acceptCommand_epoch (s : State) (w : Word) : (acceptCommand s w).epoch = s.epoch := rfl

/-! ## completeSuccess -/

@[simp] theorem completeSuccess_f (s : State) : (completeSuccess s).f = s.f := rfl
@[simp] theorem completeSuccess_buf (s : State) : (completeSuccess s).buf = s.buf := rfl
@[simp] theorem completeSuccess_ie (s : State) : (completeSuccess s).ie = s.ie := rfl
@[simp] theorem completeSuccess_status (s : State) : (completeSuccess s).status = { s.status with done := true, busy := false } := rfl
@[simp] theorem completeSuccess_cmd (s : State) : (completeSuccess s).cmd = s.cmd := rfl
@[simp] theorem completeSuccess_pending (s : State) : (completeSuccess s).pending = none := rfl
@[simp] theorem completeSuccess_hidden (s : State) : (completeSuccess s).hidden = s.hidden := rfl
@[simp] theorem completeSuccess_host (s : State) : (completeSuccess s).host = s.host := rfl
@[simp] theorem completeSuccess_resp (s : State) : (completeSuccess s).resp = s.resp := rfl
@[simp] theorem completeSuccess_polled (s : State) : (completeSuccess s).polled = s.polled := rfl
@[simp] theorem completeSuccess_draws (s : State) : (completeSuccess s).draws = s.draws := rfl
@[simp] theorem completeSuccess_epoch (s : State) : (completeSuccess s).epoch = s.epoch := rfl

/-! ## completeError -/

@[simp] theorem completeError_f (k : Cause) (s : State) : (completeError k s).f = s.f := rfl
@[simp] theorem completeError_buf (k : Cause) (s : State) : (completeError k s).buf = s.buf := rfl
@[simp] theorem completeError_ie (k : Cause) (s : State) : (completeError k s).ie = s.ie := rfl
@[simp] theorem completeError_status (k : Cause) (s : State) : (completeError k s).status = { s.status with cause := k, err := true, busy := false } := rfl
@[simp] theorem completeError_cmd (k : Cause) (s : State) : (completeError k s).cmd = s.cmd := rfl
@[simp] theorem completeError_pending (k : Cause) (s : State) : (completeError k s).pending = none := rfl
@[simp] theorem completeError_hidden (k : Cause) (s : State) : (completeError k s).hidden = s.hidden := rfl
@[simp] theorem completeError_host (k : Cause) (s : State) : (completeError k s).host = s.host := rfl
@[simp] theorem completeError_resp (k : Cause) (s : State) : (completeError k s).resp = s.resp := rfl
@[simp] theorem completeError_polled (k : Cause) (s : State) : (completeError k s).polled = s.polled := rfl
@[simp] theorem completeError_draws (k : Cause) (s : State) : (completeError k s).draws = s.draws := rfl
@[simp] theorem completeError_epoch (k : Cause) (s : State) : (completeError k s).epoch = s.epoch := rfl

/-! ## acknowledgeError -/

@[simp] theorem acknowledgeError_f (s : State) : (acknowledgeError s).f = s.f := rfl
@[simp] theorem acknowledgeError_buf (s : State) : (acknowledgeError s).buf = s.buf := rfl
@[simp] theorem acknowledgeError_ie (s : State) : (acknowledgeError s).ie = s.ie := rfl
@[simp] theorem acknowledgeError_status (s : State) : (acknowledgeError s).status = { s.status with err := false, cause := .none } := rfl
@[simp] theorem acknowledgeError_cmd (s : State) : (acknowledgeError s).cmd = s.cmd := rfl
@[simp] theorem acknowledgeError_pending (s : State) : (acknowledgeError s).pending = s.pending := rfl
@[simp] theorem acknowledgeError_hidden (s : State) : (acknowledgeError s).hidden = s.hidden := rfl
@[simp] theorem acknowledgeError_host (s : State) : (acknowledgeError s).host = s.host := rfl
@[simp] theorem acknowledgeError_resp (s : State) : (acknowledgeError s).resp = s.resp := rfl
@[simp] theorem acknowledgeError_polled (s : State) : (acknowledgeError s).polled = s.polled := rfl
@[simp] theorem acknowledgeError_draws (s : State) : (acknowledgeError s).draws = s.draws := rfl
@[simp] theorem acknowledgeError_epoch (s : State) : (acknowledgeError s).epoch = s.epoch := rfl

/-! ## setOverrun -/

@[simp] theorem setOverrun_f (s : State) : (setOverrun s).f = s.f := rfl
@[simp] theorem setOverrun_buf (s : State) : (setOverrun s).buf = s.buf := rfl
@[simp] theorem setOverrun_ie (s : State) : (setOverrun s).ie = s.ie := rfl
@[simp] theorem setOverrun_status (s : State) : (setOverrun s).status = { s.status with ovr := true } := rfl
@[simp] theorem setOverrun_cmd (s : State) : (setOverrun s).cmd = s.cmd := rfl
@[simp] theorem setOverrun_pending (s : State) : (setOverrun s).pending = s.pending := rfl
@[simp] theorem setOverrun_hidden (s : State) : (setOverrun s).hidden = s.hidden := rfl
@[simp] theorem setOverrun_host (s : State) : (setOverrun s).host = s.host := rfl
@[simp] theorem setOverrun_resp (s : State) : (setOverrun s).resp = s.resp := rfl
@[simp] theorem setOverrun_polled (s : State) : (setOverrun s).polled = s.polled := rfl
@[simp] theorem setOverrun_draws (s : State) : (setOverrun s).draws = s.draws := rfl
@[simp] theorem setOverrun_epoch (s : State) : (setOverrun s).epoch = s.epoch := rfl

/-! ## writeF -/

@[simp] theorem writeF_f (s : State) (v : Field5) (x : Fe) : (writeF s v x).f = s.f.setIfInBounds v.toNat x := rfl
@[simp] theorem writeF_buf (s : State) (v : Field5) (x : Fe) : (writeF s v x).buf = s.buf := rfl
@[simp] theorem writeF_ie (s : State) (v : Field5) (x : Fe) : (writeF s v x).ie = s.ie := rfl
@[simp] theorem writeF_status (s : State) (v : Field5) (x : Fe) : (writeF s v x).status = s.status := rfl
@[simp] theorem writeF_cmd (s : State) (v : Field5) (x : Fe) : (writeF s v x).cmd = s.cmd := rfl
@[simp] theorem writeF_pending (s : State) (v : Field5) (x : Fe) : (writeF s v x).pending = s.pending := rfl
@[simp] theorem writeF_hidden (s : State) (v : Field5) (x : Fe) : (writeF s v x).hidden = s.hidden := rfl
@[simp] theorem writeF_host (s : State) (v : Field5) (x : Fe) : (writeF s v x).host = s.host := rfl
@[simp] theorem writeF_resp (s : State) (v : Field5) (x : Fe) : (writeF s v x).resp = s.resp := rfl
@[simp] theorem writeF_polled (s : State) (v : Field5) (x : Fe) : (writeF s v x).polled = s.polled := rfl
@[simp] theorem writeF_draws (s : State) (v : Field5) (x : Fe) : (writeF s v x).draws = s.draws := rfl
@[simp] theorem writeF_epoch (s : State) (v : Field5) (x : Fe) : (writeF s v x).epoch = s.epoch := rfl

/-! ## writeP -/

@[simp] theorem writeP_f (s : State) (v : Field5) (x : Point) : (writeP s v x).f = ((s.f.setIfInBounds (4 * v.toNat) x.x).setIfInBounds (4 * v.toNat + 1) x.y).setIfInBounds (4 * v.toNat + 2) x.z := rfl
@[simp] theorem writeP_buf (s : State) (v : Field5) (x : Point) : (writeP s v x).buf = s.buf := rfl
@[simp] theorem writeP_ie (s : State) (v : Field5) (x : Point) : (writeP s v x).ie = s.ie := rfl
@[simp] theorem writeP_status (s : State) (v : Field5) (x : Point) : (writeP s v x).status = s.status := rfl
@[simp] theorem writeP_cmd (s : State) (v : Field5) (x : Point) : (writeP s v x).cmd = s.cmd := rfl
@[simp] theorem writeP_pending (s : State) (v : Field5) (x : Point) : (writeP s v x).pending = s.pending := rfl
@[simp] theorem writeP_hidden (s : State) (v : Field5) (x : Point) : (writeP s v x).hidden = s.hidden := rfl
@[simp] theorem writeP_host (s : State) (v : Field5) (x : Point) : (writeP s v x).host = s.host := rfl
@[simp] theorem writeP_resp (s : State) (v : Field5) (x : Point) : (writeP s v x).resp = s.resp := rfl
@[simp] theorem writeP_polled (s : State) (v : Field5) (x : Point) : (writeP s v x).polled = s.polled := rfl
@[simp] theorem writeP_draws (s : State) (v : Field5) (x : Point) : (writeP s v x).draws = s.draws := rfl
@[simp] theorem writeP_epoch (s : State) (v : Field5) (x : Point) : (writeP s v x).epoch = s.epoch := rfl

/-! ## writeSlots -/

@[simp] theorem writeSlots_f (s : State) (v : Field5) (bs : List Byte) : (writeSlots s v bs).f = s.f := rfl
@[simp] theorem writeSlots_buf (s : State) (v : Field5) (bs : List Byte) : (writeSlots s v bs).buf = writeCells s.buf (slotBase v) bs := rfl
@[simp] theorem writeSlots_ie (s : State) (v : Field5) (bs : List Byte) : (writeSlots s v bs).ie = s.ie := rfl
@[simp] theorem writeSlots_status (s : State) (v : Field5) (bs : List Byte) : (writeSlots s v bs).status = s.status := rfl
@[simp] theorem writeSlots_cmd (s : State) (v : Field5) (bs : List Byte) : (writeSlots s v bs).cmd = s.cmd := rfl
@[simp] theorem writeSlots_pending (s : State) (v : Field5) (bs : List Byte) : (writeSlots s v bs).pending = s.pending := rfl
@[simp] theorem writeSlots_hidden (s : State) (v : Field5) (bs : List Byte) : (writeSlots s v bs).hidden = s.hidden := rfl
@[simp] theorem writeSlots_host (s : State) (v : Field5) (bs : List Byte) : (writeSlots s v bs).host = s.host := rfl
@[simp] theorem writeSlots_resp (s : State) (v : Field5) (bs : List Byte) : (writeSlots s v bs).resp = s.resp := rfl
@[simp] theorem writeSlots_polled (s : State) (v : Field5) (bs : List Byte) : (writeSlots s v bs).polled = s.polled := rfl
@[simp] theorem writeSlots_draws (s : State) (v : Field5) (bs : List Byte) : (writeSlots s v bs).draws = s.draws := rfl
@[simp] theorem writeSlots_epoch (s : State) (v : Field5) (bs : List Byte) : (writeSlots s v bs).epoch = s.epoch := rfl

end Sys2Proof.Machine
end

