-- ==== Sys2Proof/Laws/Memory.lean ====
section
/-! SUPPORT. Byte sequences, the byte buffer and the register file: reads after writes, what a write leaves alone, and the canonical
form of BUF's cells. -/

namespace Sys2Proof.Machine

/-! ## Byte sequences -/

@[simp] theorem leBytes_length (n v : Nat) : (leBytes n v).length = n := by
  induction n generalizing v with
  | zero => rfl
  | succ n ih => simp [leBytes, ih]

theorem le_leBytes (n v : Nat) : le (leBytes n v) = v % 256 ^ n := by
  induction n generalizing v with
  | zero => simp [leBytes, le, Nat.mod_one]
  | succ n ih =>
    have h := Nat.mod_mul (a := 256) (b := 256 ^ n) (x := v)
    simp only [leBytes, le, ih, BitVec.toNat_ofNat, pow_succ' 256 n, h]

theorem le_lt (bs : List Byte) : le bs < 256 ^ bs.length := by
  induction bs with
  | nil => simp [le]
  | cons b bs ih =>
    have hb := b.isLt
    simp only [le, List.length_cons, pow_succ']
    omega

theorem leBytes_le (bs : List Byte) : leBytes bs.length (le bs) = bs := by
  induction bs with
  | nil => rfl
  | cons b bs ih =>
    have hb := b.isLt
    have h1 : (b.toNat + 256 * le bs) / 256 = le bs := by omega
    have h2 : BitVec.ofNat 8 (b.toNat + 256 * le bs) = b := by
      apply BitVec.eq_of_toNat_eq; simp only [BitVec.toNat_ofNat]; omega
    simp [leBytes, le, h1, h2, ih]

theorem le_append (as bs : List Byte) : le (as ++ bs) = le as + 256 ^ as.length * le bs := by
  induction as with
  | nil => simp [le]
  | cons a as ih => simp only [List.cons_append, le, ih, List.length_cons, pow_succ']; ring

theorem le_replicate_zero (n : Nat) : le (List.replicate n 0#8) = 0 := by
  induction n with
  | zero => rfl
  | succ n ih => simp [List.replicate_succ, le, ih]

theorem leBytes_zero (n : Nat) : leBytes n 0 = List.replicate n 0#8 := by
  induction n with
  | zero => rfl
  | succ n ih => simp [leBytes, ih, List.replicate_succ]

/-! ## Cells -/

theorem lookup_insert_self (m : List Host.Cell) (j : Nat) (b : Byte) : lookupCell (insertCell m j b) j = some b := by
  induction m with
  | nil => simp [insertCell, lookupCell]
  | cons c m ih =>
    obtain ⟨i, c⟩ := c
    simp only [insertCell]
    split
    · simp [lookupCell]
    · split
      · simp [lookupCell]
      · rename_i h1 h2
        rw [lookupCell, if_neg (by omega), ih]

theorem lookup_insert_ne (m : List Host.Cell) {j k : Nat} (b : Byte) (h : k ≠ j) :
    lookupCell (insertCell m j b) k = lookupCell m k := by
  induction m with
  | nil => simp [insertCell, lookupCell, h.symm]
  | cons c m ih =>
    obtain ⟨i, c⟩ := c
    simp only [insertCell]
    split
    · simp [lookupCell, h.symm]
    · split
      · rename_i h2
        subst h2
        simp [lookupCell, h.symm]
      · simp only [lookupCell, ih]

theorem lookup_writeCell (m : List Host.Cell) (j k : Nat) (b : Byte) :
    lookupCell (writeCell m j b) k = if k = j ∧ j < bufSize then some b else lookupCell m k := by
  unfold writeCell
  by_cases hj : j < bufSize
  · by_cases hk : k = j
    · subst hk; simp [hj, lookup_insert_self]
    · simp [hj, hk, lookup_insert_ne m b hk]
  · simp [hj]

theorem lookup_writeCells (bs : List Byte) (m : List Host.Cell) (off k : Nat) :
    lookupCell (writeCells m off bs) k =
      if off ≤ k ∧ k < off + bs.length ∧ k < bufSize then bs[k - off]? else lookupCell m k := by
  induction bs generalizing m off with
  | nil =>
    simp only [writeCells, List.length_nil]
    rw [if_neg (by omega)]
  | cons b bs ih =>
    rw [writeCells, ih, lookup_writeCell]
    simp only [List.length_cons]
    by_cases h1 : k = off
    · subst h1
      rw [if_neg (by omega)]
      by_cases h2 : k < bufSize
      · rw [if_pos ⟨rfl, h2⟩, if_pos ⟨by omega, by omega, h2⟩]; simp
      · rw [if_neg (by omega), if_neg (by omega)]
    · by_cases h2 : off + 1 ≤ k ∧ k < off + 1 + bs.length ∧ k < bufSize
      · rw [if_pos h2, if_pos ⟨by omega, by omega, h2.2.2⟩]
        obtain ⟨d, rfl⟩ : ∃ d, k = off + 1 + d := ⟨k - (off + 1), by omega⟩
        rw [show off + 1 + d - (off + 1) = d by omega, show off + 1 + d - off = d + 1 by omega]
        simp
      · rw [if_neg h2, if_neg (by omega), if_neg (by omega)]

/-! ## The canonical form -/

theorem risingFrom_mono {lo lo' : Nat} (h : lo' ≤ lo) {m : List Host.Cell} (hm : risingFrom lo m = true) :
    risingFrom lo' m = true := by
  cases m with
  | nil => rfl
  | cons c m =>
    obtain ⟨i, c⟩ := c
    simp only [risingFrom, Bool.and_eq_true, decide_eq_true_eq] at hm ⊢
    exact ⟨⟨by omega, hm.1.2⟩, hm.2⟩

theorem insertCell_rising {lo j : Nat} {m : List Host.Cell} {b : Byte} (hlo : lo ≤ j) (hj : j < bufSize)
    (hm : risingFrom lo m = true) : risingFrom lo (insertCell m j b) = true := by
  induction m generalizing lo with
  | nil => simp [insertCell, risingFrom, hlo, hj]
  | cons c m ih =>
    obtain ⟨i, c⟩ := c
    simp only [risingFrom, Bool.and_eq_true, decide_eq_true_eq] at hm
    simp only [insertCell]
    split
    · simp only [risingFrom, Bool.and_eq_true, decide_eq_true_eq]
      exact ⟨⟨hlo, hj⟩, ⟨by omega, hm.1.2⟩, hm.2⟩
    · split
      · rename_i h2
        subst h2
        simp only [risingFrom, Bool.and_eq_true, decide_eq_true_eq]
        exact ⟨⟨hlo, hj⟩, hm.2⟩
      · simp only [risingFrom, Bool.and_eq_true, decide_eq_true_eq]
        exact ⟨hm.1, ih (by omega) hm.2⟩

theorem writeCell_wf {m : List Host.Cell} (j : Nat) (b : Byte) (hm : bufWf m = true) : bufWf (writeCell m j b) = true := by
  unfold writeCell
  split
  · exact insertCell_rising (Nat.zero_le _) ‹_› hm
  · exact hm

theorem writeCells_wf (bs : List Byte) {m : List Host.Cell} (off : Nat) (hm : bufWf m = true) :
    bufWf (writeCells m off bs) = true := by
  induction bs generalizing m off with
  | nil => exact hm
  | cons b bs ih => exact ih _ (writeCell_wf off b hm)

theorem reset_buf_wf : bufWf State.reset.buf = true := rfl

/-! ## Reads of BUF -/

theorem bufByte_congr {s t : State} (hb : t.buf = s.buf) (he : t.epoch = s.epoch) (j : Nat) : bufByte t j = bufByte s j := by
  unfold bufByte; rw [hb, he]

/-- Everything `memWrite` does to a byte read afterwards. -/
theorem bufByte_memWrite (s : State) (off : Nat) (bs : List Byte) (j : Nat) :
    bufByte (memWrite s off bs) j =
      if off ≤ j ∧ j < off + bs.length ∧ j < bufSize then (bs[j - off]?).getD 0 else bufByte s j := by
  unfold bufByte
  simp only [memWrite_buf, memWrite_epoch, lookup_writeCells]
  by_cases h : off ≤ j ∧ j < off + bs.length ∧ j < bufSize
  · have : j - off < bs.length := by omega
    simp [h, List.getElem?_eq_getElem this]
  · simp [h]

@[simp] theorem memRead_length (s : State) (off n : Nat) : (memRead s off n).length = n := by simp [memRead]

theorem memRead_getElem? (s : State) (off n k : Nat) (h : k < n) : (memRead s off n)[k]? = some (bufByte s (off + k)) := by
  simp [memRead, h]

theorem memRead_congr {s t : State} {off n : Nat} (h : ∀ j, off ≤ j → j < off + n → bufByte t j = bufByte s j) :
    memRead t off n = memRead s off n := by
  unfold memRead
  apply List.map_congr_left
  intro k hk
  exact h _ (by omega) (by have := List.mem_range.1 hk; omega)

theorem memRead_memWrite (s : State) (off : Nat) (bs : List Byte) (h : off + bs.length ≤ bufSize) :
    memRead (memWrite s off bs) off bs.length = bs := by
  apply List.ext_getElem?
  intro k
  by_cases hk : k < bs.length
  · rw [memRead_getElem? _ _ _ _ hk, bufByte_memWrite, if_pos (by omega)]
    simp [List.getElem?_eq_getElem hk]
  · simp [List.getElem?_eq_none (Nat.le_of_not_lt hk), memRead]
    omega

theorem memRead_append (s : State) (off m n : Nat) : memRead s off (m + n) = memRead s off m ++ memRead s (off + m) n := by
  apply List.ext_getElem?
  intro k
  by_cases hk : k < m
  · rw [memRead_getElem? _ _ _ _ (by omega), List.getElem?_append_left (by simpa using hk), memRead_getElem? _ _ _ _ hk]
  · rw [List.getElem?_append_right (by simpa using hk)]
    by_cases hk2 : k < m + n
    · rw [memRead_getElem? _ _ _ _ hk2, memRead_length, memRead_getElem? _ _ _ _ (by omega)]
      congr 2; omega
    · rw [List.getElem?_eq_none (by simpa using hk2), List.getElem?_eq_none (by simp; omega)]

/-! ## The register file -/

theorem feReg_congr {s t : State} (h : t.f = s.f) (n : Nat) : feReg t n = feReg s n := by unfold feReg; rw [h]

theorem feReg_setFeReg_self (s : State) {n : Nat} (v : Fe) (h : n < 32) : feReg (setFeReg s n v) n = v := by
  simp [feReg, setFeReg, h]

theorem feReg_setFeReg_ne (s : State) {n m : Nat} (v : Fe) (h : m ≠ n) : feReg (setFeReg s n v) m = feReg s m := by
  simp [feReg, setFeReg, Vector.getElem?_setIfInBounds_ne (Ne.symm h)]

/-- Everything `setPtReg` does to a register read afterwards. -/
theorem feReg_setPtReg (s : State) {n : Nat} (v : Point) (m : Nat) (h : n < 8) :
    feReg (setPtReg s n v) m =
      if m = 4 * n then v.x else if m = 4 * n + 1 then v.y else if m = 4 * n + 2 then v.z else feReg s m := by
  unfold setPtReg
  by_cases h2 : m = 4 * n + 2
  · subst h2; rw [feReg_setFeReg_self _ _ (by omega)]; simp
  · rw [feReg_setFeReg_ne _ _ h2]
    by_cases h1 : m = 4 * n + 1
    · subst h1; rw [feReg_setFeReg_self _ _ (by omega)]; simp
    · rw [feReg_setFeReg_ne _ _ h1]
      by_cases h0 : m = 4 * n
      · subst h0; rw [feReg_setFeReg_self _ _ (by omega)]; simp
      · rw [feReg_setFeReg_ne _ _ h0]; simp [h0, h1, h2]

theorem ptReg_setPtReg (s : State) {n : Nat} (v : Point) (h : n < 8) : ptReg (setPtReg s n v) n = v := by
  unfold ptReg
  rw [feReg_setPtReg _ _ _ h, feReg_setPtReg _ _ _ h, feReg_setPtReg _ _ _ h]
  simp

/-! ## Reading byte sequences -/

/-- `memRead` byte by byte, as statements spell it. -/
theorem map_bufByte_eq (s : State) (off n : Nat) : (List.range n).map (fun k => bufByte s (off + k)) = memRead s off n := rfl

theorem memRead_take (s : State) (off m n : Nat) : (memRead s off (m + n)).take m = memRead s off m := by
  rw [memRead_append, List.take_left' (by simp)]

theorem memRead_drop (s : State) (off m n : Nat) : (memRead s off (m + n)).drop m = memRead s (off + m) n := by
  rw [memRead_append, List.drop_left' (by simp)]

/-- Two reads agree when their bytes do. -/
theorem memRead_eq_iff (s t : State) (o o' n : Nat) :
    memRead t o' n = memRead s o n ↔ ∀ k < n, bufByte t (o' + k) = bufByte s (o + k) := by
  simp [memRead, List.map_inj_left]

/-- A byte sequence is determined by its length and its little-endian integer. -/
theorem le_inj {as bs : List Byte} (hl : as.length = bs.length) (h : le as = le bs) : as = bs := by
  rw [← leBytes_le as, ← leBytes_le bs, hl, h]

end Sys2Proof.Machine
end

