-- ==== Sys2Proof/Laws/Completion.lean ====
section
/-! SUPPORT. The spec lemma of each shared operation that commands are made of: the completions (60_exceptions.md R297, R299) and the
four ways a command ends, each with its whole frame, so that no proof about a command unfolds them. -/

namespace Sys2Proof.Machine

/-! ## What reads see through the operations that touch no storage -/

@[simp] theorem feReg_completeSuccess (s : State) (n : Nat) : feReg (completeSuccess s) n = feReg s n := rfl
@[simp] theorem feReg_completeError (k : Cause) (s : State) (n : Nat) : feReg (completeError k s) n = feReg s n := rfl
@[simp] theorem feReg_scrubHidden (s : State) (n : Nat) : feReg (scrubHidden s) n = feReg s n := rfl
@[simp] theorem feReg_countDraw (s : State) (n : Nat) : feReg (countDraw s) n = feReg s n := rfl
@[simp] theorem feReg_acceptCommand (s : State) (w : Word) (n : Nat) : feReg (acceptCommand s w) n = feReg s n := rfl
@[simp] theorem feReg_setOverrun (s : State) (n : Nat) : feReg (setOverrun s) n = feReg s n := rfl
@[simp] theorem feReg_memWrite (s : State) (off : Nat) (bs : List Byte) (n : Nat) : feReg (memWrite s off bs) n = feReg s n := rfl
@[simp] theorem bufByte_completeSuccess (s : State) (j : Nat) : bufByte (completeSuccess s) j = bufByte s j := rfl
@[simp] theorem bufByte_completeError (k : Cause) (s : State) (j : Nat) : bufByte (completeError k s) j = bufByte s j := rfl
@[simp] theorem bufByte_scrubHidden (s : State) (j : Nat) : bufByte (scrubHidden s) j = bufByte s j := rfl
@[simp] theorem bufByte_countDraw (s : State) (j : Nat) : bufByte (countDraw s) j = bufByte s j := rfl
@[simp] theorem bufByte_acceptCommand (s : State) (w : Word) (j : Nat) : bufByte (acceptCommand s w) j = bufByte s j := rfl
@[simp] theorem bufByte_setOverrun (s : State) (j : Nat) : bufByte (setOverrun s) j = bufByte s j := rfl
@[simp] theorem bufByte_setFeReg (s : State) (n : Nat) (v : Fe) (j : Nat) : bufByte (setFeReg s n v) j = bufByte s j := rfl
@[simp] theorem bufByte_setPtReg (s : State) (n : Nat) (v : Point) (j : Nat) : bufByte (setPtReg s n v) j = bufByte s j := rfl
@[simp] theorem memRead_scrubHidden (s : State) (off n : Nat) : memRead (scrubHidden s) off n = memRead s off n := rfl
@[simp] theorem feReg_withHost (s : State) (h : List HostOp) (n : Nat) : feReg { s with host := h } n = feReg s n := rfl
@[simp] theorem bufByte_withHost (s : State) (h : List HostOp) (j : Nat) : bufByte { s with host := h } j = bufByte s j := rfl
@[simp] theorem feReg_withResp (s : State) (r : HostResponse) (n : Nat) : feReg { s with resp := r } n = feReg s n := rfl
@[simp] theorem bufByte_withResp (s : State) (r : HostResponse) (j : Nat) : bufByte { s with resp := r } j = bufByte s j := rfl
@[simp] theorem feReg_withStatus (s : State) (c : Status) (n : Nat) : feReg { s with status := c } n = feReg s n := rfl
@[simp] theorem bufByte_withStatus (s : State) (c : Status) (j : Nat) : bufByte { s with status := c } j = bufByte s j := rfl
@[simp] theorem feReg_withIe (s : State) (b : Bool) (n : Nat) : feReg { s with ie := b } n = feReg s n := rfl
@[simp] theorem bufByte_withIe (s : State) (b : Bool) (j : Nat) : bufByte { s with ie := b } j = bufByte s j := rfl

@[simp] theorem readF_scrubHidden (s : State) (v : Field5) : readF (scrubHidden s) v = readF s v := rfl
@[simp] theorem readP_scrubHidden (s : State) (v : Field5) : readP (scrubHidden s) v = readP s v := rfl
@[simp] theorem readS_scrubHidden (s : State) (v : Field5) : readS (scrubHidden s) v = readS s v := rfl
@[simp] theorem readQ_scrubHidden (s : State) (v : Field5) : readQ (scrubHidden s) v = readQ s v := rfl

/-! ## The completions -/

@[simp] theorem finish_ok (s t : State) : finish s (.ok t) = completeSuccess t := rfl
@[simp] theorem finish_error (s : State) (k : Cause) : finish s (.error k) = completeError k s := rfl

/-- A field register named by a 5-bit field exists. -/
theorem field5_lt (v : Field5) : v.toNat < 32 := v.isLt

/-- An error completion writes nothing (60_exceptions.md R297). -/
theorem completeError_spec (k : Cause) (s : State) : WroteNothing k s (completeError k s) ∧ HiddenKept s (completeError k s) :=
  ⟨⟨⟨rfl, rfl, rfl, rfl, rfl, rfl, ⟨rfl, rfl, rfl, rfl, rfl, rfl⟩⟩, fun _ => rfl, fun _ => rfl⟩, ⟨rfl, rfl⟩⟩

/-- The same when the command used the hidden state. -/
theorem completeError_scrub_spec (k : Cause) (s : State) : WroteNothing k s (completeError k (scrubHidden s)) :=
  ⟨⟨rfl, rfl, rfl, rfl, rfl, rfl, ⟨rfl, rfl, rfl, rfl, rfl, rfl⟩⟩, fun _ => rfl, fun _ => rfl⟩

/-! ## How a command ends -/

/-- A command whose result for F[rd] is `v`. -/
theorem finishF_ok (s : State) (rd : Field5) (v : Fe) :
    ∃ t, finishF s rd (.ok v) = .next t ∧ WroteReg rd.toNat s t ∧ HiddenKept s t ∧ feReg t rd.toNat = v :=
  ⟨_, rfl, ⟨⟨rfl, rfl, rfl, rfl, rfl, rfl, ⟨rfl, rfl, rfl, rfl, rfl, rfl⟩⟩, fun _ hm => feReg_setFeReg_ne s v hm, fun _ => rfl⟩,
    ⟨rfl, rfl⟩, feReg_setFeReg_self s v rd.isLt⟩

/-- The same when the command used the hidden state. -/
theorem finishF_scrub_ok (s : State) (rd : Field5) (v : Fe) :
    ∃ t, finishF (scrubHidden s) rd (.ok v) = .next t ∧ WroteReg rd.toNat s t ∧ feReg t rd.toNat = v :=
  ⟨_, rfl, ⟨⟨rfl, rfl, rfl, rfl, rfl, rfl, ⟨rfl, rfl, rfl, rfl, rfl, rfl⟩⟩, fun _ hm => feReg_setFeReg_ne (scrubHidden s) v hm,
    fun _ => rfl⟩, feReg_setFeReg_self (scrubHidden s) v rd.isLt⟩

/-- A field command that ends with its data error. -/
theorem finishF_error (s : State) (rd : Field5) (k : Cause) :
    ∃ t, finishF s rd (.error k) = .next t ∧ WroteNothing k s t ∧ HiddenKept s t :=
  ⟨_, rfl, completeError_spec k s⟩

theorem finishF_of_ok {s : State} {rd : Field5} {r : Except Cause Fe} {v : Fe} (h : r = .ok v) :
    ∃ t, finishF s rd r = .next t ∧ WroteReg rd.toNat s t ∧ HiddenKept s t ∧ feReg t rd.toNat = v := by
  subst h; exact finishF_ok s rd v

theorem finishF_of_error {s : State} {rd : Field5} {r : Except Cause Fe} {k : Cause} (h : r = .error k) :
    ∃ t, finishF s rd r = .next t ∧ WroteNothing k s t ∧ HiddenKept s t := by
  subst h; exact finishF_error s rd k

/-- A point command whose result for Pt[rd] is `P`. -/
theorem finishP_scrub_ok (s : State) (rd : Field5) (P : Point) (h : rd.toNat < 8) :
    ∃ t, finishP (scrubHidden s) rd (.ok P) = .next t ∧ WrotePoint rd.toNat s t ∧ ptReg t rd.toNat = P :=
  ⟨_, rfl, ⟨⟨rfl, rfl, rfl, rfl, rfl, rfl, ⟨rfl, rfl, rfl, rfl, rfl, rfl⟩⟩, fun m h0 h1 h2 => by
      have := feReg_setPtReg (scrubHidden s) P m h
      rw [if_neg h0, if_neg h1, if_neg h2] at this
      exact this, fun _ => rfl⟩, ptReg_setPtReg (scrubHidden s) P h⟩

/-- A point command that ends with its data error. -/
theorem finishP_scrub_error (s : State) (rd : Field5) (k : Cause) :
    ∃ t, finishP (scrubHidden s) rd (.error k) = .next t ∧ WroteNothing k s t :=
  ⟨_, rfl, completeError_scrub_spec k s⟩

/-- A completion that writes bytes to BUF from the start of a slot. -/
theorem completeSuccess_writeSlots (s : State) (rd : Field5) (bs : List Byte) (h : slotBase rd + bs.length ≤ bufSize) :
    WroteBytes (32 * rd.toNat) bs.length s (completeSuccess (writeSlots s rd bs)) ∧
      HiddenKept s (completeSuccess (writeSlots s rd bs)) ∧
      memRead (completeSuccess (writeSlots s rd bs)) (32 * rd.toNat) bs.length = bs :=
  ⟨⟨⟨rfl, rfl, rfl, rfl, rfl, rfl, ⟨rfl, rfl, rfl, rfl, rfl, rfl⟩⟩, fun _ => rfl, fun j hj => by
      have := bufByte_memWrite s (slotBase rd) bs j
      rw [if_neg fun hh => hj ⟨hh.1, hh.2.1⟩] at this
      exact this⟩, ⟨rfl, rfl⟩, memRead_memWrite s (slotBase rd) bs h⟩

/-- The same when the command used the hidden state. -/
theorem completeSuccess_writeSlots_scrub (s : State) (rd : Field5) (bs : List Byte) (h : slotBase rd + bs.length ≤ bufSize) :
    WroteBytes (32 * rd.toNat) bs.length s (completeSuccess (writeSlots (scrubHidden s) rd bs)) ∧
      memRead (completeSuccess (writeSlots (scrubHidden s) rd bs)) (32 * rd.toNat) bs.length = bs :=
  ⟨⟨⟨rfl, rfl, rfl, rfl, rfl, rfl, ⟨rfl, rfl, rfl, rfl, rfl, rfl⟩⟩, fun _ => rfl, fun j hj => by
      have := bufByte_memWrite (scrubHidden s) (slotBase rd) bs j
      rw [if_neg fun hh => hj ⟨hh.1, hh.2.1⟩] at this
      exact this⟩, memRead_memWrite (scrubHidden s) (slotBase rd) bs h⟩

end Sys2Proof.Machine
end

