-- ==== Sys2Proof/Laws/Prime.lean ====
section
/-! SUPPORT. p = 2²⁵⁵ − 19 is prime, so that GF(p) is a field as 00_scope.md R3 says: a chain of Lucas certificates. -/

namespace Sys2Proof.Machine

/-- A Lucas certificate: a base of order n − 1, seen from the prime factors of n − 1. -/
theorem prime_of_certificate (n : Nat) (a : ZMod n) (qs : List Nat) (hq : ∀ q ∈ qs, q.Prime) (hprod : qs.prod = n - 1)
    (h1 : a ^ (n - 1) = 1) (h2 : ∀ q ∈ qs, a ^ ((n - 1) / q) ≠ 1) : n.Prime := by
  apply lucas_primality n a h1
  intro q hqp hqd
  rw [← hprod] at hqd
  obtain ⟨r, hr, hd⟩ := (Prime.dvd_prod_iff hqp.prime).1 hqd
  rw [(Nat.prime_dvd_prime_iff_eq hqp (hq r hr)).1 hd]
  exact h2 r hr

theorem prime_2773320623 : Nat.Prime 2773320623 :=
  prime_of_certificate _ 5 [2, 2437, 569003]
    (by
      intro q hq
      fin_cases hq <;> first | assumption | norm_num)
    (by norm_num) (by norm_num; reduce_mod_char)
    (by intro q hq; fin_cases hq <;> (norm_num; reduce_mod_char; decide))

theorem prime_72106336199 : Nat.Prime 72106336199 :=
  prime_of_certificate _ 7 [2, 13, 2773320623]
    (by
      intro q hq
      have h0 := prime_2773320623
      fin_cases hq <;> first | assumption | norm_num)
    (by norm_num) (by norm_num; reduce_mod_char)
    (by intro q hq; fin_cases hq <;> (norm_num; reduce_mod_char; decide))

theorem prime_1919519569386763 : Nat.Prime 1919519569386763 :=
  prime_of_certificate _ 2 [2, 3, 7, 19, 47, 47, 127, 8574133]
    (by
      intro q hq
      fin_cases hq <;> first | assumption | norm_num)
    (by norm_num) (by norm_num; reduce_mod_char)
    (by intro q hq; fin_cases hq <;> (norm_num; reduce_mod_char; decide))

theorem prime_31757755568855353 : Nat.Prime 31757755568855353 :=
  prime_of_certificate _ 10 [2, 2, 2, 3, 31, 107, 223, 4153, 430751]
    (by
      intro q hq
      fin_cases hq <;> first | assumption | norm_num)
    (by norm_num) (by norm_num; reduce_mod_char)
    (by intro q hq; fin_cases hq <;> (norm_num; reduce_mod_char; decide))

theorem prime_75445702479781427272750846543864801 : Nat.Prime 75445702479781427272750846543864801 :=
  prime_of_certificate _ 7 [2, 2, 2, 2, 2, 3, 3, 5, 5, 75707, 72106336199, 1919519569386763]
    (by
      intro q hq
      have h0 := prime_72106336199
      have h1 := prime_1919519569386763
      fin_cases hq <;> first | assumption | norm_num)
    (by norm_num) (by norm_num; reduce_mod_char)
    (by intro q hq; fin_cases hq <;> (norm_num; reduce_mod_char; decide))

theorem prime_large_factor : Nat.Prime 74058212732561358302231226437062788676166966415465897661863160754340907 :=
  prime_of_certificate _ 2 [2, 3, 353, 57467, 132049, 1923133, 31757755568855353, 75445702479781427272750846543864801]
    (by
      intro q hq
      have h0 := prime_31757755568855353
      have h1 := prime_75445702479781427272750846543864801
      fin_cases hq <;> first | assumption | norm_num)
    (by norm_num) (by norm_num; reduce_mod_char)
    (by intro q hq; fin_cases hq <;> (norm_num; reduce_mod_char; decide))

theorem prime_modulus : Nat.Prime 57896044618658097711785492504343953926634992332820282019728792003956564819949 :=
  prime_of_certificate _ 2 [2, 2, 3, 65147, 74058212732561358302231226437062788676166966415465897661863160754340907]
    (by
      intro q hq
      have h0 := prime_large_factor
      fin_cases hq <;> first | assumption | norm_num)
    (by norm_num) (by norm_num; reduce_mod_char)
    (by intro q hq; fin_cases hq <;> (norm_num; reduce_mod_char; decide))

/-- The field modulus is prime. -/
theorem p_prime : p.Prime := by rw [p_eq]; exact prime_modulus

end Sys2Proof.Machine
end

