-- ==== Sys2Proof/Laws/Curve.lean ====
section
/-! SUPPORT. The operations on values mod p read in the field GF(p) (00_scope.md R13, 41_point_layer.md R203), the inverse, the closed
form of the complete formulas, the curve test (R201) and select on points (R208). -/

namespace Sys2Proof.Machine

/-! ## Values mod p in GF(p) -/

theorem fmul_lt (a b : Nat) : fmul a b < p := Nat.mod_lt _ p_pos
theorem fmulb_lt (a : Nat) : fmulb a < p := Nat.mod_lt _ p_pos
theorem fadd_lt (a b : Nat) : fadd a b < p := Nat.mod_lt _ p_pos
theorem fsub_lt (a b : Nat) : fsub a b < p := Nat.mod_lt _ p_pos

@[simp] theorem cast_fmul (a b : Nat) : ((fmul a b : Nat) : ZMod p) = a * b := by simp [fmul]
@[simp] theorem cast_fmulb (a : Nat) : ((fmulb a : Nat) : ZMod p) = 13318 * a := by simp [fmulb, curveB]
@[simp] theorem cast_fadd (a b : Nat) : ((fadd a b : Nat) : ZMod p) = a + b := by simp [fadd]

@[simp] theorem cast_fsub (a b : Nat) : ((fsub a b : Nat) : ZMod p) = a - b := by
  have h : b % p ≤ p := le_of_lt (Nat.mod_lt _ p_pos)
  simp [fsub, Nat.cast_sub h, sub_eq_add_neg]

/-- Two values below p are equal exactly when they are equal in GF(p). -/
theorem cast_inj {a b : Nat} (ha : a < p) (hb : b < p) : ((a : ZMod p) = b) ↔ a = b := by
  rw [ZMod.natCast_eq_natCast_iff]
  constructor
  · intro h; rwa [Nat.ModEq, Nat.mod_eq_of_lt ha, Nat.mod_eq_of_lt hb] at h
  · rintro rfl; rfl

theorem cast_eq_iff_mod (a b : Nat) : ((a : ZMod p) = b) ↔ a % p = b % p := by rw [ZMod.natCast_eq_natCast_iff, Nat.ModEq]

theorem cast_eq_zero_iff (a : Nat) : ((a : ZMod p) = 0) ↔ a % p = 0 := by
  rw [ZMod.natCast_eq_zero_iff]; exact Nat.dvd_iff_mod_eq_zero

@[simp] theorem cast_mod (a : Nat) : ((a % p : Nat) : ZMod p) = a := ZMod.natCast_mod a p

theorem cast_canon (x : Fe) : ((canon x : Nat) : ZMod p) = val x := cast_mod _

/-! ## The inverse -/

theorem cast_powLoop (n b e acc : Nat) : ((powLoop n b e acc : Nat) : ZMod p) = acc * (b : ZMod p) ^ (e % 2 ^ n) := by
  induction n generalizing b e acc with
  | zero => simp [powLoop, Nat.mod_one]
  | succ n ih =>
    have he : e % 2 ^ (n + 1) = e % 2 + 2 * (e / 2 % 2 ^ n) := by rw [pow_succ', Nat.mod_mul]
    rw [powLoop, ih, he, pow_add, pow_mul]
    rcases Nat.mod_two_eq_zero_or_one e with h | h
    · simp [h, pow_two]
    · simp [h, pow_two, mul_assoc]

theorem cast_invp_pow (x : Nat) : ((invp x : Nat) : ZMod p) = (x : ZMod p) ^ (p - 2) := by
  have h : (p - 2) % 2 ^ 255 = p - 2 := by decide
  rw [invp, cast_powLoop, h]; simp

/-- `inv_p` is the inverse of the field, with 0 for 0 (00_scope.md R13). -/
theorem cast_invp [Fact p.Prime] (x : Nat) : ((invp x : Nat) : ZMod p) = (x : ZMod p)⁻¹ := by
  rw [cast_invp_pow]
  by_cases h : (x : ZMod p) = 0
  · rw [h, inv_zero]; exact zero_pow (by decide)
  · apply eq_inv_of_mul_eq_one_left
    have h2 : p - 2 + 1 = p - 1 := by decide
    rw [← pow_succ, h2]
    exact ZMod.pow_card_sub_one_eq_one h

theorem powLoop_lt {n b e acc : Nat} (h : acc < p) : powLoop n b e acc < p := by
  induction n generalizing b e acc with
  | zero => exact h
  | succ n ih =>
    rw [powLoop]; apply ih
    split
    · exact fmul_lt _ _
    · exact h

theorem invp_lt (x : Nat) : invp x < p := powLoop_lt (by decide)

theorem invp_zero : invp 0 = 0 := by
  have h := cast_invp_pow 0
  rw [Nat.cast_zero, zero_pow (by decide)] at h
  exact (cast_inj (invp_lt 0) p_pos).1 (by rw [h, Nat.cast_zero])

/-- The inverse depends on the residue alone. -/
theorem invp_mod (x : Nat) : invp (x % p) = invp x := by rw [invp, invp, Nat.mod_mod]

/-! ## The complete formulas in closed form -/

/-- X3 of the addition (41_point_layer.md R203). -/
theorem padd_X (S T : Triple) : ((padd S T).X : ZMod p) =
    (S.X * T.Y + T.X * S.Y) * (S.Y * T.Y + 3 * (S.X * T.Z + T.X * S.Z - 13318 * (S.Z * T.Z)))
      - (S.Y * T.Z + T.Y * S.Z) * (3 * (13318 * (S.X * T.Z + T.X * S.Z) - S.X * T.X - 3 * (S.Z * T.Z))) := by
  simp only [padd, cast_fmul, cast_fmulb, cast_fadd, cast_fsub]; ring

/-- Y3 of the addition. -/
theorem padd_Y (S T : Triple) : ((padd S T).Y : ZMod p) =
    (S.Y * T.Y + 3 * (S.X * T.Z + T.X * S.Z - 13318 * (S.Z * T.Z))) *
        (S.Y * T.Y - 3 * (S.X * T.Z + T.X * S.Z - 13318 * (S.Z * T.Z)))
      + (3 * (S.X * T.X) - 3 * (S.Z * T.Z)) * (3 * (13318 * (S.X * T.Z + T.X * S.Z) - S.X * T.X - 3 * (S.Z * T.Z))) := by
  simp only [padd, cast_fmul, cast_fmulb, cast_fadd, cast_fsub]; ring

/-- Z3 of the addition. -/
theorem padd_Z (S T : Triple) : ((padd S T).Z : ZMod p) =
    (S.Y * T.Z + T.Y * S.Z) * (S.Y * T.Y - 3 * (S.X * T.Z + T.X * S.Z - 13318 * (S.Z * T.Z)))
      + (S.X * T.Y + T.X * S.Y) * (3 * (S.X * T.X) - 3 * (S.Z * T.Z)) := by
  simp only [padd, cast_fmul, cast_fmulb, cast_fadd, cast_fsub]; ring

/-- X3 of the doubling (41_point_layer.md R204). -/
theorem pdbl_X (S : Triple) : ((pdbl S).X : ZMod p) =
    2 * (S.X * S.Y) * (S.Y ^ 2 + 3 * (2 * (S.X * S.Z) - 13318 * S.Z ^ 2))
      - 2 * (S.Y * S.Z) * (3 * (13318 * (2 * (S.X * S.Z)) - S.X ^ 2 - 3 * S.Z ^ 2)) := by
  simp only [pdbl, cast_fmul, cast_fmulb, cast_fadd, cast_fsub]; ring

/-- Y3 of the doubling. -/
theorem pdbl_Y (S : Triple) : ((pdbl S).Y : ZMod p) =
    (S.Y ^ 2 + 3 * (2 * (S.X * S.Z) - 13318 * S.Z ^ 2)) * (S.Y ^ 2 - 3 * (2 * (S.X * S.Z) - 13318 * S.Z ^ 2))
      + (3 * S.X ^ 2 - 3 * S.Z ^ 2) * (3 * (13318 * (2 * (S.X * S.Z)) - S.X ^ 2 - 3 * S.Z ^ 2)) := by
  simp only [pdbl, cast_fmul, cast_fmulb, cast_fadd, cast_fsub]; ring

/-- Z3 of the doubling. -/
theorem pdbl_Z (S : Triple) : ((pdbl S).Z : ZMod p) = 8 * S.Y ^ 3 * S.Z := by
  simp only [pdbl, cast_fmul, cast_fadd]; ring

theorem padd_lt (S T : Triple) : (padd S T).X < p ∧ (padd S T).Y < p ∧ (padd S T).Z < p :=
  ⟨fsub_lt _ _, fadd_lt _ _, fadd_lt _ _⟩

theorem pdbl_lt (S : Triple) : (pdbl S).X < p ∧ (pdbl S).Y < p ∧ (pdbl S).Z < p :=
  ⟨fsub_lt _ _, fadd_lt _ _, fadd_lt _ _⟩

/-- Two triples of values below p are equal when they are equal in GF(p). -/
theorem triple_ext {S T : Triple} (hS : S.X < p ∧ S.Y < p ∧ S.Z < p) (hT : T.X < p ∧ T.Y < p ∧ T.Z < p)
    (hX : (S.X : ZMod p) = T.X) (hY : (S.Y : ZMod p) = T.Y) (hZ : (S.Z : ZMod p) = T.Z) : S = T := by
  cases S; cases T
  simp only [Triple.mk.injEq]
  exact ⟨(cast_inj hS.1 hT.1).1 hX, (cast_inj hS.2.1 hT.2.1).1 hY, (cast_inj hS.2.2 hT.2.2).1 hZ⟩

theorem residues_ofTriple {T : Triple} (h : T.X < p ∧ T.Y < p ∧ T.Z < p) : residues (ofTriple T) = T := by
  have e (v : Nat) (hv : v < p) : canon (limbs (v % p)) = v := by
    rw [Nat.mod_eq_of_lt hv, canon, val_limbs (lt_trans hv p_lt), Nat.mod_eq_of_lt hv]
  simp [residues, ofTriple, e _ h.1, e _ h.2.1, e _ h.2.2]

@[simp] theorem residues_addPoints (P Q : Point) : residues (addPoints P Q) = padd (residues P) (residues Q) :=
  residues_ofTriple (padd_lt _ _)

@[simp] theorem residues_dblPoint (P : Point) : residues (dblPoint P) = pdbl (residues P) := residues_ofTriple (pdbl_lt _)

theorem residues_identityPoint : residues identityPoint = ⟨0, 1, 0⟩ := by decide

theorem residues_negPoint (P : Point) : residues (negPoint P) = ⟨(residues P).X, fsub 0 (residues P).Y, (residues P).Z⟩ := by
  simp only [residues, negPoint, Triple.mk.injEq, true_and, and_true]
  rw [canon, val_limbs (lt_trans (fsub_lt _ _) p_lt), Nat.mod_eq_of_lt (fsub_lt _ _)]

/-! ## The curve test -/

/-- The curve test in GF(p) (41_point_layer.md R201). -/
theorem onCurve_iff (x y : Nat) : onCurve x y = true ↔ (y : ZMod p) ^ 2 = (x : ZMod p) ^ 3 - 3 * (x : ZMod p) + 13318 := by
  rw [onCurve, decide_eq_true_eq, ← Int.dvd_iff_emod_eq_zero, ← ZMod.intCast_zmod_eq_zero_iff_dvd]
  simp only [Int.cast_sub, Int.cast_pow, Int.cast_natCast, Int.cast_add, Int.cast_mul, Int.cast_ofNat, curveB, Nat.cast_ofNat]
  exact sub_eq_zero

/-! ## Select on points -/

@[simp] theorem selectPoint_true (P Q : Point) : selectPoint true P Q = P := by simp [selectPoint]
@[simp] theorem selectPoint_false (P Q : Point) : selectPoint false P Q = Q := by simp [selectPoint]

/-- The three ways decoding ends (41_point_layer.md R210): the identity encoding, a point of the curve, and INVALID_POINT. -/
theorem decodePoint_cases (bytes : List Byte) :
    let x := decodeValue (bytes.take 32)
    let y := decodeValue (bytes.drop 32)
    (x = 0 ∧ y = 0 ∧ decodePoint bytes = .ok identityPoint) ∨
    (¬ (x = 0 ∧ y = 0) ∧ (y : ZMod p) ^ 2 = (x : ZMod p) ^ 3 - 3 * (x : ZMod p) + 13318 ∧
      decodePoint bytes = .ok ⟨limbs x, limbs y, oneFe⟩) ∨
    (¬ (x = 0 ∧ y = 0) ∧ ¬ ((y : ZMod p) ^ 2 = (x : ZMod p) ^ 3 - 3 * (x : ZMod p) + 13318) ∧
      decodePoint bytes = .error .invalidPoint) := by
  intro x y
  have ho := onCurve_iff (x % p) (y % p)
  simp only [cast_mod] at ho
  have e : decodePoint bytes = if !(decide (x = 0) && decide (y = 0)) && !onCurve (x % p) (y % p) then .error .invalidPoint
      else .ok (selectPoint (decide (x = 0) && decide (y = 0)) identityPoint ⟨limbs x, limbs y, oneFe⟩) := rfl
  by_cases h : x = 0 ∧ y = 0
  · left
    rw [e]; simp [h.1, h.2, selectPoint_true]
  · right
    have hi : (decide (x = 0) && decide (y = 0)) = false := by simpa using h
    by_cases hc : onCurve (x % p) (y % p) = true
    · left; exact ⟨h, ho.1 hc, by rw [e, hi, hc]; simp [selectPoint_false]⟩
    · right; exact ⟨h, fun g => hc (ho.2 g), by simp only [Bool.not_eq_true] at hc; rw [e, hi, hc]; rfl⟩

end Sys2Proof.Machine
end

