-- ==== Sys2Proof/Laws/Commands.lean ====
section
/-! SUPPORT. Everything a command can do, said once (60_exceptions.md R290): it completes with success and writes one destination of
its kind, or it ends with its one data error and writes nothing. -/

namespace Sys2Proof.Machine

/-- The state a command's completion starts from: the state before it, the hidden state left unspecified if the command used it. -/
def startsFrom (s u : State) : Prop := u = s ∨ u = scrubHidden s

/-- A success that writes F[rd]. -/
def endsInReg (i : Instr) (s u : State) : Prop :=
  ∃ v, exec i s = .next (completeSuccess (setFeReg u i.rd.toNat v)) ∧ (∀ n, destRegs i n ↔ n = i.rd.toNat) ∧ ∀ j, ¬ destBytes i j

/-- A success that writes Pt[rd]. -/
def endsInPoint (i : Instr) (s u : State) : Prop :=
  ∃ P, exec i s = .next (completeSuccess (setPtReg u i.rd.toNat P)) ∧
    (∀ n, destRegs i n ↔ n = 4 * i.rd.toNat ∨ n = 4 * i.rd.toNat + 1 ∨ n = 4 * i.rd.toNat + 2) ∧ (∀ j, ¬ destBytes i j) ∧
    (i.wf = true → i.rd.toNat < 8)

/-- A success that writes bytes from the start of slot rd. -/
def endsInBytes (i : Instr) (s u : State) : Prop :=
  ∃ bs, exec i s = .next (completeSuccess (memWrite u (32 * i.rd.toNat) bs)) ∧ (∀ n, ¬ destRegs i n) ∧
    ∀ j, destBytes i j ↔ 32 * i.rd.toNat ≤ j ∧ j < 32 * i.rd.toNat + bs.length

/-- An error completion with the command's data error. -/
def endsInError (i : Instr) (s u : State) : Prop := ∃ k, exec i s = .next (completeError k u) ∧ dataError i = some k

/-- A field command ends in its register or in its data error. -/
theorem finishF_cases (s : State) (rd : Field5) (r : Except Cause Fe) :
    (∃ v, r = .ok v ∧ finishF s rd r = .next (completeSuccess (setFeReg s rd.toNat v))) ∨
      (∃ k, r = .error k ∧ finishF s rd r = .next (completeError k s)) := by
  cases r with
  | ok v => exact .inl ⟨v, rfl, rfl⟩
  | error k => exact .inr ⟨k, rfl, rfl⟩

/-- A point command ends in its point register or in its data error. -/
theorem finishP_cases (s : State) (rd : Field5) (r : Except Cause Point) :
    (∃ P, r = .ok P ∧ finishP s rd r = .next (completeSuccess (setPtReg s rd.toNat P))) ∨
      (∃ k, r = .error k ∧ finishP s rd r = .next (completeError k s)) := by
  cases r with
  | ok v => exact .inl ⟨v, rfl, rfl⟩
  | error k => exact .inr ⟨k, rfl, rfl⟩

theorem chk63_error_cause {r : Nat → Nat} {k : Cause} (h : chk63 r = .error k) : k = .limbOverflow := by
  unfold chk63 at h; split at h <;> cases h; rfl

theorem subFe_error_cause {x y : Fe} {k : Cause} (h : subFe x y = .error k) : k = .limbUnderflow := by
  unfold subFe at h; split at h <;> cases h; rfl

theorem mulFe_error_cause {x y : Fe} {k : Cause} (h : mulFe x y = .error k) : k = .limbOverflow := by
  unfold mulFe at h; split at h <;> cases h; rfl

theorem mulbFe_error_cause {x : Fe} {k : Cause} (h : mulbFe x = .error k) : k = .limbOverflow := by
  unfold mulbFe at h; split at h <;> cases h; rfl

theorem decodePoint_error_cause {bs : List Byte} {k : Cause} (h : decodePoint bs = .error k) : k = .invalidPoint := by
  unfold decodePoint at h
  dsimp only at h
  split at h <;> cases h; rfl

theorem slot_lt {v : Field5} (h : Kind.slot.legal v = true) : v.toNat < 8 := by
  have := of_decide_eq_true h; omega

theorem preg_lt {v : Field5} (h : Kind.preg.legal v = true) : v.toNat < 8 := by
  have := of_decide_eq_true h; omega

theorem pslot_lt {v : Field5} (h : Kind.pslot.legal v = true) : v.toNat < 7 := by
  have := of_decide_eq_true h; omega

theorem encodeFe_length (x : Fe) : (encodeFe x).length = 32 := leBytes_length _ _

theorem encodePoint_length (P : Point) : (encodePoint P).length = 64 := by
  rw [encodePoint, List.length_append, leBytes_length, leBytes_length]

/-- A field command without use of the hidden state. -/
theorem cases_reg {i : Instr} {s : State} {r : Except Cause Fe} (he : exec i s = finishF s i.rd r)
    (hd : ∀ n, destRegs i n ↔ n = i.rd.toNat) (hb : ∀ j, ¬ destBytes i j) (hk : ∀ k, r = .error k → dataError i = some k) :
    endsInReg i s s ∨ endsInError i s s := by
  rcases finishF_cases s i.rd r with ⟨v, _, e⟩ | ⟨k, hr, e⟩
  · exact .inl ⟨v, he.trans e, hd, hb⟩
  · exact .inr ⟨k, he.trans e, hk k hr⟩

/-- Every command ends in one of four ways. -/
theorem exec_cases (i : Instr) (s : State) :
    ∃ u, startsFrom s u ∧ (endsInReg i s u ∨ endsInPoint i s u ∨ endsInBytes i s u ∨ endsInError i s u) := by
  have reg {r : Except Cause Fe} (he : exec i s = finishF s i.rd r) (hd : ∀ n, destRegs i n ↔ n = i.rd.toNat)
      (hb : ∀ j, ¬ destBytes i j) (hk : ∀ k, r = .error k → dataError i = some k) :
      ∃ u, startsFrom s u ∧ (endsInReg i s u ∨ endsInPoint i s u ∨ endsInBytes i s u ∨ endsInError i s u) :=
    ⟨s, .inl rfl, (cases_reg he hd hb hk).imp id fun h => .inr (.inr h)⟩
  cases i with
  | feZero d => exact reg rfl (fun _ => Iff.rfl) (fun _ h => h) (fun _ h => nomatch h)
  | feOne d => exact reg rfl (fun _ => Iff.rfl) (fun _ h => h) (fun _ h => nomatch h)
  | feCopy d a => exact reg rfl (fun _ => Iff.rfl) (fun _ h => h) (fun _ h => nomatch h)
  | feAdd d a b => exact reg rfl (fun _ => Iff.rfl) (fun _ h => h) (fun _ h => congrArg some (chk63_error_cause h).symm)
  | feSub d a b => exact reg rfl (fun _ => Iff.rfl) (fun _ h => h) (fun _ h => congrArg some (subFe_error_cause h).symm)
  | feAdd2p d a => exact reg rfl (fun _ => Iff.rfl) (fun _ h => h) (fun _ h => congrArg some (chk63_error_cause h).symm)
  | feAdd4p d a => exact reg rfl (fun _ => Iff.rfl) (fun _ h => h) (fun _ h => congrArg some (chk63_error_cause h).symm)
  | feMul d a b => exact reg rfl (fun _ => Iff.rfl) (fun _ h => h) (fun _ h => congrArg some (mulFe_error_cause h).symm)
  | feSqr d a => exact reg rfl (fun _ => Iff.rfl) (fun _ h => h) (fun _ h => congrArg some (mulFe_error_cause h).symm)
  | feCarry d a => exact reg rfl (fun _ => Iff.rfl) (fun _ h => h) (fun _ h => nomatch h)
  | feReduce d a => exact reg rfl (fun _ => Iff.rfl) (fun _ h => h) (fun _ h => nomatch h)
  | feInv d a => exact ⟨_, .inr rfl, .inl ⟨_, rfl, fun _ => Iff.rfl, fun _ h => h⟩⟩
  | feAddb d a => exact reg rfl (fun _ => Iff.rfl) (fun _ h => h) (fun _ h => congrArg some (chk63_error_cause h).symm)
  | feMulb d a => exact reg rfl (fun _ => Iff.rfl) (fun _ h => h) (fun _ h => congrArg some (mulbFe_error_cause h).symm)
  | feFrombytes d a => exact reg rfl (fun _ => Iff.rfl) (fun _ h => h) (fun _ h => nomatch h)
  | feTobytes d a =>
    exact ⟨s, .inl rfl, .inr (.inr (.inl ⟨_, rfl, fun _ h => h, fun j => by rw [encodeFe_length]; exact Iff.rfl⟩))⟩
  | ptFrombytes d a =>
    rcases finishP_cases (scrubHidden s) d (decodePoint (readQ s a)) with ⟨P, _, e⟩ | ⟨k, hr, e⟩
    · exact ⟨_, .inr rfl, .inr (.inl ⟨P, e, fun _ => Iff.rfl, fun _ h => h, fun hw =>
        preg_lt (Bool.and_eq_true_iff.1 hw).1⟩)⟩
    · exact ⟨_, .inr rfl, .inr (.inr (.inr ⟨k, e, congrArg some (decodePoint_error_cause hr).symm⟩))⟩
  | ptTobytes d a =>
    exact ⟨_, .inr rfl, .inr (.inr (.inl ⟨_, rfl, fun _ h => h, fun j => by rw [encodePoint_length]; exact Iff.rfl⟩))⟩
  | ptAdd d a b =>
    exact ⟨_, .inr rfl, .inr (.inl ⟨_, rfl, fun _ => Iff.rfl, fun _ h => h, fun hw =>
      preg_lt (Bool.and_eq_true_iff.1 (Bool.and_eq_true_iff.1 hw).1).1⟩)⟩
  | ptDbl d a =>
    exact ⟨_, .inr rfl, .inr (.inl ⟨_, rfl, fun _ => Iff.rfl, fun _ h => h, fun hw => preg_lt (Bool.and_eq_true_iff.1 hw).1⟩)⟩
  | scalarmult d a b =>
    have e : exec (.scalarmult d a b) s = .next (finish (scrubHidden s)
      ((ladderResult (readS s a) (readQ s b) s.hidden).map (writeSlots (scrubHidden s) d))) := rfl
    rcases h : decodePoint (readQ s b) with k | Q
    · refine ⟨_, .inr rfl, .inr (.inr (.inr ⟨k, ?_, congrArg some (decodePoint_error_cause h).symm⟩))⟩
      rw [e, ladderResult, h]; rfl
    · refine ⟨_, .inr rfl, .inr (.inr (.inl ⟨encodePoint (runLadder (le (readS s a)) Q s.hidden).acc, ?_, fun _ h => h,
        fun j => ?_⟩))⟩
      · rw [e, ladderResult, h]; rfl
      · rw [encodePoint_length]; exact Iff.rfl

/-- No command has NONE for its data error. -/
theorem dataError_ne_none (i : Instr) : dataError i ≠ some .none := by cases i <;> simp [dataError]

end Sys2Proof.Machine
end

