-- ==== Sys2Proof/Laws/Decode.lean ====
section
/-! SUPPORT. The fields of a packed word (30_encoding.md R111), a word put together again from its fields, and the rows of the opcode
map one by one. -/

namespace Sys2Proof

theorem packWord_toNat {op rd ra rb : Nat} (h0 : op < 64) (h1 : rd < 32) (h2 : ra < 32) (h3 : rb < 32) :
    (packWord op rd ra rb).toNat = op * 67108864 + rd * 2097152 + ra * 65536 + rb * 2048 := by
  rw [packWord, BitVec.toNat_ofNat]
  simp only [Nat.reducePow]
  omega

theorem opField_packWord {op rd ra rb : Nat} (h0 : op < 64) (h1 : rd < 32) (h2 : ra < 32) (h3 : rb < 32) :
    opField (packWord op rd ra rb) = BitVec.ofNat 6 op := by
  apply BitVec.eq_of_toNat_eq
  rw [opField, BitVec.extractLsb'_toNat, packWord_toNat h0 h1 h2 h3, BitVec.toNat_ofNat, Nat.shiftRight_eq_div_pow]
  simp only [Nat.reducePow]
  omega

theorem rdField_packWord {op rd ra rb : Nat} (h0 : op < 64) (h1 : rd < 32) (h2 : ra < 32) (h3 : rb < 32) :
    rdField (packWord op rd ra rb) = BitVec.ofNat 5 rd := by
  apply BitVec.eq_of_toNat_eq
  rw [rdField, BitVec.extractLsb'_toNat, packWord_toNat h0 h1 h2 h3, BitVec.toNat_ofNat, Nat.shiftRight_eq_div_pow]
  simp only [Nat.reducePow]
  omega

theorem raField_packWord {op rd ra rb : Nat} (h0 : op < 64) (h1 : rd < 32) (h2 : ra < 32) (h3 : rb < 32) :
    raField (packWord op rd ra rb) = BitVec.ofNat 5 ra := by
  apply BitVec.eq_of_toNat_eq
  rw [raField, BitVec.extractLsb'_toNat, packWord_toNat h0 h1 h2 h3, BitVec.toNat_ofNat, Nat.shiftRight_eq_div_pow]
  simp only [Nat.reducePow]
  omega

theorem rbField_packWord {op rd ra rb : Nat} (h0 : op < 64) (h1 : rd < 32) (h2 : ra < 32) (h3 : rb < 32) :
    rbField (packWord op rd ra rb) = BitVec.ofNat 5 rb := by
  apply BitVec.eq_of_toNat_eq
  rw [rbField, BitVec.extractLsb'_toNat, packWord_toNat h0 h1 h2 h3, BitVec.toNat_ofNat, Nat.shiftRight_eq_div_pow]
  simp only [Nat.reducePow]
  omega

theorem zField_packWord {op rd ra rb : Nat} (h0 : op < 64) (h1 : rd < 32) (h2 : ra < 32) (h3 : rb < 32) :
    zField (packWord op rd ra rb) = 0 := by
  apply BitVec.eq_of_toNat_eq
  rw [zField, BitVec.extractLsb'_toNat, packWord_toNat h0 h1 h2 h3, Nat.shiftRight_zero]
  simp only [Nat.reducePow, BitVec.ofNat_eq_ofNat, BitVec.toNat_ofNat, Nat.zero_mod]
  omega

/-- A word whose reserved field is 0 is the packed word of its other fields. -/
theorem packWord_fields {w : Word} (h : zField w = 0) :
    packWord (opField w).toNat (rdField w).toNat (raField w).toNat (rbField w).toNat = w := by
  have hz := congrArg BitVec.toNat h
  have hw := w.isLt
  apply BitVec.eq_of_toNat_eq
  simp only [zField, BitVec.extractLsb'_toNat, Nat.shiftRight_eq_div_pow, Nat.reducePow, Nat.div_one, BitVec.ofNat_eq_ofNat,
    BitVec.toNat_ofNat, Nat.zero_mod] at hz
  simp only [packWord, opField, rdField, raField, rbField, BitVec.extractLsb'_toNat, BitVec.toNat_ofNat,
    Nat.shiftRight_eq_div_pow, Nat.reducePow]
  omega

theorem opcode_lt (i : Instr) : i.opcode < 64 := by cases i <;> simp [Instr.opcode]

/-- The fields of a command's word. -/
theorem encode_fields (i : Instr) :
    opField (encode i) = BitVec.ofNat 6 i.opcode ∧ rdField (encode i) = i.rd ∧ raField (encode i) = i.ra ∧
      rbField (encode i) = i.rb ∧ zField (encode i) = 0 := by
  have h0 := opcode_lt i
  have h1 := i.rd.isLt
  have h2 := i.ra.isLt
  have h3 := i.rb.isLt
  refine ⟨opField_packWord h0 h1 h2 h3, ?_, ?_, ?_, zField_packWord h0 h1 h2 h3⟩
  · rw [encode, rdField_packWord h0 h1 h2 h3]; simp
  · rw [encode, raField_packWord h0 h1 h2 h3]; simp
  · rw [encode, rbField_packWord h0 h1 h2 h3]; simp

/-! ## The decoder, case by case (30_encoding.md R113) -/

theorem decode_of_noRow {w : Word} (h : opRow (opField w) = none) : decode w = .error .illegalOpcode := by
  unfold decode; rw [h]

theorem decode_of_row {w : Word} {r : OpRow} (h : opRow (opField w) = some r) :
    decode w =
      if zField w ≠ 0 then .error .illegalOperand
      else if r.kd.legal (rdField w) && r.ka.legal (raField w) && r.kb.legal (rbField w) then
        .ok (r.make (rdField w) (raField w) (rbField w))
      else .error .illegalOperand := by
  unfold decode; rw [h]

/-- The decoder has two errors. -/
theorem decode_error_cases {w : Word} {k : Cause} (h : decode w = .error k) : k = .illegalOpcode ∨ k = .illegalOperand := by
  rcases hr : opRow (opField w) with _ | r
  · rw [decode_of_noRow hr] at h; exact .inl (by cases h; rfl)
  · rw [decode_of_row hr] at h
    split at h
    · exact .inr (by cases h; rfl)
    · split at h
      · cases h
      · exact .inr (by cases h; rfl)

/-- What a decoded word must have been. -/
theorem decode_ok_cases {w : Word} {i : Instr} (h : decode w = .ok i) :
    ∃ r, opRow (opField w) = some r ∧ zField w = 0 ∧ r.kd.legal (rdField w) = true ∧ r.ka.legal (raField w) = true ∧
      r.kb.legal (rbField w) = true ∧ i = r.make (rdField w) (raField w) (rbField w) := by
  rcases hr : opRow (opField w) with _ | r
  · rw [decode_of_noRow hr] at h; cases h
  · rw [decode_of_row hr] at h
    split at h
    · cases h
    · rename_i hz
      split at h
      · rename_i hl
        simp only [Bool.and_eq_true] at hl
        exact ⟨r, rfl, by simpa using hz, hl.1.1, hl.1.2, hl.2, by cases h; rfl⟩
      · cases h

end Sys2Proof
end

