-- ==== Sys2Proof/Laws/Torsion.lean ====
section
/-! SUPPORT. No point of the curve has y = 0: x³ − 3x + 13318 has no root mod p. A root x would satisfy xᵖ = x; but xᵖ, reduced by
x³ = 3x − 13318 with 255 squarings, is a quadratic in x, and a multiple of it less x is 1. This is what makes the complete formulas
complete (41_point_layer.md R206, 93_implementation_defined.md I3). -/

namespace Sys2Proof.Machine

/-- A quadratic c0 + c1·x + c2·x² with coefficients mod p. -/
structure Quadratic where
  c0 : Nat
  c1 : Nat
  c2 : Nat
  deriving DecidableEq

/-- The value of a quadratic in GF(p). -/
def Quadratic.eval (a : Quadratic) (x : ZMod p) : ZMod p := a.c0 + a.c1 * x + a.c2 * x ^ 2

/-- The product of two quadratics, reduced by x³ = 3x − 13318. -/
def Quadratic.mul (a c : Quadratic) : Quadratic :=
  let d0 := a.c0 * c.c0
  let d1 := a.c0 * c.c1 + a.c1 * c.c0
  let d2 := a.c0 * c.c2 + a.c1 * c.c1 + a.c2 * c.c0
  let d3 := a.c1 * c.c2 + a.c2 * c.c1
  let d4 := a.c2 * c.c2
  ⟨(d0 + (p - 13318) * d3) % p, (d1 + 3 * d3 + (p - 13318) * d4) % p, (d2 + 3 * d4) % p⟩

/-- Square and multiply over the `n` low bits of `e`. -/
def Quadratic.powLoop : (n : Nat) → (b : Quadratic) → (e : Nat) → (acc : Quadratic) → Quadratic
  | 0, _, _, acc => acc
  | n + 1, b, e, acc => Quadratic.powLoop n (b.mul b) (e / 2) (if e % 2 = 1 then acc.mul b else acc)

theorem cast_p_sub : ((p - 13318 : Nat) : ZMod p) = -13318 := by
  rw [Nat.cast_sub (by decide), ZMod.natCast_self]; simp

theorem Quadratic.eval_mul {x : ZMod p} (hx : x ^ 3 = 3 * x - 13318) (a c : Quadratic) :
    (a.mul c).eval x = a.eval x * c.eval x := by
  have hx4 : x ^ 4 = 3 * x ^ 2 - 13318 * x := by rw [pow_succ, hx]; ring
  simp only [Quadratic.eval, Quadratic.mul, cast_mod, Nat.cast_add, Nat.cast_mul, cast_p_sub, Nat.cast_ofNat]
  linear_combination -((a.c1 : ZMod p) * c.c2 + a.c2 * c.c1) * hx - (a.c2 : ZMod p) * c.c2 * hx4

theorem Quadratic.eval_powLoop {x : ZMod p} (hx : x ^ 3 = 3 * x - 13318) (n : Nat) (b : Quadratic) (e : Nat) (acc : Quadratic) :
    (Quadratic.powLoop n b e acc).eval x = acc.eval x * b.eval x ^ (e % 2 ^ n) := by
  induction n generalizing b e acc with
  | zero => simp [Quadratic.powLoop, Nat.mod_one]
  | succ n ih =>
    have he : e % 2 ^ (n + 1) = e % 2 + 2 * (e / 2 % 2 ^ n) := by rw [pow_succ', Nat.mod_mul]
    rw [Quadratic.powLoop, ih, Quadratic.eval_mul hx, he, pow_add, pow_mul]
    rcases Nat.mod_two_eq_zero_or_one e with h | h
    · simp [h, pow_two]
    · simp [h, pow_two, Quadratic.eval_mul hx]; ring

/-- The multiplier that shows xᵖ − x to be invertible where x³ − 3x + 13318 = 0. -/
def torsionWitness : Quadratic :=
  ⟨57369523962510981709206719049399401114952430096664081479665786487296419844910,
   54818158172421576298133968372294682003686049820626013967643695876999877937089,
   14382616076686551661873642100651104240468937200618558714616579378177174097350⟩

/-- xᵖ reduced, as computed. -/
def xPowP : Quadratic := Quadratic.powLoop 255 ⟨0, 1, 0⟩ p ⟨1, 0, 0⟩

theorem torsionWitness_mul : torsionWitness.mul ⟨xPowP.c0, xPowP.c1 + (p - 1), xPowP.c2⟩ = ⟨1, 0, 0⟩ := by decide +kernel

/-- The cubic of the curve has no root, so no point of the curve has order 2. -/
theorem cubic_ne_zero (x : ZMod p) : x ^ 3 - 3 * x + 13318 ≠ 0 := by
  intro h
  have : Fact p.Prime := ⟨p_prime⟩
  have hx : x ^ 3 = 3 * x - 13318 := by linear_combination h
  have hpow : xPowP.eval x = x := by
    rw [xPowP, Quadratic.eval_powLoop hx, show p % 2 ^ 255 = p by decide]
    simp [Quadratic.eval, ZMod.pow_card]
  have h1 := Quadratic.eval_mul hx torsionWitness ⟨xPowP.c0, xPowP.c1 + (p - 1), xPowP.c2⟩
  have h2 : (⟨xPowP.c0, xPowP.c1 + (p - 1), xPowP.c2⟩ : Quadratic).eval x = xPowP.eval x - x := by
    have hp : ((p - 1 : Nat) : ZMod p) = -1 := by rw [Nat.cast_sub (by decide), ZMod.natCast_self]; simp
    simp only [Quadratic.eval, Nat.cast_add, hp]; ring
  rw [torsionWitness_mul, h2, hpow, sub_self, mul_zero] at h1
  simp [Quadratic.eval] at h1

/-- A point of the curve has y ≠ 0. -/
theorem curve_y_ne_zero {x y : ZMod p} (h : y ^ 2 = x ^ 3 - 3 * x + 13318) : y ≠ 0 := by
  rintro rfl
  exact cubic_ne_zero x (by rw [← h]; ring)

end Sys2Proof.Machine
end

