-- ==== Sys2Proof/Laws/Group.lean ====
section
/-! SUPPORT. The group of 41_point_layer.md R200 is Mathlib's group of points of a Weierstrass curve: `affineAdd` is its addition and
`affineMul` its multiples, so they are associative and so on; and the identities that tie the complete formulas (R203, R204), read
on affine coordinates, to chords and tangents. -/

namespace Sys2Proof.Machine

/-- E: y² = x³ − 3x + 13318 over GF(p) (00_scope.md R3). -/
def curve : WeierstrassCurve.Affine (ZMod p) := { a₁ := 0, a₂ := 0, a₃ := 0, a₄ := -3, a₆ := 13318 }

/-- The curve equation. -/
abbrev onE (x y : ZMod p) : Prop := y ^ 2 = x ^ 3 - 3 * x + 13318

theorem curve_equation_iff (x y : ZMod p) : curve.Equation x y ↔ onE x y := by
  rw [WeierstrassCurve.Affine.equation_iff]
  simp only [curve, zero_mul, add_zero]
  constructor <;> intro h <;> linear_combination h

theorem two_ne_zero_p : (2 : ZMod p) ≠ 0 := by
  have h : ((2 : Nat) : ZMod p) ≠ 0 := by rw [Ne, cast_eq_zero_iff]; decide
  simpa using h

theorem curve_nonsingular {x y : ZMod p} (h : onE x y) : curve.Nonsingular x y := by
  have : Fact p.Prime := ⟨p_prime⟩
  rw [WeierstrassCurve.Affine.nonsingular_iff']
  refine ⟨(curve_equation_iff x y).2 h, .inr ?_⟩
  simp only [curve, zero_mul, add_zero]
  exact mul_ne_zero two_ne_zero_p (curve_y_ne_zero h)

theorem onE_of_nonsingular {x y : ZMod p} (h : curve.Nonsingular x y) : onE x y := (curve_equation_iff x y).1 h.1

/-- The point of Mathlib's curve that an affine point stands for. -/
noncomputable def toPoint : AffinePoint → curve.Point
  | .infinity => 0
  | .affine x y => open Classical in if h : onE (x : ZMod p) (y : ZMod p) then .some _ _ (curve_nonsingular h) else 0

theorem valid_affine (x y : Nat) : (AffinePoint.affine x y).valid = true ↔ x < p ∧ y < p ∧ onE (x : ZMod p) (y : ZMod p) := by
  simp only [AffinePoint.valid, Bool.and_eq_true, decide_eq_true_eq, onCurve_iff, onE, and_assoc]

theorem toPoint_affine {x y : Nat} (h : onE (x : ZMod p) (y : ZMod p)) :
    toPoint (.affine x y) = .some (x : ZMod p) (y : ZMod p) (curve_nonsingular h) := dif_pos h

theorem toPoint_infinity : toPoint .infinity = 0 := rfl

/-- A valid affine point is determined by the point it stands for. -/
theorem toPoint_inj {P Q : AffinePoint} (hP : P.valid = true) (hQ : Q.valid = true) (h : toPoint P = toPoint Q) : P = Q := by
  cases P with
  | infinity =>
    cases Q with
    | infinity => rfl
    | affine x y =>
      rw [toPoint_affine ((valid_affine x y).1 hQ).2.2] at h
      cases h
  | affine x y =>
    have hP' := (valid_affine x y).1 hP
    cases Q with
    | infinity =>
      rw [toPoint_affine hP'.2.2] at h
      cases h
    | affine x' y' =>
      have hQ' := (valid_affine x' y').1 hQ
      rw [toPoint_affine hP'.2.2, toPoint_affine hQ'.2.2, WeierstrassCurve.Affine.Point.some.injEq] at h
      rw [(cast_inj hP'.1 hQ'.1).1 h.1, (cast_inj hP'.2.1 hQ'.2.1).1 h.2]

theorem throughSlope_lt (l x1 y1 x2 : Nat) :
    ∃ x y, throughSlope l x1 y1 x2 = .affine x y ∧ x < p ∧ y < p ∧
      (x : ZMod p) = (l : ZMod p) ^ 2 - x1 - x2 ∧ (y : ZMod p) = l * (x1 - ((l : ZMod p) ^ 2 - x1 - x2)) - y1 := by
  refine ⟨_, _, rfl, fsub_lt _ _, fsub_lt _ _, ?_, ?_⟩ <;> simp only [cast_fsub, cast_fmul] <;> ring

theorem affineAdd_affine (x1 y1 x2 y2 : Nat) : affineAdd (.affine x1 y1) (.affine x2 y2) =
    if x1 = x2 then
      if fadd y1 y2 = 0 then .infinity
      else throughSlope (fmul (fsub (fmul 3 (fmul x1 x1)) 3) (invp (fadd y1 y1))) x1 y1 x2
    else throughSlope (fmul (fsub y2 y1) (invp (fsub x2 x1))) x1 y1 x2 := rfl

open WeierstrassCurve.Affine in
/-- `affineAdd` is the group's addition (41_point_layer.md R200). -/
theorem toPoint_affineAdd [Fact p.Prime] {P Q : AffinePoint} (hP : P.valid = true) (hQ : Q.valid = true) :
    (affineAdd P Q).valid = true ∧ toPoint (affineAdd P Q) = toPoint P + toPoint Q := by
  cases P with
  | infinity => exact ⟨hQ, (zero_add _).symm⟩
  | affine x1 y1 =>
    cases Q with
    | infinity => exact ⟨hP, (add_zero _).symm⟩
    | affine x2 y2 =>
      obtain ⟨hx1, hy1, h1⟩ := (valid_affine x1 y1).1 hP
      obtain ⟨hx2, hy2, h2⟩ := (valid_affine x2 y2).1 hQ
      rw [toPoint_affine h1, toPoint_affine h2]
      have hneg (u v : ZMod p) : curve.negY u v = -v := by simp [negY, curve]
      have close (l : Nat) (hl : (l : ZMod p) = curve.slope (x1 : ZMod p) x2 y1 y2)
          (hxy : ¬ ((x1 : ZMod p) = x2 ∧ (y1 : ZMod p) = curve.negY (x2 : ZMod p) y2)) :
          (throughSlope l x1 y1 x2).valid = true ∧ toPoint (throughSlope l x1 y1 x2) =
            Point.some _ _ (curve_nonsingular h1) + Point.some _ _ (curve_nonsingular h2) := by
        obtain ⟨x, y, e, hx, hy, ex, ey⟩ := throughSlope_lt l x1 y1 x2
        have hn := nonsingular_add (curve_nonsingular h1) (curve_nonsingular h2) hxy
        have ex' : (x : ZMod p) = curve.addX x1 x2 (curve.slope x1 x2 y1 y2) := by rw [ex, hl]; simp [addX, curve]
        have ey' : (y : ZMod p) = curve.addY x1 x2 y1 (curve.slope x1 x2 y1 y2) := by
          rw [ey, hl]; simp only [addY, negAddY, addX, hneg]; simp only [curve]; ring
        have hon : onE (x : ZMod p) (y : ZMod p) := by rw [ex', ey']; exact onE_of_nonsingular hn
        rw [e, Point.add_some hxy, toPoint_affine hon]
        refine ⟨(valid_affine x y).2 ⟨hx, hy, hon⟩, ?_⟩
        rw [Point.some.injEq]; exact ⟨ex', ey'⟩
      rw [affineAdd_affine]
      by_cases hx : x1 = x2
      · subst hx
        rw [if_pos rfl]
        by_cases hy : fadd y1 y2 = 0
        · have hy' : (y1 : ZMod p) = curve.negY (x1 : ZMod p) y2 := by
            have := cast_fadd y1 y2
            rw [hy, Nat.cast_zero] at this
            rw [hneg]; linear_combination -this
          rw [if_pos hy, Point.add_of_Y_eq rfl hy']
          exact ⟨rfl, rfl⟩
        · have hy' : (y1 : ZMod p) ≠ curve.negY (x1 : ZMod p) y2 := by
            rw [hneg]
            intro h
            apply hy
            apply (cast_inj (fadd_lt _ _) p_pos).1
            rw [cast_fadd, h, Nat.cast_zero]; ring
          rw [if_neg hy]
          refine close _ ?_ fun h => hy' h.2
          rw [slope_of_Y_ne rfl hy', hneg, cast_fmul, cast_invp]
          simp only [curve, cast_fsub, cast_fmul, cast_fadd, Nat.cast_ofNat, div_eq_mul_inv]
          ring
      · rw [if_neg hx]
        have hx' : (x1 : ZMod p) ≠ x2 := fun h => hx ((cast_inj hx1 hx2).1 h)
        refine close _ ?_ fun h => hx' h.1
        rw [slope_of_X_ne hx', cast_fmul, cast_invp, cast_fsub, cast_fsub, ← div_eq_mul_inv, ← neg_sub, ← neg_sub (x1 : ZMod p), neg_div_neg_eq]

/-- `affineMul` gives the group's multiples (00_scope.md R13). -/
theorem toPoint_affineMul [Fact p.Prime] {Q : AffinePoint} (hQ : Q.valid = true) (k : Nat) :
    (affineMul k Q).valid = true ∧ toPoint (affineMul k Q) = k • toPoint Q := by
  induction k with
  | zero => exact ⟨rfl, (zero_nsmul _).symm⟩
  | succ k ih =>
    obtain ⟨h1, h2⟩ := toPoint_affineAdd ih.1 hQ
    exact ⟨h1, by rw [show affineMul (k + 1) Q = affineAdd (affineMul k Q) Q from rfl, h2, ih.2, succ_nsmul]⟩

/-! ## The complete formulas on affine coordinates -/

section
variable {x1 y1 x2 y2 : ZMod p}

/-- X3 of R203 for (x1, y1, 1) and (x2, y2, 1). -/
def addX (x1 y1 x2 y2 : ZMod p) : ZMod p :=
  (x1 * y2 + x2 * y1) * (y1 * y2 + 3 * (x1 + x2 - 13318)) - (y1 + y2) * (3 * (13318 * (x1 + x2) - x1 * x2 - 3))

/-- Y3 of R203 for (x1, y1, 1) and (x2, y2, 1). -/
def addY (x1 y1 x2 y2 : ZMod p) : ZMod p :=
  (y1 * y2 + 3 * (x1 + x2 - 13318)) * (y1 * y2 - 3 * (x1 + x2 - 13318))
    + (3 * (x1 * x2) - 3) * (3 * (13318 * (x1 + x2) - x1 * x2 - 3))

/-- Z3 of R203 for (x1, y1, 1) and (x2, y2, 1). -/
def addZ (x1 y1 x2 y2 : ZMod p) : ZMod p :=
  (y1 + y2) * (y1 * y2 - 3 * (x1 + x2 - 13318)) + (x1 * y2 + x2 * y1) * (3 * (x1 * x2) - 3)

/-- The abscissa of the chord's third point, cleared of denominators. -/
theorem chord_X (h1 : onE x1 y1) (h2 : onE x2 y2) : addX x1 y1 x2 y2 * (x2 - x1) ^ 2 =
    addZ x1 y1 x2 y2 * ((y2 - y1) ^ 2 - (x1 + x2) * (x2 - x1) ^ 2) := by
  unfold addX addZ
  linear_combination (-3*x1^2*x2*y2-3*x1*y1*x2^2+3*x1*y1+3*x1*x2^2*y2+3*x1*y2-y1^2*y2+6*y1*x2+y1*y2^2-3*y1*13318+2*x2^3*y2
    -9*x2*y2+y2^3+2*y2*13318) * h1 + (3*x1^3*y1+x1^3*y2+3*x1^2*y1*x2-3*x1^2*x2*y2-3*x1*y1*x2^2-12*x1*y1+3*x1*y2+3*y1*x2
    -y1*y2^2+3*y1*13318+3*x2*y2-2*y2*13318) * h2

/-- The ordinate of the chord's reflected third point, cleared of denominators. -/
theorem chord_Y (h1 : onE x1 y1) (h2 : onE x2 y2) : addY x1 y1 x2 y2 * (x2 - x1) =
    addZ x1 y1 x2 y2 * ((y2 - y1) * x1 - y1 * (x2 - x1)) - (y2 - y1) * addX x1 y1 x2 y2 := by
  unfold addX addY addZ
  linear_combination (3*x1*x2^3-9*x1*x2-3*x1*y2^2+3*x1*13318-9*x2^2+3*x2*y2^2+9*x2*13318-9) * h1
    + (-3*x1^4+18*x1^2-12*x1*13318+9) * h2

/-- Z3 is the ordinate of (x1, y1) − (x2, y2), cleared of denominators: it vanishes only where that difference has order 2. -/
theorem chord_Z (h1 : onE x1 y1) (h2 : onE x2 y2) : addZ x1 y1 x2 y2 =
    -((y1 + y2) * (x1 * (x2 - x1) ^ 2 - ((y1 + y2) ^ 2 - (x1 + x2) * (x2 - x1) ^ 2)) + y1 * (x2 - x1) ^ 3) := by
  unfold addZ
  linear_combination (-y1-2*y2) * h1 + (-2*y1-y2) * h2

/-- X3 for two equal points: the tangent's. -/
theorem tangent_X (h1 : onE x1 y1) : addX x1 y1 x1 y1 = 2 * y1 * ((3 * x1 ^ 2 - 3) ^ 2 - 8 * x1 * y1 ^ 2) := by
  unfold addX; linear_combination 18*x1*y1 * h1

/-- Y3 for two equal points: the tangent's. -/
theorem tangent_Y (h1 : onE x1 y1) :
    addY x1 y1 x1 y1 = (3 * x1 ^ 2 - 3) * (12 * x1 * y1 ^ 2 - (3 * x1 ^ 2 - 3) ^ 2) - 8 * y1 ^ 4 := by
  unfold addY; linear_combination (-27*x1^3+9*x1+9*y1^2+9*13318) * h1

/-- Z3 for two equal points. -/
theorem tangent_Z (h1 : onE x1 y1) : addZ x1 y1 x1 y1 = 8 * y1 ^ 3 := by
  unfold addZ; linear_combination -6*y1 * h1

/-- Y3 for two opposite points is the ordinate of twice the first, cleared of denominators. -/
theorem opposite_Y (h1 : onE x1 y1) :
    addY x1 y1 x1 (-y1) = (3 * x1 ^ 2 - 3) * (12 * x1 * y1 ^ 2 - (3 * x1 ^ 2 - 3) ^ 2) - 8 * y1 ^ 4 := by
  unfold addY; linear_combination (-27*x1^3+9*x1+9*y1^2+9*13318) * h1

theorem opposite_X : addX x1 y1 x1 (-y1) = 0 := by unfold addX; ring

theorem opposite_Z : addZ x1 y1 x1 (-y1) = 0 := by unfold addZ; ring

end

/-- The formulas are homogeneous of degree 2 in each argument, so they are determined by affine coordinates where Z ≢ 0. -/
theorem padd_affine [Fact p.Prime] (S T : Triple) (hS : (S.Z : ZMod p) ≠ 0) (hT : (T.Z : ZMod p) ≠ 0) :
    let c : ZMod p := ((S.Z : ZMod p) * T.Z) ^ 2
    ((padd S T).X : ZMod p) = c * addX (S.X / S.Z) (S.Y / S.Z) (T.X / T.Z) (T.Y / T.Z) ∧
    ((padd S T).Y : ZMod p) = c * addY (S.X / S.Z) (S.Y / S.Z) (T.X / T.Z) (T.Y / T.Z) ∧
    ((padd S T).Z : ZMod p) = c * addZ (S.X / S.Z) (S.Y / S.Z) (T.X / T.Z) (T.Y / T.Z) := by
  intro c
  refine ⟨?_, ?_, ?_⟩
  · rw [padd_X]; simp only [addX, c]; field_simp
  · rw [padd_Y]; simp only [addY, c]; field_simp
  · rw [padd_Z]; simp only [addZ, c]; field_simp

/-- The ordinate of twice a point, cleared of denominators, is not 0: no point of the curve has order 2. -/
theorem double_y_ne_zero [Fact p.Prime] {x y : ZMod p} (h : onE x y) :
    (3 * x ^ 2 - 3) * (12 * x * y ^ 2 - (3 * x ^ 2 - 3) ^ 2) - 8 * y ^ 4 ≠ 0 := by
  have hy := curve_y_ne_zero h
  have h2 := two_ne_zero_p
  have hne : y ≠ curve.negY x y := by
    simp only [WeierstrassCurve.Affine.negY, curve]
    intro g
    apply mul_ne_zero h2 hy
    linear_combination g
  have hn := onE_of_nonsingular (WeierstrassCurve.Affine.nonsingular_add (curve_nonsingular h) (curve_nonsingular h) fun g => hne g.2)
  have h3 := curve_y_ne_zero hn
  rw [WeierstrassCurve.Affine.slope_of_Y_ne rfl hne] at h3
  intro g
  apply h3
  simp only [WeierstrassCurve.Affine.addY, WeierstrassCurve.Affine.negAddY, WeierstrassCurve.Affine.addX, WeierstrassCurve.Affine.negY, curve]
  have e : y - (-y - 0 * x - 0) = 2 * y := by ring
  rw [e]
  field_simp
  linear_combination g

/-- Z3 of two points with different abscissas is not 0. -/
theorem addZ_ne_zero [Fact p.Prime] {x1 y1 x2 y2 : ZMod p} (h1 : onE x1 y1) (h2 : onE x2 y2) (hx : x1 ≠ x2) : addZ x1 y1 x2 y2 ≠ 0 := by
  have h2' : onE x2 (-y2) := by show (-y2) ^ 2 = _; rw [neg_sq]; exact h2
  have hn := onE_of_nonsingular (WeierstrassCurve.Affine.nonsingular_add (curve_nonsingular h1) (curve_nonsingular h2') fun g => hx g.1)
  have h3 := curve_y_ne_zero hn
  rw [WeierstrassCurve.Affine.slope_of_X_ne hx] at h3
  intro g
  apply h3
  have hd : x1 - x2 ≠ 0 := sub_ne_zero.2 hx
  rw [chord_Z h1 h2] at g
  simp only [WeierstrassCurve.Affine.addY, WeierstrassCurve.Affine.negAddY, WeierstrassCurve.Affine.addX, WeierstrassCurve.Affine.negY, curve]
  field_simp
  linear_combination -g

/-! ## What a triple denotes -/

/-- What a triple denotes is decided by three cases (41_point_layer.md R202). -/
theorem denoted_cases (T : Triple) :
    ((T.Z : ZMod p) ≠ 0 ∧ denoted T = some (.affine (fmul T.X (invp T.Z)) (fmul T.Y (invp T.Z)))) ∨
    ((T.Z : ZMod p) = 0 ∧ ¬ ((T.X : ZMod p) = 0 ∧ (T.Y : ZMod p) = 0) ∧ denoted T = some .infinity) ∨
    ((T.Z : ZMod p) = 0 ∧ (T.X : ZMod p) = 0 ∧ (T.Y : ZMod p) = 0 ∧ denoted T = none) := by
  simp only [Ne, cast_eq_zero_iff]
  unfold denoted
  by_cases hz : T.Z % p = 0
  · rw [if_neg (not_not.2 hz)]
    by_cases h : T.X % p = 0 ∧ T.Y % p = 0
    · rw [if_pos h]; exact .inr (.inr ⟨hz, h.1, h.2, rfl⟩)
    · rw [if_neg h]; exact .inr (.inl ⟨hz, h, rfl⟩)
  · rw [if_pos hz]; exact .inl ⟨hz, rfl⟩

/-- A triple with Z ≢ 0 denotes (X/Z, Y/Z) (41_point_layer.md R202). -/
theorem denoted_affine [Fact p.Prime] {T : Triple} (h : (T.Z : ZMod p) ≠ 0) : ∃ x y, denoted T = some (.affine x y) ∧ x < p ∧ y < p ∧
    (x : ZMod p) = T.X / T.Z ∧ (y : ZMod p) = T.Y / T.Z := by
  refine ⟨fmul T.X (invp T.Z), fmul T.Y (invp T.Z), if_pos fun g => h ((cast_eq_zero_iff _).2 g), fmul_lt _ _, fmul_lt _ _, ?_, ?_⟩ <;>
    rw [cast_fmul, cast_invp, div_eq_mul_inv]

/-- A triple with Z ≡ 0 and Y ≢ 0 denotes O. -/
theorem denoted_infinity {T : Triple} (hz : (T.Z : ZMod p) = 0) (hy : (T.Y : ZMod p) ≠ 0) : denoted T = some .infinity := by
  rcases denoted_cases T with h | h | h
  · exact absurd hz h.1
  · exact h.2.2
  · exact absurd h.2.2.1 hy

/-- R206's condition, read in GF(p): an affine point of the curve, or the identity in its one shape. -/
theorem denotes_iff [Fact p.Prime] (T : Triple) (P : AffinePoint) : Denotes T P ↔
    ((T.Z : ZMod p) ≠ 0 ∧ onE ((T.X : ZMod p) / T.Z) (T.Y / T.Z) ∧ denoted T = some P) ∨
      ((T.Z : ZMod p) = 0 ∧ (T.Y : ZMod p) ≠ 0 ∧ (T.X : ZMod p) = 0 ∧ P = .infinity) := by
  constructor
  · rintro ⟨h, hv, hi⟩
    rcases denoted_cases T with ⟨hz, _⟩ | ⟨hz, _, e⟩ | ⟨_, _, _, e⟩
    · obtain ⟨x, y, e, _, _, ex, ey⟩ := denoted_affine hz
      rw [e] at h
      cases h
      exact .inl ⟨hz, by rw [← ex, ← ey]; exact ((valid_affine x y).1 hv).2.2, e⟩
    · obtain ⟨hy, hx⟩ := hi ((cast_eq_zero_iff _).1 hz)
      rw [e] at h
      cases h
      exact .inr ⟨hz, fun g => hy ((cast_eq_zero_iff _).1 g), (cast_eq_zero_iff _).2 hx, rfl⟩
    · rw [e] at h; cases h
  · rintro (⟨hz, ho, h⟩ | ⟨hz, hy, hx, rfl⟩)
    · obtain ⟨x, y, e, hx, hy, ex, ey⟩ := denoted_affine hz
      obtain rfl : P = .affine x y := by rw [h] at e; exact Option.some.inj e
      exact ⟨h, (valid_affine x y).2 ⟨hx, hy, by rw [ex, ey]; exact ho⟩, fun g => absurd ((cast_eq_zero_iff _).2 g) hz⟩
    · exact ⟨denoted_infinity hz hy, rfl, fun _ => ⟨fun g => hy ((cast_eq_zero_iff _).2 g), (cast_eq_zero_iff _).1 hx⟩⟩

end Sys2Proof.Machine
end

