-- ==== Sys2Proof/Laws/HostPort.lean ====
section
/-! SUPPORT. The step and the host port: which agent moves, where an access goes (20_memory.md R80 to R84), and what each operation of the
port leaves alone. -/

namespace Sys2Proof.Machine

/-! ## The step -/

theorem step_of_nil {s : State} (h : s.host = []) : step s = coreStep s := by unfold step; rw [h]

theorem step_of_cons {s : State} {e : HostOp} {rest : List HostOp} (h : s.host = e :: rest) :
    step s = boundaryStep e { s with host := rest } := by unfold step; rw [h]

theorem coreStep_idle {s : State} (h : s.pending = none) : coreStep s = .next s := by unfold coreStep; rw [h]

theorem coreStep_ok {s : State} {w : Word} {i : Instr} (h : s.pending = some w) (hd : decode w = .ok i) :
    coreStep s = exec i s := by unfold coreStep; rw [h]; dsimp only; rw [hd]

theorem coreStep_error {s : State} {w : Word} {k : Cause} (h : s.pending = some w) (hd : decode w = .error k) :
    coreStep s = .next (completeError k s) := by unfold coreStep; rw [h]; dsimp only; rw [hd]

/-! ## Where an access goes -/

theorem offsetOf_base {off : Nat} (h : off < 0x3000) : offsetOf (Config.base + off) = some off := by
  unfold offsetOf; rw [if_pos (by omega)]; congr 1; omega

theorem offsetOf_outside {addr : Nat} (h : addr < Config.base ∨ Config.base + 0x3000 ≤ addr) : offsetOf addr = none := by
  unfold offsetOf; rw [if_neg (by omega)]

theorem access_located {off size : Nat} {t : Target} (act : Target → State → State) (s : State) (ho : off < 0x3000)
    (hl : locate off size = some t) : access (Config.base + off) size act s = .next (act t s) := by
  unfold access; rw [offsetOf_base ho]; dsimp only; rw [hl]

theorem access_busError {off size : Nat} (act : Target → State → State) (s : State) (ho : off < 0x3000)
    (hl : locate off size = none) : access (Config.base + off) size act s = .refused (.busError off size) := by
  unfold access; rw [offsetOf_base ho]; dsimp only; rw [hl]

theorem access_outside {addr size : Nat} (act : Target → State → State) (s : State)
    (h : addr < Config.base ∨ Config.base + 0x3000 ≤ addr) : access addr size act s = .refused (.outsideWindow addr) := by
  unfold access; rw [offsetOf_outside h]

/-- An access with a next state has a target. -/
theorem access_next {addr size : Nat} {act : Target → State → State} {s t : State} (h : access addr size act s = .next t) :
    ∃ off g, addr = Config.base + off ∧ off < 0x3000 ∧ locate off size = some g ∧ t = act g s := by
  unfold access at h
  rcases ho : offsetOf addr with _ | off
  · rw [ho] at h; cases h
  · rw [ho] at h
    dsimp only at h
    rcases hl : locate off size with _ | g
    · rw [hl] at h; cases h
    · rw [hl] at h
      unfold offsetOf at ho
      split at ho
      · cases ho
        exact ⟨_, g, by omega, by omega, hl, by cases h; rfl⟩
      · cases ho

theorem step_read {s : State} {rest : List HostOp} {off size : Nat} {g : Target} (h : s.host = .read (Config.base + off) size :: rest)
    (ho : off < 0x3000) (hl : locate off size = some g) : step s = .next (hostRead g { s with host := rest }) := by
  rw [step_of_cons h]; exact access_located _ _ ho hl

theorem step_write {s : State} {rest : List HostOp} {off size : Nat} {g : Target} {v : Dword}
    (h : s.host = .write (Config.base + off) size v :: rest) (ho : off < 0x3000) (hl : locate off size = some g) :
    step s = .next (hostWrite g v { s with host := rest }) := by
  rw [step_of_cons h]; exact access_located _ _ ho hl

/-- The five control registers (20_memory.md R81). -/
theorem locate_control : locate 0x000 4 = some .id ∧ locate 0x004 4 = some .ctrl ∧ locate 0x008 4 = some .status ∧
    locate 0x00C 4 = some .cmd ∧ locate 0x010 4 = some .ladder := by decide

/-- A limb of the FE window (20_memory.md R82). -/
theorem locate_limb {n i : Nat} (hn : n < 32) (hi : i < 10) : locate (0x1000 + 0x50 * n + 8 * i) 8 = some (.limb n i) := by
  unfold locate
  have e1 : (0x1000 + 0x50 * n + 8 * i - 0x1000) / 0x50 = n := by omega
  have e2 : (0x1000 + 0x50 * n + 8 * i - 0x1000) % 0x50 / 8 = i := by omega
  rw [if_neg (by omega), if_pos (by omega), if_pos ⟨rfl, by omega⟩, e1, e2]

/-- Bytes of BUF (20_memory.md R84). -/
theorem locate_bytes {j size : Nat} (hs : size = 1 ∨ size = 2 ∨ size = 4 ∨ size = 8) (ha : j % size = 0) (hj : j < 256) :
    locate (0x2000 + j) size = some (.bytes j size) := by
  unfold locate
  have h : (0x2000 + j) % size = 0 := by rcases hs with rfl | rfl | rfl | rfl <;> omega
  rw [if_neg (by omega), if_neg (by omega), if_pos (by omega), if_pos ⟨hs, h⟩,
    show 0x2000 + j - 0x2000 = j by omega]

/-- What a located access can reach. -/
theorem locate_cases {off size : Nat} {g : Target} (h : locate off size = some g) :
    g = .id ∨ g = .ctrl ∨ g = .status ∨ g = .cmd ∨ g = .ladder ∨ (∃ n i, n < 32 ∧ i < 10 ∧ g = .limb n i) ∨
      (∃ j, j + size ≤ 256 ∧ g = .bytes j size) := by
  unfold locate at h
  split at h
  · split at h
    · unfold controlRegister at h
      split at h <;> simp_all
    · cases h
  · split at h
    · split at h
      · cases h
        exact .inr (.inr (.inr (.inr (.inr (.inl ⟨_, _, by omega, by omega, rfl⟩)))))
      · cases h
    · split at h
      · split at h
        · rename_i hs
          cases h
          refine .inr (.inr (.inr (.inr (.inr (.inr ⟨_, ?_, rfl⟩)))))
          rcases hs.1 with rfl | rfl | rfl | rfl <;> omega
        · cases h
      · cases h

/-- The offset and width of a control register the host writes. -/
theorem locate_control_inv {off size : Nat} {g : Target} (h : locate off size = some g) :
    (g = .ctrl → off = 0x004 ∧ size = 4) ∧ (g = .status → off = 0x008 ∧ size = 4) ∧ (g = .cmd → off = 0x00C ∧ size = 4) := by
  unfold locate at h
  split at h
  · split at h
    · unfold controlRegister at h
      split at h <;> simp_all <;> cases h <;> simp
    · cases h
  · split at h
    · split at h
      · cases h; simp
      · cases h
    · split at h
      · split at h
        · cases h; simp
        · cases h
      · cases h

/-- The map takes exactly the accesses of 20_memory.md R81 to R84. -/
theorem locate_isSome_iff (off size : Nat) : (locate off size).isSome = true ↔ isTaken off size := by
  unfold locate isTaken
  by_cases h1 : off < 0x1000
  · rw [if_pos h1]
    by_cases hs : size = 4
    · rw [if_pos hs]
      unfold controlRegister
      split <;> (simp_all; try omega)
    · rw [if_neg hs]; simp; omega
  · rw [if_neg h1]
    by_cases h2 : off < 0x1A00
    · rw [if_pos h2]
      by_cases hs : size = 8 ∧ off % 8 = 0
      · rw [if_pos hs]; simp; omega
      · rw [if_neg hs]; simp; omega
    · rw [if_neg h2]
      by_cases h3 : 0x2000 ≤ off ∧ off < 0x2100
      · rw [if_pos h3]
        by_cases hs : (size = 1 ∨ size = 2 ∨ size = 4 ∨ size = 8) ∧ off % size = 0
        · rw [if_pos hs]; simp; omega
        · rw [if_neg hs]; simp; exact ⟨by omega, by omega, fun _ _ a b => hs ⟨a, b⟩⟩
      · rw [if_neg h3]; simp; omega

/-! ## What a read leaves alone -/

/-- A read changes the answer, the count of free values where the value is free, and what the host has seen: that BUSY = 0 only when
it was. It changes nothing of the block (20_memory.md R90). -/
theorem hostRead_frame (g : Target) (s : State) :
    ∃ r d q, hostRead g s = { s with resp := r, draws := d, polled := q } ∧ (q = true → s.polled = true ∨ s.status.busy = false) := by
  cases g with
  | ladder =>
    unfold hostRead readLadder
    dsimp only
    split <;> exact ⟨_, _, s.polled, rfl, .inl⟩
  | limb n i =>
    unfold hostRead readLimb
    dsimp only
    split <;> exact ⟨_, _, s.polled, rfl, .inl⟩
  | bytes j size =>
    unfold hostRead readBytes
    dsimp only
    split <;> exact ⟨_, _, s.polled, rfl, .inl⟩
  | status => exact ⟨_, _, _, rfl, by simp⟩
  | _ => exact ⟨_, _, s.polled, rfl, .inl⟩

/-! ## What the writes of the control registers do -/

/-- Everything a write to STATUS does (10_state.md R42). -/
theorem writeStatus_eq (v : Word) (s : State) : writeStatus v s =
    { s with status := { busy := s.status.busy, done := s.status.done && !v.getLsbD 1, err := s.status.err && !v.getLsbD 2,
                         ovr := s.status.ovr && !v.getLsbD 3, cause := if v.getLsbD 2 then .none else s.status.cause } } := by
  unfold writeStatus acknowledgeError
  cases h1 : v.getLsbD 1 <;> cases h2 : v.getLsbD 2 <;> cases h3 : v.getLsbD 3 <;> simp

theorem writeCmd_accepted {s : State} (w : Word) (h : s.status.busy = false ∧ s.status.err = false) :
    writeCmd w s = acceptCommand s w := if_pos h

theorem writeCmd_refused {s : State} (w : Word) (h : s.status.busy = true ∨ s.status.err = true) :
    writeCmd w s = setOverrun s := if_neg fun g => by rcases h with h | h <;> simp [h] at g

end Sys2Proof.Machine
end

