-- ==== Sys2Proof/Laws/Inverter.lean ====
section
/-! SUPPORT. The steps of the inverter's addition chain read in GF(p) (40_field_kernel.md R161): a product, a squaring and a run of
squarings. -/

namespace Sys2Proof.Machine

theorem cast_carryFe (x : Fe) : (val (carryFe x) : ZMod p) = val x := by
  rw [cast_eq_iff_mod, val_carryFe, carryval_mod]

theorem cast_productFe (x y : Fe) : (val (productFe x y) : ZMod p) = val x * val y := by
  rw [← Nat.cast_mul, cast_eq_iff_mod, val_productFe_mod]

theorem cast_sqrFe (x : Fe) : (val (sqrFe x) : ZMod p) = (val x : ZMod p) ^ 2 := by rw [sqrFe, cast_productFe, pow_two]

theorem cast_sqrTimes (n : Nat) (x : Fe) : (val (sqrTimes n x) : ZMod p) = (val x : ZMod p) ^ 2 ^ n := by
  induction n generalizing x with
  | zero => simp [sqrTimes]
  | succ n ih => rw [sqrTimes, ih, cast_sqrFe, ← pow_mul, ← pow_succ']

/-- The squarings and products of zero are the zero vector. -/
theorem productFe_zero : productFe zeroFe zeroFe = zeroFe := by decide

theorem sqrTimes_zero (n : Nat) : sqrTimes n zeroFe = zeroFe := by
  induction n with
  | zero => rfl
  | succ n ih => rw [sqrTimes, sqrFe, productFe_zero, ih]

theorem carryFe_of_val_zero {x : Fe} (h : val x = 0) : carryFe x = zeroFe := by
  rw [carryFe, h]; decide

end Sys2Proof.Machine
end

