-- ==== Sys2Proof/Laws/Ladder.lean ====
section
/-! SUPPORT. The ladder: the masked OR of the lookup (42_scalar_ladder.md R248), and the state machine's run as one loop over the windows
that reads nothing of the old hidden state (R241, R246, R247, R253). -/

namespace Sys2Proof.Machine

/-! ## The masked OR -/

theorem limbwise_or_false (x y : Fe) : limbwise (fun a b => a ||| (maskOf false &&& b)) x y = x := by
  apply Vector.ext
  intro i hi
  simp [limbwise, maskOf_false]

theorem limbwise_or_true (y : Fe) : limbwise (fun a b => a ||| (maskOf true &&& b)) zeroFe y = y := by
  apply Vector.ext
  intro i hi
  rw [limbwise, maskOf_true, Vector.getElem_ofFn, BitVec.allOnes_and]
  simp [zeroFe]

/-- A candidate whose mask is all zeros changes nothing. -/
@[simp] theorem orMasked_false (P Q : Point) : orMasked false P Q = P := by simp [orMasked, limbwise_or_false]

/-- The candidate whose mask is all ones is taken into the empty buffer. -/
@[simp] theorem orMasked_true (Q : Point) : orMasked true zeroPoint Q = Q := by simp [orMasked, zeroPoint, limbwise_or_true]

/-- A scan over places where no mask is set changes nothing. -/
theorem foldl_orMasked_none (T : List Point) (m : Nat) (ks : List Nat) (sel : Point) (h : m ∉ ks) :
    ks.foldl (fun sel k => orMasked (decide (m = k)) sel (candidate T k)) sel = sel := by
  induction ks generalizing sel with
  | nil => rfl
  | cons k ks ih =>
    simp only [List.mem_cons, not_or] at h
    rw [List.foldl_cons, decide_eq_false h.1, orMasked_false, ih _ h.2]

/-- The scan takes the candidate at the place whose mask is set. -/
theorem foldl_orMasked (T : List Point) (m n : Nat) (h : m < n) :
    (List.range n).foldl (fun sel k => orMasked (decide (m = k)) sel (candidate T k)) zeroPoint = candidate T m := by
  have e : List.range n = List.range m ++ m :: (List.range (n - m - 1)).map (fun i => m + 1 + i) := by
    have h1 : n = m + ((n - m - 1) + 1) := by omega
    conv_lhs => rw [h1, List.range_add, List.range_succ_eq_map]
    simp only [List.map_cons, List.map_map, Nat.add_zero]
    congr 2
    apply List.map_congr_left
    intro i _
    simp only [Function.comp]; omega
  rw [e, List.foldl_append, foldl_orMasked_none T m (List.range m) zeroPoint (by simp), List.foldl_cons, decide_eq_true rfl,
    orMasked_true, foldl_orMasked_none]
  simp only [List.mem_map, List.mem_range, not_exists, not_and]
  intro i _; omega

/-! ## The table under construction -/

/-- The table after `n` of the fifteen steps of PRECOMPUTE (42_scalar_ladder.md R245). -/
def tableUpTo (Q : Point) (n : Nat) : List Point := (List.range n).foldl (fun T j => T ++ [nextEntry T (j + 2)]) [Q]

theorem precompute_eq (Q : Point) : precompute Q = tableUpTo Q 15 := rfl

theorem tableUpTo_succ (Q : Point) (n : Nat) : tableUpTo Q (n + 1) = tableUpTo Q n ++ [nextEntry (tableUpTo Q n) (n + 2)] := by
  simp [tableUpTo, List.range_succ]

@[simp] theorem tableUpTo_length (Q : Point) (n : Nat) : (tableUpTo Q n).length = n + 1 := by
  induction n with
  | zero => rfl
  | succ n ih => simp [tableUpTo_succ, ih]

/-- A step of PRECOMPUTE keeps the entries that are there. -/
theorem entry_tableUpTo_succ (Q : Point) {n k : Nat} (h : k ≤ n) : entry (tableUpTo Q (n + 1)) k = entry (tableUpTo Q n) k := by
  simp [entry, tableUpTo_succ, List.getElem?_append_left (show k < (tableUpTo Q n).length by simp; omega)]

/-- Later steps keep the entries that are there. -/
theorem entry_tableUpTo (Q : Point) {n m k : Nat} (h : k ≤ n) (hm : n ≤ m) : entry (tableUpTo Q m) k = entry (tableUpTo Q n) k := by
  induction m, hm using Nat.le_induction with
  | base => rfl
  | succ m hm ih => rw [entry_tableUpTo_succ Q (by omega), ih]

/-- The entry a step of PRECOMPUTE adds. -/
theorem entry_tableUpTo_last (Q : Point) (n : Nat) : entry (tableUpTo Q (n + 1)) (n + 1) = nextEntry (tableUpTo Q n) (n + 2) := by
  simp [entry, tableUpTo_succ]

/-! ## The run of the state machine -/

/-- ACC after the window `i`: five doublings and the addition of the looked-up multiple (42_scalar_ladder.md R247, R248). -/
def windowStep (T : List Point) (digits : List Int) (acc : Point) (i : Nat) : Point :=
  addPoints (dblPoint (dblPoint (dblPoint (dblPoint (dblPoint acc))))) (lookupDigit T (digits.getD i 0))

/-- ACC after all windows, the most significant one first. -/
def ladderAcc (K : Nat) (Q : Point) : Point :=
  ((List.range 51).reverse).foldl (windowStep (precompute Q) (decompose K).1) (initAcc (decompose K).2 (precompute Q))

theorem runStage_window (K : Nat) (h : LadderState) (i : Nat) :
    ((windowStages i).foldl (runStage K) h).acc = windowStep h.table h.digits h.acc i ∧
      ((windowStages i).foldl (runStage K) h).table = h.table ∧ ((windowStages i).foldl (runStage K) h).digits = h.digits :=
  ⟨rfl, rfl, rfl⟩

theorem runStage_windows (K : Nat) (ws : List Nat) (h : LadderState) :
    ((ws.flatMap windowStages).foldl (runStage K) h).acc = ws.foldl (windowStep h.table h.digits) h.acc := by
  induction ws generalizing h with
  | nil => rfl
  | cons i ws ih =>
    obtain ⟨ha, ht, hd⟩ := runStage_window K h i
    rw [List.flatMap_cons, List.foldl_append, ih, ht, hd, ha, List.foldl_cons]

/-- The accumulator at the end of the phase sequence, whatever the hidden state held before. -/
theorem runLadder_acc (K : Nat) (Q : Point) (h : LadderState) : (runLadder K Q h).acc = ladderAcc K Q := by
  unfold runLadder stagesAfterDecode ladderAcc
  generalize (List.range 51).reverse = ws
  rw [List.foldl_append, List.foldl_append, List.foldl_cons, List.foldl_nil]
  have fin (g : LadderState) : (runStage K g ⟨.finalize, 0, 0⟩).acc = g.acc := rfl
  rw [fin, runStage_windows]
  simp only [List.foldl_cons, List.foldl_nil, runStage]

end Sys2Proof.Machine
end

