-- ==== Sys2Proof/Laws/PerInstr.lean ====
section
/-! SUPPORT. A statement per command: its opcode's row of the map rebuilds it from its fields, and the row's operand kinds are the ones
its well-formedness checks (30_encoding.md R112, R114). -/

namespace Sys2Proof.Laws

/-- The command's row of the opcode map fits it: the row makes the command from its three fields, and the three fields are legal for
the row's kinds exactly when the command is well-formed. -/
def EncodesItsRow.Statement (i : Instr) : Prop :=
  ∃ r, opRow (BitVec.ofNat 6 i.opcode) = some r ∧ r.make i.rd i.ra i.rb = i ∧
    (r.kd.legal i.rd && r.ka.legal i.ra && r.kb.legal i.rb) = i.wf

theorem EncodesItsRow.feZero (rd : Field5) : EncodesItsRow.Statement (.feZero rd) :=
  ⟨_, rfl, rfl, (Bool.and_true _).trans (Bool.and_true _)⟩

theorem EncodesItsRow.feOne (rd : Field5) : EncodesItsRow.Statement (.feOne rd) :=
  ⟨_, rfl, rfl, (Bool.and_true _).trans (Bool.and_true _)⟩

theorem EncodesItsRow.feCopy (rd ra : Field5) : EncodesItsRow.Statement (.feCopy rd ra) :=
  ⟨_, rfl, rfl, Bool.and_true _⟩

theorem EncodesItsRow.feAdd (rd ra rb : Field5) : EncodesItsRow.Statement (.feAdd rd ra rb) :=
  ⟨_, rfl, rfl, rfl⟩

theorem EncodesItsRow.feSub (rd ra rb : Field5) : EncodesItsRow.Statement (.feSub rd ra rb) :=
  ⟨_, rfl, rfl, rfl⟩

theorem EncodesItsRow.feAdd2p (rd ra : Field5) : EncodesItsRow.Statement (.feAdd2p rd ra) :=
  ⟨_, rfl, rfl, Bool.and_true _⟩

theorem EncodesItsRow.feAdd4p (rd ra : Field5) : EncodesItsRow.Statement (.feAdd4p rd ra) :=
  ⟨_, rfl, rfl, Bool.and_true _⟩

theorem EncodesItsRow.feMul (rd ra rb : Field5) : EncodesItsRow.Statement (.feMul rd ra rb) :=
  ⟨_, rfl, rfl, rfl⟩

theorem EncodesItsRow.feSqr (rd ra : Field5) : EncodesItsRow.Statement (.feSqr rd ra) :=
  ⟨_, rfl, rfl, Bool.and_true _⟩

theorem EncodesItsRow.feCarry (rd ra : Field5) : EncodesItsRow.Statement (.feCarry rd ra) :=
  ⟨_, rfl, rfl, Bool.and_true _⟩

theorem EncodesItsRow.feReduce (rd ra : Field5) : EncodesItsRow.Statement (.feReduce rd ra) :=
  ⟨_, rfl, rfl, Bool.and_true _⟩

theorem EncodesItsRow.feInv (rd ra : Field5) : EncodesItsRow.Statement (.feInv rd ra) :=
  ⟨_, rfl, rfl, Bool.and_true _⟩

theorem EncodesItsRow.feAddb (rd ra : Field5) : EncodesItsRow.Statement (.feAddb rd ra) :=
  ⟨_, rfl, rfl, Bool.and_true _⟩

theorem EncodesItsRow.feMulb (rd ra : Field5) : EncodesItsRow.Statement (.feMulb rd ra) :=
  ⟨_, rfl, rfl, Bool.and_true _⟩

theorem EncodesItsRow.feFrombytes (rd ra : Field5) : EncodesItsRow.Statement (.feFrombytes rd ra) :=
  ⟨_, rfl, rfl, Bool.and_true _⟩

theorem EncodesItsRow.feTobytes (rd ra : Field5) : EncodesItsRow.Statement (.feTobytes rd ra) :=
  ⟨_, rfl, rfl, Bool.and_true _⟩

theorem EncodesItsRow.ptFrombytes (rd ra : Field5) : EncodesItsRow.Statement (.ptFrombytes rd ra) :=
  ⟨_, rfl, rfl, Bool.and_true _⟩

theorem EncodesItsRow.ptTobytes (rd ra : Field5) : EncodesItsRow.Statement (.ptTobytes rd ra) :=
  ⟨_, rfl, rfl, Bool.and_true _⟩

theorem EncodesItsRow.ptAdd (rd ra rb : Field5) : EncodesItsRow.Statement (.ptAdd rd ra rb) :=
  ⟨_, rfl, rfl, rfl⟩

theorem EncodesItsRow.ptDbl (rd ra : Field5) : EncodesItsRow.Statement (.ptDbl rd ra) :=
  ⟨_, rfl, rfl, Bool.and_true _⟩

theorem EncodesItsRow.scalarmult (rd ra rb : Field5) : EncodesItsRow.Statement (.scalarmult rd ra rb) :=
  ⟨_, rfl, rfl, rfl⟩

end Sys2Proof.Laws
end

