-- ==== Sys2Proof/Laws/Reset.lean ====
section
/-! SUPPORT. The resets: what an abandoned command can change (70_reset_and_hazards.md R332), and power-on reset while the machine runs
(R331). -/

namespace Sys2Proof.Machine

/-- A decoded command is well-formed (30_encoding.md R113). -/
theorem decode_wf {w : Word} {i : Instr} (h : decode w = .ok i) : i.wf = true := by
  obtain ⟨r, h1, _, hd, ha, hb, rfl⟩ := decode_ok_cases h
  unfold opRow at h1
  split at h1 <;> cases h1 <;> simp_all [Instr.wf]

/-- Bytes written from the start of a slot leave the bytes outside alone. -/
theorem bufByte_memWrite_slot (s : State) (d : Field5) (bs : List Byte) {m j : Nat} (hl : bs.length = m)
    (hj : ¬ (32 * d.toNat ≤ j ∧ j < 32 * d.toNat + m)) : bufByte (memWrite s (32 * d.toNat) bs) j = bufByte s j := by
  rw [bufByte_memWrite, if_neg fun h => hj ⟨h.1, by rw [← hl]; exact h.2.1⟩]

/-- A point written to a point register leaves the other registers alone. -/
theorem feReg_setPtReg_other (s : State) (d : Field5) (v : Point) (hd : d.toNat < 8) {n : Nat}
    (hn : ¬ (n = 4 * d.toNat ∨ n = 4 * d.toNat + 1 ∨ n = 4 * d.toNat + 2)) : feReg (setPtReg s d.toNat v) n = feReg s n := by
  rw [not_or, not_or] at hn
  rw [feReg_setPtReg _ _ _ hd, if_neg hn.1, if_neg hn.2.1, if_neg hn.2.2]

theorem freeBytes_length (draw n : Nat) : (freeBytes draw n).length = n := by rw [freeBytes, List.length_map, List.length_range]

/-- Only the destinations of the command become free. -/
theorem unspecifyDestination_frame (i : Instr) (s : State) (hw : i.wf = true) :
    (∀ n, ¬ destRegs i n → feReg (unspecifyDestination i s) n = feReg s n) ∧
      (∀ j, ¬ destBytes i j → bufByte (unspecifyDestination i s) j = bufByte s j) := by
  have reg (d : Field5) (n : Nat) (hn : n ≠ d.toNat) (v : Fe) : feReg (countDraw (setFeReg s d.toNat v)) n = feReg s n := by
    rw [feReg_countDraw, feReg_setFeReg_ne _ _ hn]
  have bytes (d : Field5) (m j : Nat) (hj : ¬ (32 * d.toNat ≤ j ∧ j < 32 * d.toNat + m)) :
      bufByte (countDraw (memWrite s (32 * d.toNat) (freeBytes s.draws m))) j = bufByte s j := by
    rw [bufByte_countDraw, bufByte_memWrite_slot s d _ (freeBytes_length _ _) hj]
  have pt (d : Field5) (v : Point) (hd : d.toNat < 8) (n : Nat)
      (hn : ¬ (n = 4 * d.toNat ∨ n = 4 * d.toNat + 1 ∨ n = 4 * d.toNat + 2)) :
      feReg (countDraw (setPtReg s d.toNat v)) n = feReg s n := by
    rw [feReg_countDraw, feReg_setPtReg_other s d v hd hn]
  cases i with
  | feTobytes d a => exact ⟨fun _ _ => rfl, bytes d 32⟩
  | ptTobytes d a => exact ⟨fun _ _ => rfl, bytes d 64⟩
  | scalarmult d a b => exact ⟨fun _ _ => rfl, bytes d 64⟩
  | ptFrombytes d a => exact ⟨pt d _ (preg_lt (Bool.and_eq_true_iff.1 hw).1), fun _ _ => rfl⟩
  | ptAdd d a b => exact ⟨pt d _ (preg_lt (Bool.and_eq_true_iff.1 (Bool.and_eq_true_iff.1 hw).1).1), fun _ _ => rfl⟩
  | ptDbl d a => exact ⟨pt d _ (preg_lt (Bool.and_eq_true_iff.1 hw).1), fun _ _ => rfl⟩
  | feZero d => exact ⟨fun n hn => reg d n hn _, fun _ _ => rfl⟩
  | feOne d => exact ⟨fun n hn => reg d n hn _, fun _ _ => rfl⟩
  | feCopy d a => exact ⟨fun n hn => reg d n hn _, fun _ _ => rfl⟩
  | feAdd d a b => exact ⟨fun n hn => reg d n hn _, fun _ _ => rfl⟩
  | feSub d a b => exact ⟨fun n hn => reg d n hn _, fun _ _ => rfl⟩
  | feAdd2p d a => exact ⟨fun n hn => reg d n hn _, fun _ _ => rfl⟩
  | feAdd4p d a => exact ⟨fun n hn => reg d n hn _, fun _ _ => rfl⟩
  | feMul d a b => exact ⟨fun n hn => reg d n hn _, fun _ _ => rfl⟩
  | feSqr d a => exact ⟨fun n hn => reg d n hn _, fun _ _ => rfl⟩
  | feCarry d a => exact ⟨fun n hn => reg d n hn _, fun _ _ => rfl⟩
  | feReduce d a => exact ⟨fun n hn => reg d n hn _, fun _ _ => rfl⟩
  | feInv d a => exact ⟨fun n hn => reg d n hn _, fun _ _ => rfl⟩
  | feAddb d a => exact ⟨fun n hn => reg d n hn _, fun _ _ => rfl⟩
  | feMulb d a => exact ⟨fun n hn => reg d n hn _, fun _ _ => rfl⟩
  | feFrombytes d a => exact ⟨fun n hn => reg d n hn _, fun _ _ => rfl⟩

/-- The control state is not touched, and BUF keeps its canonical form. -/
theorem unspecifyDestination_control (i : Instr) (s : State) :
    (unspecifyDestination i s).cmd = s.cmd ∧ (unspecifyDestination i s).host = s.host ∧
      (bufWf s.buf = true → bufWf (unspecifyDestination i s).buf = true) := by
  cases i with
  | feTobytes d a => exact ⟨rfl, rfl, writeCells_wf _ _⟩
  | ptTobytes d a => exact ⟨rfl, rfl, writeCells_wf _ _⟩
  | scalarmult d a b => exact ⟨rfl, rfl, writeCells_wf _ _⟩
  | _ => exact ⟨rfl, rfl, id⟩

/-- The state after a pending command has been dropped, case by case. -/
theorem abandonPending_none {s : State} (h : s.pending = none) : abandonPending s = s := by unfold abandonPending; rw [h]

theorem abandonPending_ok {s : State} {w : Word} {i : Instr} (h : s.pending = some w) (hd : decode w = .ok i) :
    abandonPending s = scrubHidden { unspecifyDestination i s with pending := none } := by
  unfold abandonPending; rw [h]; dsimp only; rw [hd]

theorem abandonPending_error {s : State} {w : Word} {k : Cause} (h : s.pending = some w) (hd : decode w = .error k) :
    abandonPending s = scrubHidden { s with pending := none } := by
  unfold abandonPending; rw [h]; dsimp only; rw [hd]

/-- Everything about control that dropping the pending command does. -/
theorem abandonPending_control (s : State) :
    (abandonPending s).pending = none ∧ (abandonPending s).cmd = s.cmd ∧ (abandonPending s).host = s.host ∧
      (bufWf s.buf = true → bufWf (abandonPending s).buf = true) := by
  rcases hp : s.pending with _ | w
  · rw [abandonPending_none hp]; exact ⟨hp, rfl, rfl, id⟩
  · rcases hd : decode w with k | i
    · rw [abandonPending_error hp hd]; exact ⟨rfl, rfl, rfl, id⟩
    · rw [abandonPending_ok hp hd]
      obtain ⟨h1, h2, h3⟩ := unspecifyDestination_control i s
      exact ⟨rfl, h1, h2, h3⟩

/-- Dropping a pending command changes its destinations alone. -/
theorem abandonPending_frame {s : State} {w : Word} {i : Instr} (h : s.pending = some w) (hd : decode w = .ok i) :
    (∀ n, ¬ destRegs i n → feReg (abandonPending s) n = feReg s n) ∧
      (∀ j, ¬ destBytes i j → bufByte (abandonPending s) j = bufByte s j) := by
  rw [abandonPending_ok h hd]
  exact unspecifyDestination_frame i s (decode_wf hd)

/-- With nothing pending, or a word that names no command, nothing of the storage changes. -/
theorem abandonPending_same {s : State} (h : ∀ w i, s.pending = some w → decode w ≠ .ok i) :
    SameRegs s (abandonPending s) ∧ SameBytes s (abandonPending s) := by
  rcases hp : s.pending with _ | w
  · rw [abandonPending_none hp]; exact ⟨fun _ => rfl, fun _ => rfl⟩
  · rcases hd : decode w with k | i
    · rw [abandonPending_error hp hd]; exact ⟨fun _ => rfl, fun _ => rfl⟩
    · exact absurd hd (h w i hp)

end Sys2Proof.Machine
end

