-- ==== Sys2Proof/Tests/Slice0.lean ====
section
/-! SUPPORT. Small tests: expected values are those of 95_test_vectors.md (the vector is named at each test) and of the tables of
30_encoding.md. -/

namespace Sys2Proof.Machine

set_option Elab.async false

/-! ## Builders -/

/-- A limb vector from a list of limbs, limb 0 first. -/
def testFe (l : List Nat) : Fe := ofLimbs fun i => l.getD i 0

/-- The reset state with F0 and F1 set. -/
def testTwo (x y : Fe) : State := setFeReg (setFeReg State.reset 0 x) 1 y

/-- The reset state with the bytes of `v` in BUF from `off`. -/
def testBytes (off n v : Nat) : State := memWrite State.reset off (leBytes n v)

/-- The state after the command word `w`. -/
def testRun (s : State) (w : Nat) : State :=
  match step (s.withFetchWord 32 w) with
  | .next t => t
  | .fault _ => s
  | .refused _ => s

/-- The limbs of F[n]. -/
def testLimbs (s : State) (n : Nat) : List Nat := (List.range 10).map (limb (feReg s n))

/-- STATUS as a number. -/
def testStatus (s : State) : Nat := (statusWord s).toNat

/-- The y of the test point G = (5, y5). -/
def testY5 : Nat := 0x198a5526d943590ec7e9cf1ae99699c962b334fb30fe924a47372cab949152e2

/-- The reset state with G in P0. -/
def testG : State := setPtReg State.reset 0 ⟨limbs 5, limbs testY5, oneFe⟩

/-- The reset state with the 64 bytes of (x, y) in slots 0 and 1. -/
def testPoint (x y : Nat) : State := memWrite State.reset 0 (leBytes 32 x ++ leBytes 32 y)

/-- limbs(p − 2). -/
def testPm2 : List Nat :=
  [67108843, 33554431, 67108863, 33554431, 67108863, 33554431, 67108863, 33554431, 67108863, 33554431]

/-! ## WellFormed: each check has a term it refuses -/

theorem test_wf_preg_refuses : (Instr.ptAdd 8 0 0).wf = false ∧ (Instr.ptAdd 0 8 0).wf = false ∧ (Instr.ptAdd 0 0 8).wf = false ∧
    (Instr.ptDbl 8 0).wf = false ∧ (Instr.ptFrombytes 8 0).wf = false ∧ (Instr.ptTobytes 0 8).wf = false := by decide
theorem test_wf_slot_refuses : (Instr.feFrombytes 0 8).wf = false ∧ (Instr.feTobytes 8 0).wf = false ∧
    (Instr.scalarmult 0 8 0).wf = false := by decide
theorem test_wf_pslot_refuses : (Instr.ptFrombytes 0 7).wf = false ∧ (Instr.ptTobytes 7 0).wf = false ∧
    (Instr.scalarmult 7 0 0).wf = false ∧ (Instr.scalarmult 0 0 7).wf = false := by decide
theorem test_wf_unused_refuses : Kind.unused.legal 1 = false ∧ Kind.unused.legal 0 = true := by decide
theorem test_wf_boundary_accepts : (Instr.feMul 31 31 31).wf = true ∧ (Instr.ptAdd 7 7 7).wf = true ∧
    (Instr.scalarmult 6 7 6).wf = true ∧ (Instr.feTobytes 7 31).wf = true := by decide

/-! ## Decode: the words of 30_encoding.md R118, one for every command -/

theorem test_decode_feZero : decode 0x04600000#32 = .ok (.feZero 3) := rfl
theorem test_decode_feOne : decode 0x08800000#32 = .ok (.feOne 4) := rfl
theorem test_decode_feCopy : decode 0x0CA40000#32 = .ok (.feCopy 5 4) := rfl
theorem test_decode_feAdd : decode 0x10400800#32 = .ok (.feAdd 2 0 1) := rfl
theorem test_decode_feSub : decode 0x14400800#32 = .ok (.feSub 2 0 1) := rfl
theorem test_decode_feAdd2p : decode 0x18C00000#32 = .ok (.feAdd2p 6 0) := rfl
theorem test_decode_feAdd4p : decode 0x1CC00000#32 = .ok (.feAdd4p 6 0) := rfl
theorem test_decode_feMul : decode 0x20400800#32 = .ok (.feMul 2 0 1) := rfl
theorem test_decode_feSqr : decode 0x24210000#32 = .ok (.feSqr 1 1) := rfl
theorem test_decode_feCarry : decode 0x28E60000#32 = .ok (.feCarry 7 6) := rfl
theorem test_decode_feReduce : decode 0x2D070000#32 = .ok (.feReduce 8 7) := rfl
theorem test_decode_feInv : decode 0x31200000#32 = .ok (.feInv 9 0) := rfl
theorem test_decode_feAddb : decode 0x35400000#32 = .ok (.feAddb 10 0) := rfl
theorem test_decode_feMulb : decode 0x39600000#32 = .ok (.feMulb 11 0) := rfl
theorem test_decode_feFrombytes : decode 0x3C010000#32 = .ok (.feFrombytes 0 1) := rfl
theorem test_decode_feTobytes : decode 0x40420000#32 = .ok (.feTobytes 2 2) := rfl
theorem test_decode_ptFrombytes : decode 0x80000000#32 = .ok (.ptFrombytes 0 0) := rfl
theorem test_decode_ptTobytes : decode 0x84410000#32 = .ok (.ptTobytes 2 1) := rfl
theorem test_decode_ptAdd : decode 0x88400800#32 = .ok (.ptAdd 2 0 1) := rfl
theorem test_decode_ptDbl : decode 0x8C200000#32 = .ok (.ptDbl 1 0) := rfl
theorem test_decode_scalarmult : decode 0xC0800800#32 = .ok (.scalarmult 4 0 1) := rfl
theorem test_decode_every_field_at_its_largest : decode 0x23FFF800#32 = .ok (.feMul 31 31 31) := rfl

/-- Each bit of a word written out in R111's pattern `oooooo ddddd aaaaa bbbbb 00000000000`: OP 0x08, RD 21, RA 10, RB 19. -/
theorem test_decode_bit_by_bit :
    decode (0b001000#6 ++ 0b10101#5 ++ 0b01010#5 ++ 0b10011#5 ++ 0b00000000000#11) = .ok (.feMul 21 10 19) := rfl
theorem test_encode_bit_by_bit :
    encode (.scalarmult 5 6 2) = 0b110000#6 ++ 0b00101#5 ++ 0b00110#5 ++ 0b00010#5 ++ 0b00000000000#11 := by decide

/-! The error words of 95_test_vectors.md V-ENC, by the STATUS value the completion leaves. -/

theorem test_enc_reserved_opcodes : [0x00000000, 0x44000000, 0xFC000000, 0x47FFFFFF].map (fun w => testStatus (testRun State.reset w))
    = [0x104, 0x104, 0x104, 0x104] := by decide
theorem test_enc_illegal_operands : [0x04010000, 0x20400801, 0x89000000, 0x80070000, 0xC0E00000, 0x84E00000, 0x3C080000, 0x07FFFFFF].map
    (fun w => testStatus (testRun State.reset w)) = [0x204, 0x204, 0x204, 0x204, 0x204, 0x204, 0x204, 0x204] := by decide
theorem test_enc_highest_slot_runs : testStatus (testRun State.reset 0x40E00000) = 0x2 := by decide +kernel
theorem test_assembler_spelling : assembler (.scalarmult 4 0 1) = "scalarmult s4, s0, s1" ∧ assembler (.feZero 3) = "fe.zero f3" ∧
    assembler (.ptTobytes 2 1) = "pt.tobytes s2, p1" := by decide +kernel

/-- 30_encoding.md R119: its conditions on registers. -/
theorem test_pseudo_conditions : (Pseudo.feSub2p 1 0 1).legal = false ∧ (Pseudo.feNeg 1 1).legal = false ∧
    (Pseudo.ptIdent 8).legal = false ∧ (Pseudo.ptMov 7 7).legal = true ∧ (Pseudo.feDbl 3 3).legal = true := by decide

/-! ## Commands: one step each -/

/-- V-FE-1. -/
theorem test_feZero : testLimbs (testRun (setFeReg State.reset 3 oneFe) 0x04600000) 3 = [0, 0, 0, 0, 0, 0, 0, 0, 0, 0] := by
  decide +kernel
/-- V-FE-2. -/
theorem test_feOne : testLimbs (testRun State.reset 0x08800000) 4 = [1, 0, 0, 0, 0, 0, 0, 0, 0, 0] := by decide +kernel
/-- V-FE-3: a loose vector is copied as it stands. -/
theorem test_feCopy_keeps_loose : testLimbs (testRun (setFeReg State.reset 4 (testFe [134217693, 67108862, 0, 0, 0, 0, 0, 0, 0, 7]))
    0x0CA40000) 5 = [134217693, 67108862, 0, 0, 0, 0, 0, 0, 0, 7] := by decide +kernel
/-- V-FE-4: A + B', not carried. -/
theorem test_feAdd : testLimbs (testRun (testTwo
      (testFe [28036591, 13720034, 29220900, 20729182, 298261, 28036591, 27440068, 29220900, 41458364, 298261])
      (testFe [39072291, 19834397, 37887963, 12825249, 66810602, 5517840, 39668795, 4333531, 25650499, 33256170])) 0x10400800) 2
    = [67108882, 33554431, 67108863, 33554431, 67108863, 33554431, 67108863, 33554431, 67108863, 33554431] := by decide +kernel
/-- V-FE-5. -/
theorem test_feAdd_overflow : testStatus (testRun (testTwo (testFe [2 ^ 62]) (testFe [2 ^ 62])) 0x10400800) = 0x304 := by
  decide +kernel
/-- V-FE-6. -/
theorem test_feSub : testLimbs (testRun (testTwo (limbs 8) (limbs 5)) 0x14400800) 2 = [3, 0, 0, 0, 0, 0, 0, 0, 0, 0] := by
  decide +kernel
/-- V-FE-6. -/
theorem test_feSub_underflow : testStatus (testRun (testTwo (limbs 3) (limbs 5)) 0x14400800) = 0x404 := by decide +kernel
/-- V-FE-7. -/
theorem test_feAdd2p : testLimbs (testRun (testTwo (limbs 3) zeroFe) 0x18C00000) 6
    = [134217693, 67108862, 134217726, 67108862, 134217726, 67108862, 134217726, 67108862, 134217726, 67108862] := by decide +kernel
/-- V-FE-8. -/
theorem test_feAdd4p : testLimbs (testRun (testTwo (limbs 3) zeroFe) 0x1CC00000) 6
    = [268435383, 134217724, 268435452, 134217724, 268435452, 134217724, 268435452, 134217724, 268435452, 134217724] := by
  decide +kernel
/-- V-FE-10. -/
theorem test_feMul : testLimbs (testRun (testTwo
      (testFe [28036591, 13720034, 29220900, 20729182, 298261, 28036591, 27440068, 29220900, 41458364, 298261])
      (testFe [39072291, 19834397, 37887963, 12825249, 66810602, 5517840, 39668795, 4333531, 25650499, 33256170])) 0x20400800) 2
    = [33169171, 32391874, 8044889, 19825781, 62645544, 19081366, 23961675, 27982436, 28695418, 14496177] := by decide +kernel
/-- V-FE-12: every limb 2²⁷ stays below the bound. -/
theorem test_feMul_at_its_bound : testLimbs (testRun (testTwo (ofLimbs fun _ => 2 ^ 27) (ofLimbs fun _ => 2 ^ 27)) 0x20400800) 2
    = [7752, 1520, 2136, 1232, 1704, 944, 1272, 656, 840, 368] := by decide +kernel
/-- V-FE-13. -/
theorem test_feSqr : testLimbs (testRun (testTwo zeroFe (limbs (2 ^ 255 - 1))) 0x24210000) 1 = [324, 0, 0, 0, 0, 0, 0, 0, 0, 0] := by
  decide +kernel
/-- V-FE-14: the largest storable input. -/
theorem test_feCarry : testLimbs (testRun (setFeReg State.reset 6 (ofLimbs fun _ => 2 ^ 63 - 1)) 0x28E60000) 7
    = [77823, 77823, 4095, 4095, 4095, 4095, 4095, 4095, 4095, 4095] := by decide +kernel
/-- V-FE-14: 2²⁵⁵ + 5 folds to 24. -/
theorem test_feCarry_folds : testLimbs (testRun (setFeReg State.reset 6 (testFe [5, 0, 0, 0, 0, 0, 0, 0, 0, 2 ^ 25])) 0x28E60000) 7
    = [24, 0, 0, 0, 0, 0, 0, 0, 0, 0] := by decide +kernel
/-- V-FE-15. -/
theorem test_feReduce : testLimbs (testRun (setFeReg State.reset 7 (limbs (2 ^ 255 - 1))) 0x2D070000) 8
    = [18, 0, 0, 0, 0, 0, 0, 0, 0, 0] := by decide +kernel
/-- V-FE-16: the result for limbs(2) is (p+1)/2, checked by the one step of the chain's exponent on values. -/
theorem test_inverse_of_two : invp 2 = (p + 1) / 2 ∧ invp 0 = 0 := by decide +kernel
/-- V-FE-17. -/
theorem test_feAddb : testLimbs (testRun (testTwo (testFe [2 ^ 63 - 13319, 1]) zeroFe) 0x35400000) 10
    = [2 ^ 63 - 1, 1, 0, 0, 0, 0, 0, 0, 0, 0] := by decide +kernel
/-- V-FE-17. -/
theorem test_feAddb_overflow : testStatus (testRun (testTwo (testFe [2 ^ 63 - 13318]) zeroFe) 0x35400000) = 0x304 := by decide +kernel
/-- V-FE-18. -/
theorem test_feMulb : testLimbs (testRun (testTwo (testFe [2 ^ 49]) zeroFe) 0x39600000) 11
    = [0, 16777216, 3329, 0, 0, 0, 0, 0, 0, 0] := by decide +kernel
/-- V-FE-18. -/
theorem test_feMulb_overflow : testStatus (testRun (testTwo (testFe [2 ^ 50]) zeroFe) 0x39600000) = 0x304 := by decide +kernel
/-- V-FE-19: bit 255 is dropped. -/
theorem test_feFrombytes : val (feReg (testRun (testBytes 32 32 (2 ^ 256 - 1)) 0x3C010000) 0) = 2 ^ 255 - 1 := by decide +kernel
/-- V-FE-20. -/
theorem test_feTobytes : memRead (testRun (setFeReg State.reset 2 (limbs (p - 2))) 0x40420000) 64 32
    = 0xEB#8 :: List.replicate 30 0xFF#8 ++ [0x7F#8] := by decide +kernel
/-- V-PT-1. -/
theorem test_ptFrombytes : ptReg (testRun (testPoint 5 testY5) 0x80000000) 0 = ⟨limbs 5, limbs testY5, oneFe⟩ := by decide +kernel
/-- V-PT-2. -/
theorem test_ptFrombytes_invalid : testStatus (testRun (testPoint 5 (testY5 + 1)) 0x80000000) = 0x504 ∧
    testStatus (testRun (testPoint p 0) 0x80000000) = 0x504 := by decide +kernel
/-- V-PT-9: the identity encoding, also with both bits 255 set. -/
theorem test_ptFrombytes_identity : ptReg (testRun (testPoint (2 ^ 255) (2 ^ 255)) 0x80000000) 0 = ⟨zeroFe, oneFe, zeroFe⟩ := by
  decide +kernel
/-- V-PT-12: (10, 2·y5, 2) encodes as G. -/
theorem test_ptTobytes : memRead (testRun (setPtReg State.reset 1 ⟨limbs 10, limbs (2 * testY5 % p), limbs 2⟩) 0x84410000) 64 64
    = leBytes 32 5 ++ leBytes 32 testY5 := by decide +kernel
/-- V-PT-6: G + O. -/
theorem test_ptAdd : residues (ptReg (testRun (setPtReg testG 1 ⟨zeroFe, oneFe, zeroFe⟩) 0x88400800) 2)
    = ⟨0x7fb3a9c23e50bd49e7910b868ff100eeed8008e7f4f8db736413df59e6d69e6a, 0x3474, testY5⟩ := by decide +kernel
/-- V-PT-3. -/
theorem test_ptDbl : residues (ptReg (testRun testG 0x8C200000) 1) =
    ⟨0x24329a94f70a4e3a3c3ade917d0514035caf4f6770b6b66e1499aafde68a356b,
     0x7fffffffffffffffffffffffffffffffffffffffffffffffffffffffad74ceed,
     0x5fd3cde104dada70a01a7d237bd4ba68ffb83e2f488b00fbd098bf66b581ea0e⟩ := by decide +kernel
/-- V-SM-16. -/
theorem test_scalarmult_invalid : testStatus (testRun (memWrite (testBytes 0 32 7) 32 (leBytes 32 5 ++ leBytes 32 (testY5 + 1)))
    0xC0800800) = 0x504 := by decide +kernel
/-- V-SM-18: the recoding of 16, of 2²⁵⁵ − 1 and of 32 bytes 0x55. -/
theorem test_decompose : (decompose 16).1.take 3 = [-16, 1, 0] ∧ (decompose (2 ^ 255 - 1)).2 = 1 ∧
    (decompose (2 ^ 255 - 1)).1.take 2 = [-1, 0] ∧
    (decompose 0x5555555555555555555555555555555555555555555555555555555555555555).1.take 4 = [-11, 11, -11, 11] := by decide +kernel

/-! ## The host port and the control registers -/

/-- V-IF-1. -/
theorem test_reset_reads : idWord = 0x13318007#32 ∧ ctrlWord State.reset = 0 ∧ statusWord State.reset = 0 ∧ State.reset.cmd = 0 ∧
    irq State.reset = false := by decide
/-- V-IF-2: STATUS reads 1 while the command is pending and 2 after it. -/
theorem test_status_of_a_command : testStatus (acceptCommand State.reset 0x04600000#32) = 0x1 ∧
    testStatus (testRun State.reset 0x04600000) = 0x2 := by decide +kernel
/-- 70_reset_and_hazards.md R342: a read of STATUS counts as seeing the end when BUSY is 0, and an accepted command undoes it. -/
theorem test_polled : (readStatus State.reset).polled = true ∧ (readStatus (acceptCommand State.reset 0#32)).polled = false ∧
    (acceptCommand (readStatus State.reset) 0#32).polled = false := by decide
/-- V-IF-4: the sticky error. -/
theorem test_sticky_error : testStatus (writeCmd 0 (completeError .limbUnderflow State.reset)) = 0x40C ∧
    testStatus (writeStatus 0x4 (writeCmd 0 (completeError .limbUnderflow State.reset))) = 0x8 ∧
    testStatus (writeStatus 0x8 (writeStatus 0x4 (writeCmd 0 (completeError .limbUnderflow State.reset)))) = 0x0 := by decide +kernel
/-- V-IF-5: soft reset while FE_INV is pending. -/
theorem test_soft_reset : testStatus (writeCtrl 0x3 (acceptCommand State.reset 0x31200000#32)) = 0 ∧
    (writeCtrl 0x3 (acceptCommand State.reset 0x31200000#32)).ie = true ∧
    (writeCtrl 0x3 (acceptCommand State.reset 0x31200000#32)).cmd = 0x31200000#32 := by decide +kernel
/-- V-IF-6: the bus errors. -/
theorem test_bus_errors : locate 0x1000 4 = none ∧ locate 0x1004 8 = none ∧ locate 0x0014 4 = none ∧ locate 0x2100 1 = none ∧
    locate 0x008 2 = none := by decide
/-- V-IF-7: bit 63 is not stored. -/
theorem test_limb_storage : limb (feReg (hostWrite (.limb 0 0) 0xFFFFFFFFFFFFFFFF#64 State.reset) 0) 0 = 2 ^ 63 - 1 := by
  decide +kernel
/-- V-IF-8: address arithmetic. -/
theorem test_addresses : locate 0x1138 8 = some (.limb 3 9) ∧ locate 0x19F8 8 = some (.limb 31 9) ∧
    locate 0x20E0 8 = some (.bytes 0xE0 8) := by decide
/-- V-IF-8: the first eight bytes of G. -/
theorem test_buffer_read : (hostRead (.bytes 0 8) (testPoint 5 testY5)).resp = .data 5#64 := by decide +kernel
/-- 20_memory.md R87's example: a 64-bit write, then an 8-bit and a 16-bit read. -/
theorem test_mixed_widths :
    (hostRead (.bytes 3 1) (hostWrite (.bytes 0 8) 0x0807060504030201#64 State.reset)).resp = .data 4#64 ∧
    (hostRead (.bytes 6 2) (hostWrite (.bytes 0 8) 0x0807060504030201#64 State.reset)).resp = .data 0x0807#64 := by decide +kernel

/-! ## Witnesses: for each statement with hypotheses, a state and operands that meet them, for each clause at the ends of its range -/

/-- A pending command word with the core on turn. -/
def testPending (w : Word) : State := acceptCommand State.reset w

/-- The state whose next event is `e`. -/
def testEvent (s : State) (e : HostOp) : State := { s with host := [e] }

/-- An idle block with ERR = 1. -/
def testFailed : State := completeError .limbUnderflow State.reset

/-- A limb vector of ten equal limbs. -/
def testAll (v : Nat) : Fe := ofLimbs fun _ => v

/-- The reset state with a scalar in slot 0 and the point (x, y) in slots 1 and 2. -/
def testScalar (k x y : Nat) : State := memWrite (testBytes 0 32 k) 32 (leBytes 32 x ++ leBytes 32 y)

theorem isOk_of_toOption {α : Type} {r : Except Cause α} (h : r.toOption.isSome = true) : ∃ a, r = .ok a := by
  cases r with
  | ok a => exact ⟨a, rfl⟩
  | error k => cases h

theorem isError_of_toOption {α : Type} {r : Except Cause α} (h : r.toOption.isSome = false) : ∃ k, r = .error k := by
  cases r with
  | ok a => cases h
  | error k => exact ⟨k, rfl⟩

theorem witness_DecodeOfEncode : (Instr.scalarmult 6 7 6).wf = true ∧ (Instr.ptAdd 7 7 7).wf = true ∧ (Instr.feMul 31 31 31).wf = true := by
  decide
theorem witness_EncodeOfDecode : decode 0x23FFF800#32 = .ok (.feMul 31 31 31) ∧ decode 0xC0C73000#32 = .ok (.scalarmult 6 7 6) := ⟨rfl, rfl⟩
theorem witness_ReservedOpcodesAreRefused :
    (∀ op ∈ [0x00, 0x11, 0x1F, 0x24, 0x2F, 0x31, 0x3F], (testPending (packWord op 31 31 31)).pending = some (packWord op 31 31 31) ∧
      isReservedOpcode (opField (packWord op 31 31 31)).toNat = true) ∧
    (∀ op ∈ [0x01, 0x10, 0x20, 0x23, 0x30], (testPending (packWord op 0 0 0)).pending = some (packWord op 0 0 0) ∧
      isReservedOpcode (opField (packWord op 0 0 0)).toNat = false) := by decide
theorem witness_IllegalOperandsAreRefused_illegal :
    (0x21, Kind.pslot, Kind.preg, Kind.unused) ∈ kindTable ∧ (testPending 0x84E00000#32).pending = some 0x84E00000#32 ∧
    (opField 0x84E00000#32).toNat = 0x21 ∧ kindMax .pslot < (rdField 0x84E00000#32).toNat ∧
    (opField 0x84080000#32).toNat = 0x21 ∧ kindMax .preg < (raField 0x84080000#32).toNat ∧
    (opField 0x84000800#32).toNat = 0x21 ∧ kindMax .unused < (rbField 0x84000800#32).toNat ∧
    (opField 0x84000001#32).toNat = 0x21 ∧ zField 0x84000001#32 ≠ 0 := by decide
theorem witness_IllegalOperandsAreRefused_legal :
    (0x21, Kind.pslot, Kind.preg, Kind.unused) ∈ kindTable ∧
    (testPending (packWord 0x21 6 7 0)).pending = some (packWord 0x21 6 7 0) ∧ (opField (packWord 0x21 6 7 0)).toNat = 0x21 ∧
    zField (packWord 0x21 6 7 0) = 0 ∧ (rdField (packWord 0x21 6 7 0)).toNat ≤ kindMax .pslot ∧
    (raField (packWord 0x21 6 7 0)).toNat ≤ kindMax .preg ∧ (rbField (packWord 0x21 6 7 0)).toNat ≤ kindMax .unused := by decide
theorem witness_StepRunsPendingCommand_runs : (testPending 0x04600000#32).host = [] ∧ (testPending 0x04600000#32).pending = some 0x04600000#32 ∧
    decode 0x04600000#32 = .ok (.feZero 3) := ⟨rfl, rfl, rfl⟩
theorem witness_StepRunsPendingCommand_error : (∃ rest, (testEvent (testPending 0#32) .core).host = .core :: rest) ∧
    (testEvent (testPending 0#32) .core).pending = some 0#32 ∧ decode 0#32 = .error .illegalOpcode := ⟨⟨[], rfl⟩, rfl, rfl⟩
theorem witness_StepRunsPendingCommand_idle : State.reset.host = [] ∧ State.reset.pending = none := ⟨rfl, rfl⟩

/-! The adder: sums of 2⁶³ − 1 and of 2⁶³, and differences of 0 and of −1. -/

theorem witness_AddIsLimbwise_fits :
    ∀ i < 10, limb (feReg (testTwo (testAll (2 ^ 62)) (testAll (2 ^ 62 - 1))) (0 : Field5).toNat) i
      + limb (feReg (testTwo (testAll (2 ^ 62)) (testAll (2 ^ 62 - 1))) (1 : Field5).toNat) i < 2 ^ 63 := by decide +kernel
theorem witness_AddIsLimbwise_overflows :
    ∃ i < 10, 2 ^ 63 ≤ limb (feReg (testTwo (testFe [0, 2 ^ 62]) (testFe [0, 2 ^ 62])) (0 : Field5).toNat) i
      + limb (feReg (testTwo (testFe [0, 2 ^ 62]) (testFe [0, 2 ^ 62])) (1 : Field5).toNat) i := by decide +kernel
theorem witness_SubIsLimbwise_fits :
    ∀ i < 10, limb (feReg (testTwo (testAll 7) (testAll 7)) (1 : Field5).toNat) i
      ≤ limb (feReg (testTwo (testAll 7) (testAll 7)) (0 : Field5).toNat) i := by decide +kernel
theorem witness_SubIsLimbwise_underflows :
    ∃ i < 10, limb (feReg (testTwo (testAll 7) (testFe [0, 0, 0, 0, 0, 0, 0, 0, 0, 8])) (0 : Field5).toNat) i
      < limb (feReg (testTwo (testAll 7) (testFe [0, 0, 0, 0, 0, 0, 0, 0, 0, 8])) (1 : Field5).toNat) i := by decide +kernel
theorem witness_AddMultiplesOfTheModulus_fits :
    (∀ i < 10, limb (feReg (testTwo (testFe [2 ^ 63 - 134217691]) zeroFe) (0 : Field5).toNat) i +
      [134217690, 67108862, 134217726, 67108862, 134217726, 67108862, 134217726, 67108862, 134217726, 67108862].getD i 0 < 2 ^ 63) ∧
    (∀ i < 10, limb (feReg (testTwo (testFe [2 ^ 63 - 268435381]) zeroFe) (0 : Field5).toNat) i +
      [268435380, 134217724, 268435452, 134217724, 268435452, 134217724, 268435452, 134217724, 268435452, 134217724].getD i 0
        < 2 ^ 63) := by decide +kernel
theorem witness_AddMultiplesOfTheModulus_overflows :
    (∃ i < 10, 2 ^ 63 ≤ limb (feReg (testTwo (testFe [2 ^ 63 - 134217690]) zeroFe) (0 : Field5).toNat) i +
      [134217690, 67108862, 134217726, 67108862, 134217726, 67108862, 134217726, 67108862, 134217726, 67108862].getD i 0) ∧
    (∃ i < 10, 2 ^ 63 ≤ limb (feReg (testTwo (testFe [2 ^ 63 - 268435380]) zeroFe) (0 : Field5).toNat) i +
      [268435380, 134217724, 268435452, 134217724, 268435452, 134217724, 268435452, 134217724, 268435452, 134217724].getD i 0) := by
  decide +kernel
theorem witness_AddbAddsToLimbZero :
    limb (feReg (testTwo (testFe [2 ^ 63 - 13319]) zeroFe) (0 : Field5).toNat) 0 + 13318 < 2 ^ 63 ∧
    2 ^ 63 ≤ limb (feReg (testTwo (testFe [2 ^ 63 - 13318]) zeroFe) (0 : Field5).toNat) 0 + 13318 := by decide +kernel
theorem witness_SubtractionIdiom_twice_p :
    (1 : Field5) ≠ 2 ∧ (∀ i < 10, limb (feReg (testTwo zeroFe (limbs (2 ^ 255 - 1))) (0 : Field5).toNat) i + P2L i < 2 ^ 63) ∧
    isReduced (feReg (testTwo zeroFe (limbs (2 ^ 255 - 1))) (1 : Field5).toNat) ∧
    (∀ i < 10, limb (feReg (testTwo zeroFe (ofLimbs P2L)) (1 : Field5).toNat) i
      ≤ limb (feReg (testTwo zeroFe (ofLimbs P2L)) (0 : Field5).toNat) i + P2L i) := by unfold isReduced; decide +kernel
theorem witness_SubtractionIdiom_four_p :
    (1 : Field5) ≠ 2 ∧ (∀ i < 10, limb (feReg (testTwo zeroFe (ofLimbs P4L)) (0 : Field5).toNat) i + P4L i < 2 ^ 63) ∧
    (∀ i < 10, limb (feReg (testTwo zeroFe (ofLimbs fun i => 2 * (2 ^ RAD i - 1))) (1 : Field5).toNat) i ≤ 2 * (2 ^ RAD i - 1)) ∧
    (∀ i < 10, limb (feReg (testTwo zeroFe (ofLimbs P4L)) (1 : Field5).toNat) i
      ≤ limb (feReg (testTwo zeroFe (ofLimbs P4L)) (0 : Field5).toNat) i + P4L i) := by decide +kernel

/-! The multiplier, carry, reduce and the inverter. -/

theorem witness_MulStoresCarriedProduct_fits :
    ∀ k < 10, accMul (limb (feReg (testTwo (testAll (2 ^ 27)) (testAll (2 ^ 27))) (0 : Field5).toNat))
      (limb (feReg (testTwo (testAll (2 ^ 27)) (testAll (2 ^ 27))) (1 : Field5).toNat)) k < 2 ^ 63 := by decide +kernel
theorem witness_MulStoresCarriedProduct_overflows :
    ∃ k < 10, 2 ^ 63 ≤ accMul (limb (feReg (testTwo (testFe [2 ^ 32]) (testFe [2 ^ 31])) (0 : Field5).toNat))
      (limb (feReg (testTwo (testFe [2 ^ 32]) (testFe [2 ^ 31])) (1 : Field5).toNat)) k := by decide +kernel
theorem witness_MulOperandBounds :
    (∀ i < 10, limb (feReg (testTwo (testAll (2 ^ 27)) (testAll (2 ^ 27))) (0 : Field5).toNat) i ≤ 2 ^ 27) ∧
    (∀ i < 10, limb (feReg (testTwo (testAll (2 ^ 27)) (testAll (2 ^ 27))) (1 : Field5).toNat) i ≤ 2 ^ 27) ∧
    isReduced (feReg (testTwo (limbs (2 ^ 255 - 1)) (limbs (2 ^ 255 - 1))) (0 : Field5).toNat) ∧
    isReduced (feReg (testTwo (limbs (2 ^ 255 - 1)) (limbs (2 ^ 255 - 1))) (1 : Field5).toNat) := by unfold isReduced; decide +kernel
theorem witness_SqrIsMulOfItself :
    ∀ k < 10, accMul (limb (feReg (testTwo (testAll (2 ^ 27)) zeroFe) (0 : Field5).toNat))
      (limb (feReg (testTwo (testAll (2 ^ 27)) zeroFe) (0 : Field5).toNat)) k < 2 ^ 63 := by decide +kernel
theorem witness_SqrIsMulOfItself_overflows :
    ∃ k < 10, 2 ^ 63 ≤ accMul (limb (feReg (testTwo (testFe [2 ^ 32]) zeroFe) (0 : Field5).toNat))
      (limb (feReg (testTwo (testFe [2 ^ 32]) zeroFe) (0 : Field5).toNat)) k := by decide +kernel
theorem witness_MulbStoresScaledValue :
    (∀ i < 10, 13318 * limb (feReg (testTwo (testAll (2 ^ 63 / 13318)) zeroFe) (0 : Field5).toNat) i < 2 ^ 63) ∧
    (∀ i < 10, limb (feReg (testTwo (testAll (2 ^ 49 - 1)) zeroFe) (0 : Field5).toNat) i < 2 ^ 49) ∧
    (∃ i < 10, 2 ^ 63 ≤ 13318 * limb (feReg (testTwo (testFe [2 ^ 63 / 13318 + 1]) zeroFe) (0 : Field5).toNat) i) := by decide +kernel
theorem witness_CarryRestoresTheRadix :
    val (feReg (testTwo (limbs (2 ^ 255 - 1)) zeroFe) (0 : Field5).toNat) < 2 ^ 255 ∧
    isReduced (feReg (testTwo (limbs (2 ^ 255 - 1)) zeroFe) (0 : Field5).toNat) ∧
    2 ^ 255 ≤ val (feReg (testTwo (testFe [0, 0, 0, 0, 0, 0, 0, 0, 0, 2 ^ 25]) zeroFe) (0 : Field5).toNat) := by
  unfold isReduced; decide +kernel
theorem witness_CarryScheduleIsComplete : (0 : Nat) < 10 ∧ (9 : Nat) < 10 := by decide
theorem witness_ReduceIsCanonical : isCanonical (feReg (testTwo (limbs (p - 1)) zeroFe) (0 : Field5).toNat) := by
  unfold isCanonical isReduced; decide +kernel
theorem witness_InvIsThePower : val (feReg (testTwo zeroFe oneFe) (0 : Field5).toNat) = 0 := by decide +kernel
theorem witness_InvInverts : (2 : Field5) ≠ 0 ∧ isReduced (feReg (testTwo (limbs (2 ^ 255 - 1)) zeroFe) (0 : Field5).toNat) ∧
    val (feReg (testTwo (limbs (2 ^ 255 - 1)) zeroFe) (0 : Field5).toNat) % p ≠ 0 := by unfold isReduced; decide +kernel

/-! The wire formats. -/

theorem witness_FromBytesDecodes : (Instr.feFrombytes 31 7).wf = true := by decide
theorem witness_ToBytesEncodes : (Instr.feTobytes 7 31).wf = true := by decide
theorem witness_FieldRoundTrip : (Instr.feFrombytes 31 7).wf = true ∧ (Instr.feTobytes 0 31).wf = true := by decide
theorem witness_PointDecoding_identity : (Instr.ptFrombytes 7 0).wf = true ∧
    le ((List.range 32).map fun k => bufByte (testPoint (2 ^ 255) (2 ^ 255)) (32 * (0 : Field5).toNat + k)) % 2 ^ 255 = 0 ∧
    le ((List.range 32).map fun k => bufByte (testPoint (2 ^ 255) (2 ^ 255)) (32 * (0 : Field5).toNat + 32 + k)) % 2 ^ 255 = 0 := by
  decide +kernel
theorem witness_curve_G : ((testY5 : Nat) : ZMod p) ^ 2 = ((5 : Nat) : ZMod p) ^ 3 - 3 * ((5 : Nat) : ZMod p) + 13318 :=
  (onCurve_iff _ _).1 (by decide +kernel)
theorem witness_not_curve : ¬ (((testY5 + 1 : Nat) : ZMod p) ^ 2 = ((5 : Nat) : ZMod p) ^ 3 - 3 * ((5 : Nat) : ZMod p) + 13318) := by
  rw [← onCurve_iff]; decide +kernel
theorem witness_PointDecoding_curve :
    le ((List.range 32).map fun k => bufByte (testPoint 5 testY5) (32 * (0 : Field5).toNat + k)) % 2 ^ 255 = 5 ∧
    le ((List.range 32).map fun k => bufByte (testPoint 5 testY5) (32 * (0 : Field5).toNat + 32 + k)) % 2 ^ 255 = testY5 ∧
    ¬ (5 = 0 ∧ testY5 = 0) := by decide +kernel
theorem witness_PointDecoding_invalid :
    le ((List.range 32).map fun k => bufByte (testPoint 5 (testY5 + 1)) (32 * (0 : Field5).toNat + k)) % 2 ^ 255 = 5 ∧
    le ((List.range 32).map fun k => bufByte (testPoint 5 (testY5 + 1)) (32 * (0 : Field5).toNat + 32 + k)) % 2 ^ 255 = testY5 + 1 ∧
    ¬ (5 = 0 ∧ testY5 + 1 = 0) := by decide +kernel
theorem witness_PointEncoding : (Instr.ptTobytes 6 7).wf = true ∧ val (ptReg testG (0 : Field5).toNat).z % p ≠ 0 ∧
    val (ptReg State.reset (0 : Field5).toNat).z % p = 0 := by decide +kernel
theorem witness_PointAdditionResult : (Instr.ptAdd 7 0 7).wf = true := by decide
theorem witness_PointDoublingResult : (Instr.ptDbl 7 7).wf = true := by decide
/-- G, −G, O, and O in the form (0, p − 1, 0): equal, opposite and identity operands of the addition. -/
theorem witness_CompleteAddition : Denotes ⟨5, testY5, 1⟩ (.affine 5 testY5) ∧ Denotes ⟨5, p - testY5, 1⟩ (.affine 5 (p - testY5)) ∧
    Denotes ⟨0, 1, 0⟩ .infinity ∧ Denotes ⟨0, p - 1, 0⟩ .infinity :=
  ⟨⟨by decide +kernel, by decide +kernel, by decide +kernel⟩, ⟨by decide +kernel, by decide +kernel, by decide +kernel⟩,
    ⟨by decide +kernel, by decide +kernel, by decide +kernel⟩, ⟨by decide +kernel, by decide +kernel, by decide +kernel⟩⟩
theorem witness_CompleteDoubling : Denotes ⟨10, 2 * testY5, 2⟩ (.affine 5 testY5) :=
  ⟨by decide +kernel, by decide +kernel, by decide +kernel⟩
theorem witness_ZeroTripleIsAbsorbing : (⟨p, p, 1⟩ : Triple).Z % p ≠ 0 ∧ denoted ⟨1, 0, p⟩ = some .infinity ∧
    denoted ⟨0, p, 2 * p⟩ = none := by decide +kernel
/-- G comes back as it was; its curve premise is `witness_curve_G`. -/
theorem witness_PointRoundTrip_point : (Instr.ptFrombytes 7 0).wf = true ∧ (Instr.ptTobytes 6 7).wf = true ∧
    le ((List.range 32).map fun k => bufByte (testPoint 5 testY5) (32 * (0 : Field5).toNat + k)) = 5 ∧
    le ((List.range 32).map fun k => bufByte (testPoint 5 testY5) (32 * (0 : Field5).toNat + 32 + k)) = testY5 ∧
    5 % 2 ^ 255 = 5 ∧ testY5 % 2 ^ 255 = testY5 ∧ 5 < p ∧ testY5 < p := by decide +kernel
theorem witness_PointRoundTrip_identity :
    le ((List.range 32).map fun k => bufByte (testPoint 0 0) (32 * (0 : Field5).toNat + k)) % 2 ^ 255 = 0 ∧
    le ((List.range 32).map fun k => bufByte (testPoint 0 0) (32 * (0 : Field5).toNat + 32 + k)) % 2 ^ 255 = 0 := by decide +kernel

/-! The ladder. -/

theorem witness_LookupSelects : (-16 : Int) ≤ -16 ∧ (-16 : Int) ≤ 15 ∧ (-16 : Int) ≤ 15 ∧ (15 : Int) ≤ 15 ∧ 2 ≤ 2 ∧ 16 ≤ 16 := by decide
/-- 41_point_layer.md R208: select on tables of two points. -/
theorem test_selectTable : selectTable true [identityPoint, zeroPoint] [zeroPoint, identityPoint] = [identityPoint, zeroPoint] ∧
    selectTable false [identityPoint, zeroPoint] [zeroPoint, identityPoint] = [zeroPoint, identityPoint] ∧
    selectFeTable false [oneFe, zeroFe] [zeroFe, oneFe] = [zeroFe, oneFe] := by decide +kernel
/-- The clause where the point decodes: G in slots 1 and 2, with `witness_curve_G`. -/
theorem witness_ScalarMultFrame_decodes : (Instr.scalarmult 6 0 1).wf = true ∧
    le ((List.range 32).map fun k => bufByte (testScalar 7 5 testY5) (32 * (1 : Field5).toNat + k)) % 2 ^ 255 = 5 ∧
    le ((List.range 32).map fun k => bufByte (testScalar 7 5 testY5) (32 * (1 : Field5).toNat + 32 + k)) % 2 ^ 255 = testY5 := by
  decide +kernel
/-- The clause where it does not, with `witness_not_curve`. -/
theorem witness_ScalarMultFrame_invalid :
    le ((List.range 32).map fun k => bufByte (testScalar 7 5 (testY5 + 1)) (32 * (1 : Field5).toNat + k)) % 2 ^ 255 = 5 ∧
    le ((List.range 32).map fun k => bufByte (testScalar 7 5 (testY5 + 1)) (32 * (1 : Field5).toNat + 32 + k)) % 2 ^ 255
      = testY5 + 1 := by decide +kernel
theorem witness_ScalarMultIsPure : (Instr.scalarmult 4 0 1).wf = true ∧ (Instr.scalarmult 6 7 0).wf = true ∧
    (∀ k < 32, bufByte (testScalar 7 5 testY5) (32 * (0 : Field5).toNat + k)
      = bufByte (memWrite (testPoint 5 testY5) 224 (leBytes 32 7)) (32 * (7 : Field5).toNat + k)) ∧
    (∀ k < 64, bufByte (testScalar 7 5 testY5) (32 * (1 : Field5).toNat + k)
      = bufByte (memWrite (testPoint 5 testY5) 224 (leBytes 32 7)) (32 * (0 : Field5).toNat + k)) ∧
    (testScalar 7 5 testY5).status = (memWrite (testPoint 5 testY5) 224 (leBytes 32 7)).status ∧
    (testScalar 7 5 testY5).status.done = false := by decide +kernel
theorem witness_ScalarMultIsPure_succeeds :
    (match exec (.scalarmult 4 0 1) (testScalar 7 5 testY5) with
      | .next t => t.status.done
      | .fault _ => false
      | .refused _ => false) = true := by decide +kernel
theorem witness_ScalarMultIsScalarMultiple : (Instr.scalarmult 4 0 1).wf = true ∧ ¬ (5 = 0 ∧ testY5 = 0) ∧
    (AffinePoint.affine (5 % p) (testY5 % p)).valid = true ∧
    le ((List.range 32).map fun k => bufByte (testScalar 7 5 testY5) (32 * (1 : Field5).toNat + k)) % 2 ^ 255 = 5 ∧
    le ((List.range 32).map fun k => bufByte (testScalar 7 5 testY5) (32 * (1 : Field5).toNat + 32 + k)) % 2 ^ 255 = testY5 := by
  decide +kernel
/-- The clause Q = O. -/
theorem witness_ScalarMultIsScalarMultiple_identity :
    le ((List.range 32).map fun k => bufByte (testScalar 7 0 0) (32 * (1 : Field5).toNat + k)) % 2 ^ 255 = 0 ∧
    le ((List.range 32).map fun k => bufByte (testScalar 7 0 0) (32 * (1 : Field5).toNat + 32 + k)) % 2 ^ 255 = 0 ∧
    AffinePoint.infinity.valid = true := by decide +kernel
theorem witness_ScalarMultOfIdentity : (Instr.scalarmult 4 0 1).wf = true ∧
    (∀ k < 64, bufByte (testScalar 7 0 0) (32 * (1 : Field5).toNat + k) = 0) := by decide +kernel
theorem witness_LadderRegisterReads_valid :
    (testEvent (acceptCommand (testScalar 7 5 testY5) 0xC0800800#32) (.read (Config.base + 0x010) 4)).host
      = [.read (Config.base + 0x010) 4] ∧
    (acceptCommand (testScalar 7 5 testY5) 0xC0800800#32).status.busy = true ∧
    (acceptCommand (testScalar 7 5 testY5) 0xC0800800#32).pending = some 0xC0800800#32 ∧
    decode 0xC0800800#32 = .ok (.scalarmult 4 0 1) ∧
    ∃ P, decodePoint (readQ (acceptCommand (testScalar 7 5 testY5) 0xC0800800#32) 1) = .ok P :=
  ⟨rfl, rfl, rfl, rfl, isOk_of_toOption (by decide +kernel)⟩
theorem witness_LadderRegisterReads_invalid :
    (acceptCommand (testScalar 7 5 (testY5 + 1)) 0xC0800800#32).pending = some 0xC0800800#32 ∧
    ∃ k, decodePoint (readQ (acceptCommand (testScalar 7 5 (testY5 + 1)) 0xC0800800#32) 1) = .error k :=
  ⟨rfl, isError_of_toOption (by decide +kernel)⟩
theorem witness_LadderRegisterReads_zero : (testEvent State.reset (.read (Config.base + 0x010) 4)).status.busy = false ∧
    (testPending 0x04600000#32).pending = some 0x04600000#32 ∧ decode 0x04600000#32 = .ok (.feZero 3) := ⟨rfl, rfl, rfl⟩
/-- The opcode of SCALARMULT with point slot 7. -/
theorem witness_LadderRegisterReads_illegal : (testPending 0xC0E00000#32).status.busy = true ∧
    (testPending 0xC0E00000#32).pending = some 0xC0E00000#32 ∧ decode 0xC0E00000#32 = .error .illegalOperand := ⟨rfl, rfl, rfl⟩

/-! All commands, acceptance, status, resets and the host port. -/

theorem witness_EveryCommandCompletes : (Instr.scalarmult 6 7 6).wf = true := by decide
theorem witness_CommandsWriteOnlyTheirDestination : (Instr.feZero 3).wf = true ∧ ∃ t, exec (.feZero 3) State.reset = .next t :=
  ⟨by decide, _, rfl⟩
theorem witness_CommandAcceptance_accepted :
    (testEvent State.reset (.write (Config.base + 0x00C) 4 0x04600000#64)).host = [.write (Config.base + 0x00C) 4 0x04600000#64] ∧
    State.reset.status.busy = false ∧ State.reset.status.err = false := ⟨rfl, rfl, rfl⟩
theorem witness_CommandAcceptance_refused :
    (testEvent testFailed (.write (Config.base + 0x00C) 4 0x04600000#64)).host = [.write (Config.base + 0x00C) 4 0x04600000#64] ∧
    (testPending 0#32).status.busy = true ∧ testFailed.status.err = true := ⟨rfl, rfl, rfl⟩
theorem witness_StatusIsWriteOneToClear :
    (testEvent testFailed (.write (Config.base + 0x008) 4 0xC#64)).host = [.write (Config.base + 0x008) 4 0xC#64] := rfl
theorem witness_StatusIsWriteOneToClear_ignored :
    (testEvent testFailed (.write (Config.base + 0x000) 4 0#64)).host = [.write (Config.base + 0x000) 4 0#64] ∧
    (testEvent testFailed (.write (Config.base + 0x010) 4 0#64)).host = [.write (Config.base + 0x010) 4 0#64] := ⟨rfl, rfl⟩
theorem witness_StatusWordLayout_reads : ∀ off ∈ [0x000, 0x004, 0x008, 0x00C],
    (testEvent testFailed (.read (Config.base + off) 4)).host = [.read (Config.base + off) 4] := fun _ _ => rfl
theorem witness_StickyErrorAndReturn : testFailed.status.busy = false ∧ testFailed.status.err = true ∧
    ({ testFailed with host := [.write (Config.base + 0x00C) 4 0x18C00000#64, .write (Config.base + 0x008) 4 4,
        .write (Config.base + 0x00C) 4 0x18C00000#64] } : State).host
      = [.write (Config.base + 0x00C) 4 0x18C00000#64, .write (Config.base + 0x008) 4 4,
        .write (Config.base + 0x00C) 4 0x18C00000#64] ++ [] := ⟨rfl, rfl, rfl⟩
theorem witness_StatusBitsAreSticky_cleared :
    (∃ t, step (testEvent (setOverrun State.reset) (.write (Config.base + 0x008) 4 8#64)) = .next t ∧ t.status.ovr = false) ∧
    (∃ t, step (testEvent testFailed (.write (Config.base + 0x008) 4 4#64)) = .next t ∧ t.status.err = false) ∧
    (∃ t, step (testEvent (completeSuccess State.reset) (.write (Config.base + 0x00C) 4 0#64)) = .next t ∧ t.status.done = false) ∧
    (setOverrun State.reset).status.ovr = true ∧ testFailed.status.err = true ∧ (completeSuccess State.reset).status.done = true :=
  ⟨⟨_, step_write rfl (by decide) rfl, rfl⟩, ⟨_, step_write rfl (by decide) rfl, rfl⟩, ⟨_, step_write rfl (by decide) rfl, rfl⟩,
    rfl, rfl, rfl⟩
theorem witness_StatusBitsAreSticky_busy : (testPending 0#32).status.busy = true ∧
    ∃ t, step (testPending 0#32) = .next t ∧ t.status.busy = false :=
  ⟨rfl, completeError .illegalOpcode (testPending 0#32),
    (step_of_nil (s := testPending 0#32) rfl).trans (coreStep_error (w := 0#32) rfl rfl), rfl⟩
theorem witness_InterruptOutput : (Instr.feZero 3).wf = true ∧ ({ State.reset with ie := true } : State).ie = true ∧
    (∃ t, exec (.feZero 3) { State.reset with ie := true } = .next t) ∧
    ∃ t, step (testEvent State.reset (.write (Config.base + 0x00C) 4 0x04600000#64)) = .next t :=
  ⟨by decide, rfl, ⟨_, rfl⟩, _, step_write rfl (by decide) rfl⟩
theorem witness_InterruptOutput_error : ({ testPending 0#32 with ie := true } : State).pending = some 0#32 ∧
    ∃ t, coreStep { testPending 0#32 with ie := true } = .next t := ⟨rfl, _, coreStep_error rfl rfl⟩
theorem witness_PowerOnReset : (testEvent (testPending 0#32) .powerOn).host = [.powerOn] := rfl
theorem witness_SoftReset : (testEvent (testPending 0x31200000#32) (.write (Config.base + 0x004) 4 3#64)).host
      = [.write (Config.base + 0x004) 4 3#64] ∧ (3#64 : Dword).getLsbD 1 = true ∧ (1#64 : Dword).getLsbD 1 = false ∧
    (testPending 0x31200000#32).pending = some 0x31200000#32 ∧ decode 0x31200000#32 = .ok (.feInv 9 0) ∧
    State.reset.pending = none := ⟨rfl, rfl, rfl, rfl, rfl, rfl⟩
/-- A pending word that decodes to no command. -/
theorem witness_SoftReset_undecodable : (testEvent (testPending 0#32) (.write (Config.base + 0x004) 4 2#64)).host
      = [.write (Config.base + 0x004) 4 2#64] ∧ (2#64 : Dword).getLsbD 1 = true ∧
    ∀ w i, (testPending 0#32).pending = some w → decode w ≠ .ok i := by
  refine ⟨rfl, rfl, ?_⟩
  intro w i h
  obtain rfl : 0#32 = w := Option.some.inj h
  nofun
theorem witness_LimbWindow : State.reset.status.busy = false ∧
    (testEvent State.reset (.write (Config.base + (0x1000 + 0x50 * 31 + 8 * 9)) 8 0#64)).host
      = [.write (Config.base + (0x1000 + 0x50 * 31 + 8 * 9)) 8 0#64] ∧
    (testEvent State.reset (.read (Config.base + (0x1000 + 0x50 * 31 + 8 * 9)) 8)).host
      = [.read (Config.base + (0x1000 + 0x50 * 31 + 8 * 9)) 8] := ⟨rfl, rfl, rfl⟩
theorem witness_BufferAccesses : 248 % 8 = 0 ∧ 255 % 1 = 0 ∧ 254 % 2 = 0 ∧ 252 % 4 = 0 ∧ State.reset.status.busy = false ∧
    (testEvent State.reset (.write (Config.base + (0x2000 + 248)) 8 1#64)).host = [.write (Config.base + (0x2000 + 248)) 8 1#64] ∧
    (testEvent State.reset (.read (Config.base + (0x2000 + 255)) 1)).host = [.read (Config.base + (0x2000 + 255)) 1] :=
  ⟨rfl, rfl, rfl, rfl, rfl, rfl, rfl⟩
theorem witness_BusyRefusesDataWrites : (testPending 0#32).status.busy = true ∧ isTaken 0x1000 8 ∧ isTaken 0x19F8 8 ∧ isTaken 0x20FF 1 ∧
    (testEvent (testPending 0#32) (.write (Config.base + 0x1000) 8 1#64)).host = [.write (Config.base + 0x1000) 8 1#64] := by
  refine ⟨rfl, ?_, ?_, ?_, rfl⟩ <;> unfold isTaken <;> decide
theorem witness_ReadsChangeNothing : ∃ t, step (testEvent (testPending 0#32) (.read (Config.base + 0x008) 4)) = .next t :=
  ⟨_, step_read rfl (by decide) rfl⟩
theorem witness_BusErrors : isTaken 0x010 4 ∧ isTaken 0x20F8 8 ∧ ¬ isTaken 0x014 4 ∧ ¬ isTaken 0x1004 8 ∧ ¬ isTaken 0x2100 1 ∧
    ¬ isTaken 0x008 2 ∧ Config.base + 0x3000 ≤ Config.base + 0x3000 ∧
    (testEvent State.reset (.read (Config.base + 0x3000) 4)).host = [.read (Config.base + 0x3000) 4] := by
  refine ⟨?_, ?_, ?_, ?_, ?_, ?_, le_refl _, rfl⟩ <;> unfold isTaken <;> decide

theorem witness_pending_invariant (e : HostOp) : Inv (testEvent (testPending 0x04600000#32) e) :=
  ⟨rfl, rfl, fun _ => ⟨rfl, rfl⟩, (by intro h; cases h.1), ⟨(by intro h; cases h), fun h => (h rfl).elim⟩, (by intro w h; cases h; rfl), nofun⟩
theorem witness_StepKeepsInvariant : Inv (testEvent (testPending 0x04600000#32) .core) ∧
    ∃ t, step (testEvent (testPending 0x04600000#32) .core) = .next t := ⟨witness_pending_invariant _, _, rfl⟩
theorem witness_PendingSourcesAreStable : Inv (testEvent (testPending 0x04600000#32) (.write (Config.base + 0x1000) 8 1#64)) ∧
    (testPending 0x04600000#32).pending = some 0x04600000#32 ∧ decode 0x04600000#32 = .ok (.feZero 3) ∧
    (∀ v : Dword, v.getLsbD 1 = true → HostOp.write (Config.base + 0x1000) 8 1#64 ≠ .write (Config.base + 0x004) 4 v) ∧
    HostOp.write (Config.base + 0x1000) 8 1#64 ≠ .core ∧ HostOp.write (Config.base + 0x1000) 8 1#64 ≠ .powerOn ∧
    ∃ t, step (testEvent (testPending 0x04600000#32) (.write (Config.base + 0x1000) 8 1#64)) = .next t :=
  ⟨witness_pending_invariant _, rfl, rfl, (by intro v _ h; injection h with h1 h2; cases h2), nofun, nofun,
    _, step_write rfl (by decide) rfl⟩
theorem witness_CommandScriptsRun : Idle { State.reset with host := commandScript [.feZero 3, .feMul 31 31 31] } ∧
    (∀ i ∈ [Instr.feZero 3, .feMul 31 31 31], i.wf = true) := ⟨⟨rfl, rfl, rfl⟩, by decide⟩
/-- A host that reads STATUS for ever from reset. -/
theorem witness_CommandScriptsRun_run :
    ∃ σ : Nat → State, Inv (σ 0) ∧ isRun σ (fun _ => pollStatus) ∧ isFair σ (fun _ => pollStatus) := by
  refine ⟨fun n => if n = 0 then State.reset else readStatus State.reset, ?_, ?_, ?_⟩
  · exact ⟨rfl, rfl, (by intro h; cases h), (by intro h; cases h.1), ⟨(by intro h; cases h), fun h => (h rfl).elim⟩,
      (by intro w h; cases h), nofun⟩
  · intro n
    refine (access_located (t := .status) hostRead _ (by decide) rfl).trans ?_
    cases n <;> rfl
  · intro n h
    have := h (n + 1) (Nat.le_succ n)
    cases this
theorem witness_NegationPseudoInstruction :
    Idle { testTwo (ofLimbs P2L) zeroFe with host := commandScript (expand (.feNeg 1 0)) } ∧ (1 : Field5) ≠ 0 ∧
    (∀ i < 10, limb (feReg (testTwo (ofLimbs P2L) zeroFe) (0 : Field5).toNat) i ≤ P2L i) :=
  ⟨⟨rfl, rfl, rfl⟩, by decide, by decide +kernel⟩

end Sys2Proof.Machine
end

section
/-! What one step can do to the command state of the block (10_state.md R42, R43), said once, and from it the invariant and the
stickiness of STATUS; then the control registers' own statements. -/

namespace Sys2Proof.Machine

/-! ## Operations that leave the command state alone -/

/-- `u` has the STATUS, the latch and the CMD read-back of `s`, its host has seen BUSY = 0 only if it had or BUSY is 0, and BUF is
still canonical: a change of storage, of hidden state or of the model's bookkeeping alone. -/
structure KeepsCommand (s u : State) : Prop where
  status : u.status = s.status
  pending : u.pending = s.pending
  cmd : u.cmd = s.cmd
  polled : u.polled = true → s.polled = true ∨ s.status.busy = false
  buf : bufWf s.buf = true → bufWf u.buf = true

/-- The state in which a host write acts on its target: its event is taken and the port acknowledges it. -/
def acked (s : State) (rest : List HostOp) : State := { s with host := rest, resp := .ack }

namespace KeepsCommand

variable {s t u : State}

theorem refl (s : State) : KeepsCommand s s := ⟨rfl, rfl, rfl, .inl, id⟩

theorem trans (h : KeepsCommand s t) (g : KeepsCommand t u) : KeepsCommand s u where
  status := g.status.trans h.status
  pending := g.pending.trans h.pending
  cmd := g.cmd.trans h.cmd
  polled hp := (g.polled hp).elim h.polled fun hb => .inr (by rw [← h.status]; exact hb)
  buf hb := g.buf (h.buf hb)

theorem setFeReg (h : KeepsCommand s u) (n : Nat) (v : Fe) : KeepsCommand s (setFeReg u n v) :=
  h.trans ⟨rfl, rfl, rfl, .inl, id⟩

theorem setPtReg (h : KeepsCommand s u) (n : Nat) (P : Point) : KeepsCommand s (setPtReg u n P) :=
  h.trans ⟨rfl, rfl, rfl, .inl, id⟩

theorem memWrite (h : KeepsCommand s u) (off : Nat) (bs : List Byte) : KeepsCommand s (memWrite u off bs) :=
  h.trans ⟨rfl, rfl, rfl, .inl, writeCells_wf bs off⟩

theorem of_startsFrom (h : startsFrom s u) : KeepsCommand s u := by
  rcases h with rfl | rfl
  · exact refl u
  · exact ⟨rfl, rfl, rfl, .inl, id⟩

theorem withHost (s : State) (rest : List HostOp) : KeepsCommand s { s with host := rest } := ⟨rfl, rfl, rfl, .inl, id⟩

theorem acked (s : State) (rest : List HostOp) : KeepsCommand s (acked s rest) := ⟨rfl, rfl, rfl, .inl, id⟩

theorem hostRead (g : Target) (s : State) : KeepsCommand s (hostRead g s) := by
  obtain ⟨r, d, q, e, hq⟩ := hostRead_frame g s
  rw [e]
  exact ⟨rfl, rfl, rfl, hq, id⟩

end KeepsCommand

/-! ## The writes, case by case -/

section HostWrite

variable (s : State) (rest : List HostOp) (v : Dword)

theorem hostWrite_id : hostWrite .id v { s with host := rest } = acked s rest := rfl
theorem hostWrite_ctrl : hostWrite .ctrl v { s with host := rest } = writeCtrl (v.setWidth 32) (acked s rest) := rfl
theorem hostWrite_status : hostWrite .status v { s with host := rest } = writeStatus (v.setWidth 32) (acked s rest) := rfl
theorem hostWrite_cmd : hostWrite .cmd v { s with host := rest } = writeCmd (v.setWidth 32) (acked s rest) := rfl
theorem hostWrite_ladder : hostWrite .ladder v { s with host := rest } = acked s rest := rfl
theorem hostWrite_limb (n i : Nat) : hostWrite (.limb n i) v { s with host := rest } = writeLimb n i v (acked s rest) := rfl
theorem hostWrite_bytes (j size : Nat) :
    hostWrite (.bytes j size) v { s with host := rest } = writeBytes j size v (acked s rest) := rfl

end HostWrite

/-- The two cases of a write to CMD are complementary (10_state.md R43). -/
theorem busy_or_err_of_not_ready {s : State} (h : ¬ (s.status.busy = false ∧ s.status.err = false)) :
    s.status.busy = true ∨ s.status.err = true := by
  rcases Decidable.not_and_iff_not_or_not.1 h with hb | he
  · exact .inl (Bool.eq_true_of_not_eq_false hb)
  · exact .inr (Bool.eq_true_of_not_eq_false he)

theorem writeLimb_busy {s : State} (n i : Nat) (v : Dword) (h : s.status.busy = true) : writeLimb n i v s = setOverrun s := if_pos h

theorem writeLimb_idle {s : State} (n i : Nat) (v : Dword) (h : s.status.busy = false) :
    writeLimb n i v s = setFeReg s n ((feReg s n).setIfInBounds i (v.setWidth 63)) := if_neg (by simp [h])

theorem writeBytes_busy {s : State} (j size : Nat) (v : Dword) (h : s.status.busy = true) :
    writeBytes j size v s = setOverrun s := if_pos h

theorem writeBytes_idle {s : State} (j size : Nat) (v : Dword) (h : s.status.busy = false) :
    writeBytes j size v s = memWrite s j (leBytes size v.toNat) := if_neg (by simp [h])

theorem writeCtrl_softReset {s : State} {v : Word} (h : v.getLsbD 1 = true) : writeCtrl v s = softReset (v.getLsbD 0) s := if_pos h

theorem writeCtrl_ie {s : State} {v : Word} (h : v.getLsbD 1 = false) : writeCtrl v s = { s with ie := v.getLsbD 0 } :=
  if_neg (Bool.not_eq_true _ ▸ h)

/-- A control register's word carries the low bits of the value written. -/
theorem getLsbD_setWidth_word (v : Dword) {k : Nat} (hk : k < 32) : (v.setWidth 32).getLsbD k = v.getLsbD k := by
  simp [hk]

/-! ## What a step can do -/

/-- It is the core's turn (70_reset_and_hazards.md R339, log entry 4). -/
def CoreTurn (s : State) : Prop := s.host = [] ∨ ∃ rest, s.host = .core :: rest

/-- What a step from `s` can answer, `u` being `s` but for storage, hidden state and bookkeeping. -/
inductive StepEffect (s : State) : State → Prop where
  /-- A read, a write that stores, a write of CTRL.IE, an ignored write, or an idle core. -/
  | kept {u} (hu : KeepsCommand s u) : StepEffect s u
  /-- A write the block cannot take. -/
  | overrun {u} (hu : KeepsCommand s u) (hr : s.status.busy = true ∨ s.status.err = true) : StepEffect s (setOverrun u)
  /-- A write to STATUS. -/
  | cleared {u rest} {v : Dword} (hu : KeepsCommand s u) (hh : s.host = .write (Config.base + 0x008) 4 v :: rest) :
      StepEffect s (writeStatus (v.setWidth 32) u)
  /-- An accepted write to CMD. -/
  | accepted {u rest} {v : Dword} (hu : KeepsCommand s u) (hh : s.host = .write (Config.base + 0x00C) 4 v :: rest)
      (hb : s.status.busy = false) (he : s.status.err = false) : StepEffect s (acceptCommand u (v.setWidth 32))
  /-- A write to CTRL that asks for a soft reset. -/
  | softReset {u rest} {v : Dword} (hu : KeepsCommand s u) (hh : s.host = .write (Config.base + 0x004) 4 v :: rest)
      (hv : v.getLsbD 1 = true) : StepEffect s (softReset (v.getLsbD 0) u)
  /-- The platform asserts power-on reset. -/
  | powerOn {u rest} (hu : KeepsCommand s u) (hh : s.host = .powerOn :: rest) : StepEffect s (powerOnReset u)
  /-- The core completes the pending word with success. -/
  | succeeded {u} (hu : KeepsCommand s u) (ht : CoreTurn s) (hp : s.pending.isSome = true) : StepEffect s (completeSuccess u)
  /-- The core completes the pending word with an error. -/
  | failed {u k} (hu : KeepsCommand s u) (ht : CoreTurn s) (hp : s.pending.isSome = true) (hk : k ≠ .none) :
      StepEffect s (completeError k u)

/-- A command completes, with success or with an error that has a code (60_exceptions.md R290). -/
theorem exec_completes {i : Instr} {s t : State} (h : exec i s = .next t) :
    ∃ u, KeepsCommand s u ∧ (t = completeSuccess u ∨ ∃ k, k ≠ .none ∧ t = completeError k u) := by
  obtain ⟨u, hu, hc⟩ := exec_cases i s
  replace hu := KeepsCommand.of_startsFrom hu
  rcases hc with ⟨v, he, -⟩ | ⟨P, he, -⟩ | ⟨bs, he, -⟩ | ⟨k, he, hk⟩ <;> obtain rfl := Host.Outcome.next.inj (h.symm.trans he)
  · exact ⟨_, hu.setFeReg _ v, .inl rfl⟩
  · exact ⟨_, hu.setPtReg _ P, .inl rfl⟩
  · exact ⟨_, hu.memWrite _ bs, .inl rfl⟩
  · exact ⟨_, hu, .inr ⟨k, fun hn => dataError_ne_none i (hn ▸ hk), rfl⟩⟩

theorem decode_error_ne_none {w : Word} {k : Cause} (h : decode w = .error k) : k ≠ .none := by
  rcases decode_error_cases h with rfl | rfl <;> nofun

/-- The core's turn, taken in `u` once its event is removed. -/
theorem coreStep_effect {s u t : State} (ht : CoreTurn s) (hu : KeepsCommand s u) (h : coreStep u = .next t) : StepEffect s t := by
  rcases hp : u.pending with _ | w
  · rw [coreStep_idle hp] at h
    cases h
    exact .kept hu
  · have hs : s.pending.isSome = true := by rw [← hu.pending, hp]; rfl
    rcases hd : decode w with k | i
    · rw [coreStep_error hp hd] at h
      cases h
      exact .failed hu ht hs (decode_error_ne_none hd)
    · rw [coreStep_ok hp hd] at h
      obtain ⟨x, hx, rfl | ⟨k, hk, rfl⟩⟩ := exec_completes h
      · exact .succeeded (hu.trans hx) ht hs
      · exact .failed (hu.trans hx) ht hs hk

/-- A host write to a target of the map (20_memory.md R81). -/
theorem hostWrite_effect {s : State} {off size : Nat} {v : Dword} {rest : List HostOp} {g : Target}
    (hh : s.host = .write (Config.base + off) size v :: rest) (hl : locate off size = some g) :
    StepEffect s (hostWrite g v { s with host := rest }) := by
  have hu := KeepsCommand.acked s rest
  obtain ⟨hctrl, hstatus, hcmd⟩ := locate_control_inv hl
  cases g with
  | id => exact .kept hu
  | ladder => exact .kept hu
  | ctrl =>
    obtain ⟨rfl, rfl⟩ := hctrl rfl
    rw [hostWrite_ctrl]
    cases hv : (v.setWidth 32).getLsbD 1 with
    | true =>
      rw [writeCtrl_softReset hv, getLsbD_setWidth_word v (by decide)]
      rw [getLsbD_setWidth_word v (by decide)] at hv
      exact .softReset hu hh hv
    | false =>
      rw [writeCtrl_ie hv]
      exact .kept ⟨rfl, rfl, rfl, .inl, id⟩
  | status =>
    obtain ⟨rfl, rfl⟩ := hstatus rfl
    exact .cleared hu hh
  | cmd =>
    obtain ⟨rfl, rfl⟩ := hcmd rfl
    rw [hostWrite_cmd]
    by_cases hc : s.status.busy = false ∧ s.status.err = false
    · rw [writeCmd_accepted (s := acked s rest) _ hc]
      exact .accepted hu hh hc.1 hc.2
    · have hr := busy_or_err_of_not_ready hc
      rw [writeCmd_refused (s := acked s rest) _ hr]
      exact .overrun hu hr
  | limb n i =>
    rw [hostWrite_limb]
    cases hb : s.status.busy with
    | true => exact writeLimb_busy n i v (s := acked s rest) hb ▸ .overrun hu (.inl hb)
    | false => exact writeLimb_idle n i v (s := acked s rest) hb ▸ .kept (hu.setFeReg _ _)
  | bytes j size =>
    rw [hostWrite_bytes]
    cases hb : s.status.busy with
    | true => exact writeBytes_busy j size v (s := acked s rest) hb ▸ .overrun hu (.inl hb)
    | false => exact writeBytes_idle j size v (s := acked s rest) hb ▸ .kept (hu.memWrite _ _)

/-- Everything a step can do to the command state. -/
theorem step_effect {s t : State} (h : step s = .next t) : StepEffect s t := by
  rcases hh : s.host with _ | ⟨e, rest⟩
  · rw [step_of_nil hh] at h
    exact coreStep_effect (.inl hh) (.refl s) h
  · rw [step_of_cons hh] at h
    have hu := KeepsCommand.withHost s rest
    cases e with
    | read addr size =>
      obtain ⟨_, g, -, -, -, rfl⟩ := access_next (act := hostRead) h
      exact .kept (hu.trans (.hostRead g _))
    | write addr size v =>
      obtain ⟨_, g, rfl, -, hl, rfl⟩ := access_next (act := fun g => hostWrite g v) h
      exact hostWrite_effect hh hl
    | core => exact coreStep_effect (.inr ⟨rest, hh⟩) hu h
    | powerOn => exact Host.Outcome.next.inj h ▸ .powerOn hu hh

/-! ## The invariant -/

namespace Inv

variable {s u : State}

theorem of_keepsCommand (h : Inv s) (hu : KeepsCommand s u) : Inv u where
  buf := hu.buf h.buf
  busy_pending := by rw [hu.status, hu.pending]; exact h.busy_pending
  busy_clear := by rw [hu.status]; exact h.busy_clear
  done_err := by rw [hu.status]; exact h.done_err
  err_cause := by rw [hu.status]; exact h.err_cause
  cmd_pending := by rw [hu.pending, hu.cmd]; exact h.cmd_pending
  polled_idle hp := by
    rw [hu.status]
    exact (hu.polled hp).elim h.polled_idle id

theorem setOverrun (h : Inv s) : Inv (setOverrun s) :=
  ⟨h.buf, h.busy_pending, h.busy_clear, h.done_err, h.err_cause, h.cmd_pending, h.polled_idle⟩

/-- Clearing bits of STATUS keeps the invariant because CAUSE goes with ERR. -/
theorem writeStatus (h : Inv s) (v : Word) : Inv (writeStatus v s) := by
  rw [writeStatus_eq]
  exact {
    buf := h.buf
    busy_pending := h.busy_pending
    busy_clear := fun hb => by simp [h.busy_clear hb]
    done_err := fun ⟨hd, he⟩ => h.done_err ⟨(Bool.and_eq_true_iff.1 hd).1, (Bool.and_eq_true_iff.1 he).1⟩
    err_cause := by cases hv : v.getLsbD 2 <;> simp [h.err_cause]
    cmd_pending := h.cmd_pending
    polled_idle := h.polled_idle }

theorem acceptCommand (h : Inv s) (he : s.status.err = false) (w : Word) : Inv (acceptCommand s w) where
  buf := h.buf
  busy_pending := rfl
  busy_clear _ := ⟨rfl, he⟩
  done_err := fun ⟨hd, _⟩ => nomatch hd
  err_cause := h.err_cause
  cmd_pending _ hw := Option.some.inj hw
  polled_idle := nofun

/-- While a command is pending ERR is 0, so that a success sets DONE alone. -/
theorem completeSuccess (h : Inv s) (hp : s.pending.isSome = true) : Inv (completeSuccess s) where
  buf := h.buf
  busy_pending := rfl
  busy_clear := nofun
  done_err := fun ⟨_, he⟩ => by
    have he0 : s.status.err = false := (h.busy_clear (h.busy_pending.trans hp)).2
    exact absurd (he0.symm.trans he) (by decide)
  err_cause := h.err_cause
  cmd_pending := nofun
  polled_idle _ := rfl

/-- While a command is pending DONE is 0, so that an error sets ERR alone, with a CAUSE. -/
theorem completeError (h : Inv s) (hp : s.pending.isSome = true) {k : Cause} (hk : k ≠ .none) : Inv (completeError k s) where
  buf := h.buf
  busy_pending := rfl
  busy_clear := nofun
  done_err := fun ⟨hd, _⟩ => by
    have hd0 : s.status.done = false := (h.busy_clear (h.busy_pending.trans hp)).1
    exact absurd (hd0.symm.trans hd) (by decide)
  err_cause := ⟨fun _ => hk, fun _ => rfl⟩
  cmd_pending := nofun
  polled_idle _ := rfl

/-- With STATUS clear and nothing pending, only BUF is left to look at. -/
theorem of_idleStatus (hb : bufWf s.buf = true) (hs : s.status = idleStatus) (hp : s.pending = none) : Inv s where
  buf := hb
  busy_pending := by rw [hs, hp]; rfl
  busy_clear := by rw [hs]; nofun
  done_err := by rw [hs]; exact fun h => nomatch h.1
  err_cause := by rw [hs]; exact ⟨nofun, fun h => (h rfl).elim⟩
  cmd_pending := by rw [hp]; nofun
  polled_idle _ := by rw [hs]; rfl

theorem softReset (h : Inv s) (ie : Bool) : Inv (softReset ie s) := by
  obtain ⟨hp, -, -, hb⟩ := abandonPending_control s
  exact of_idleStatus (hb h.buf) rfl hp

theorem of_stepEffect {t : State} (h : Inv s) (ht : StepEffect s t) : Inv t := by
  cases ht with
  | kept hu => exact h.of_keepsCommand hu
  | overrun hu => exact (h.of_keepsCommand hu).setOverrun
  | cleared hu => exact (h.of_keepsCommand hu).writeStatus _
  | accepted hu _ _ he => exact (h.of_keepsCommand hu).acceptCommand (hu.status ▸ he) _
  | softReset hu => exact (h.of_keepsCommand hu).softReset _
  | powerOn => exact of_idleStatus rfl rfl rfl
  | succeeded hu _ hp => exact (h.of_keepsCommand hu).completeSuccess (hu.pending ▸ hp)
  | failed hu _ hp hk => exact (h.of_keepsCommand hu).completeError (hu.pending ▸ hp) hk

end Inv

/-- Settles O58: each effect a step can have keeps the invariant. -/
theorem stepKeepsInvariant : Obligations.StepKeepsInvariant := fun _ _ hs h => hs.of_stepEffect (step_effect h)

/-- Settles O57: STATUS is clear, nothing is pending and BUF is unwritten. -/
theorem resetSatisfiesInvariant : Obligations.ResetSatisfiesInvariant := Inv.of_idleStatus reset_buf_wf rfl rfl

/-! ## STATUS is sticky -/

/-- The next event is a host write of 1 to bit `k` of STATUS. -/
def ClearsStatusBit (s : State) (k : Nat) : Prop :=
  ∃ v rest, s.host = .write (Config.base + 0x008) 4 v :: rest ∧ v.getLsbD k = true

/-- The next event is a soft reset or a power-on reset. -/
def ResetEvent (s : State) : Prop :=
  (∃ v rest, s.host = .write (Config.base + 0x004) 4 v :: rest ∧ v.getLsbD 1 = true) ∨ ∃ rest, s.host = .powerOn :: rest

/-- A bit cleared by a write to STATUS was written 1. -/
theorem written_of_cleared {b : Bool} {v : Dword} {k : Nat} (hk : k < 32) (h1 : b = true)
    (h0 : (b && !(v.setWidth 32).getLsbD k) = false) : v.getLsbD k = true := by
  simpa [h1, getLsbD_setWidth_word v hk] using h0

namespace StepEffect

variable {s t : State}

theorem ovr_falls (h : StepEffect s t) (h1 : s.status.ovr = true) (h0 : t.status.ovr = false) :
    ClearsStatusBit s 3 ∨ ResetEvent s := by
  cases h with
  | cleared hu hh =>
    rw [writeStatus_eq, hu.status] at h0
    exact .inl ⟨_, _, hh, written_of_cleared (by decide) h1 h0⟩
  | softReset _ hh hv => exact .inr (.inl ⟨_, _, hh, hv⟩)
  | powerOn _ hh => exact .inr (.inr ⟨_, hh⟩)
  | overrun => simp at h0
  | kept hu => simp [hu.status, h1] at h0
  | accepted hu => simp [hu.status, h1] at h0
  | succeeded hu => simp [hu.status, h1] at h0
  | failed hu => simp [hu.status, h1] at h0

theorem err_falls (h : StepEffect s t) (h1 : s.status.err = true) (h0 : t.status.err = false) :
    ClearsStatusBit s 2 ∨ ResetEvent s := by
  cases h with
  | cleared hu hh =>
    rw [writeStatus_eq, hu.status] at h0
    exact .inl ⟨_, _, hh, written_of_cleared (by decide) h1 h0⟩
  | softReset _ hh hv => exact .inr (.inl ⟨_, _, hh, hv⟩)
  | powerOn _ hh => exact .inr (.inr ⟨_, hh⟩)
  | failed => simp at h0
  | kept hu => simp [hu.status, h1] at h0
  | overrun hu => simp [hu.status, h1] at h0
  | accepted hu => simp [hu.status, h1] at h0
  | succeeded hu => simp [hu.status, h1] at h0

theorem done_falls (h : StepEffect s t) (h1 : s.status.done = true) (h0 : t.status.done = false) :
    ClearsStatusBit s 1 ∨ ResetEvent s ∨
      (s.status.err = false ∧ ∃ v rest, s.host = .write (Config.base + 0x00C) 4 v :: rest) := by
  cases h with
  | cleared hu hh =>
    rw [writeStatus_eq, hu.status] at h0
    exact .inl ⟨_, _, hh, written_of_cleared (by decide) h1 h0⟩
  | softReset _ hh hv => exact .inr (.inl (.inl ⟨_, _, hh, hv⟩))
  | powerOn _ hh => exact .inr (.inl (.inr ⟨_, hh⟩))
  | accepted _ hh _ he => exact .inr (.inr ⟨he, _, _, hh⟩)
  | succeeded => simp at h0
  | kept hu => simp [hu.status, h1] at h0
  | overrun hu => simp [hu.status, h1] at h0
  | failed hu => simp [hu.status, h1] at h0

theorem busy_falls (h : StepEffect s t) (h1 : s.status.busy = true) (h0 : t.status.busy = false) :
    s.pending.isSome = true ∧ CoreTurn s ∨ ResetEvent s := by
  cases h with
  | succeeded _ ht hp => exact .inl ⟨hp, ht⟩
  | failed _ ht hp => exact .inl ⟨hp, ht⟩
  | softReset _ hh hv => exact .inr (.inl ⟨_, _, hh, hv⟩)
  | powerOn _ hh => exact .inr (.inr ⟨_, hh⟩)
  | accepted => simp at h0
  | cleared hu => simp [writeStatus_eq, hu.status, h1] at h0
  | kept hu => simp [hu.status, h1] at h0
  | overrun hu => simp [hu.status, h1] at h0

end StepEffect

/-- Settles O45: bit by bit, from the effects a step can have. -/
theorem statusBitsAreSticky : Obligations.StatusBitsAreSticky := fun _ _ h =>
  have he := step_effect h
  ⟨he.ovr_falls, he.err_falls, he.done_falls, he.busy_falls⟩

/-! ## Writes of CMD, STATUS, ID and LADDER -/

/-- Settles O42: the two cases of R43. -/
theorem commandAcceptance : Obligations.CommandAcceptance := by
  intro s rest v hh
  have hstep := step_write hh (by decide) locate_control.2.2.2.1
  rw [hostWrite_cmd] at hstep
  by_cases hc : s.status.busy = false ∧ s.status.err = false
  · rw [writeCmd_accepted (s := acked s rest) _ hc] at hstep
    refine ⟨_, hstep, rfl, fun _ => rfl, fun _ => rfl, rfl, ⟨rfl, rfl⟩, fun _ _ => ⟨rfl, rfl, rfl⟩, ?_⟩
    rintro (hb | he)
    · exact absurd (hc.1.symm.trans hb) (by decide)
    · exact absurd (hc.2.symm.trans he) (by decide)
  · rw [writeCmd_refused (s := acked s rest) _ (busy_or_err_of_not_ready hc)] at hstep
    exact ⟨_, hstep, rfl, fun _ => rfl, fun _ => rfl, rfl, ⟨rfl, rfl⟩, fun hb he => (hc ⟨hb, he⟩).elim, fun _ => ⟨rfl, rfl, rfl⟩⟩

/-- A taken write that only takes its event and acknowledges it leaves the block as it is. -/
theorem write_ignored {s : State} {rest : List HostOp} (h : step s = .next (acked s rest)) :
    ∃ t, step s = .next t ∧ t.host = rest ∧ SameObservation s t ∧ HiddenKept s t ∧ t.ie = s.ie ∧ t.cmd = s.cmd ∧
      t.pending = s.pending :=
  ⟨_, h, rfl, ⟨fun _ => rfl, fun _ => rfl, rfl⟩, ⟨rfl, rfl⟩, rfl, rfl, rfl⟩

/-- Settles O43: `writeStatus_eq` says what a write to STATUS does, and ID and LADDER have nothing to write. -/
theorem statusIsWriteOneToClear : Obligations.StatusIsWriteOneToClear := by
  obtain ⟨hid, -, hstatus, -, hladder⟩ := locate_control
  refine ⟨fun s rest v hh => ?_, fun s rest v hh => ?_⟩
  · have hstep := step_write hh (by decide) hstatus
    rw [hostWrite_status, writeStatus_eq, getLsbD_setWidth_word v (by decide), getLsbD_setWidth_word v (by decide),
      getLsbD_setWidth_word v (by decide)] at hstep
    exact ⟨_, hstep, rfl, fun _ => rfl, fun _ => rfl, ⟨rfl, rfl⟩, rfl, rfl, rfl, rfl, rfl, rfl, rfl, rfl⟩
  · rcases hh with hh | hh
    · exact write_ignored (by rw [step_write hh (by decide) hid, hostWrite_id])
    · exact write_ignored (by rw [step_write hh (by decide) hladder, hostWrite_ladder])

/-! ## The words of STATUS and CTRL -/

theorem bitOf_le_one (b : Bool) : bitOf b ≤ 1 := by cases b <;> decide

theorem decide_bitOf_eq_one (b : Bool) : decide (bitOf b = 1) = b := by cases b <;> rfl

theorem causeCode_le (c : Cause) : causeCode c ≤ 5 := by cases c <;> decide

/-- The number STATUS reads as: no field runs into the next. -/
theorem statusWord_toNat (s : State) : (statusWord s).toNat =
    bitOf s.status.busy + 2 * bitOf s.status.done + 4 * bitOf s.status.err + 8 * bitOf s.status.ovr
      + 256 * causeCode s.status.cause := by
  have hb := bitOf_le_one s.status.busy
  have hd := bitOf_le_one s.status.done
  have he := bitOf_le_one s.status.err
  have ho := bitOf_le_one s.status.ovr
  have hc := causeCode_le s.status.cause
  rw [statusWord, BitVec.toNat_ofNat]
  exact Nat.mod_eq_of_lt (by omega)

theorem ctrlWord_toNat (s : State) : (ctrlWord s).toNat = bitOf s.ie := by
  have hi := bitOf_le_one s.ie
  rw [ctrlWord, BitVec.toNat_ofNat]
  exact Nat.mod_eq_of_lt (by omega)

/-- Bit `k` of a word is the flag `b` when the word's number has `b` at the place 2ᵏ. -/
theorem getLsbD_eq_of_place {w : Word} {k : Nat} {b : Bool} (h : w.toNat / 2 ^ k % 2 = bitOf b) : w.getLsbD k = b := by
  rw [← BitVec.testBit_toNat, Nat.testBit_eq_decide_div_mod_eq, h, decide_bitOf_eq_one]

/-- The `n` bits of a word from bit `k`, as a number. -/
theorem extractLsb'_toNat_eq (w : Word) (k n : Nat) : (w.extractLsb' k n).toNat = w.toNat / 2 ^ k % 2 ^ n := by
  rw [BitVec.extractLsb'_toNat, Nat.shiftRight_eq_div_pow]

theorem statusWord_layout (s : State) :
    (statusWord s).getLsbD 0 = s.status.busy ∧ (statusWord s).getLsbD 1 = s.status.done ∧
      (statusWord s).getLsbD 2 = s.status.err ∧ (statusWord s).getLsbD 3 = s.status.ovr ∧
      (statusWord s).extractLsb' 4 4 = 0#4 ∧ (statusWord s).extractLsb' 16 16 = 0#16 ∧
      ((statusWord s).extractLsb' 8 8).toNat = causeCode s.status.cause := by
  have hw := statusWord_toNat s
  have hb := bitOf_le_one s.status.busy
  have hd := bitOf_le_one s.status.done
  have he := bitOf_le_one s.status.err
  have ho := bitOf_le_one s.status.ovr
  have hc := causeCode_le s.status.cause
  refine ⟨getLsbD_eq_of_place (by omega), getLsbD_eq_of_place (by omega), getLsbD_eq_of_place (by omega),
    getLsbD_eq_of_place (by omega), BitVec.eq_of_toNat_eq ?_, BitVec.eq_of_toNat_eq ?_, ?_⟩
  · rw [extractLsb'_toNat_eq, BitVec.toNat_ofNat]; omega
  · rw [extractLsb'_toNat_eq, BitVec.toNat_ofNat]; omega
  · rw [extractLsb'_toNat_eq]; omega

theorem ctrlWord_layout (s : State) : (ctrlWord s).getLsbD 0 = s.ie ∧ (ctrlWord s).extractLsb' 1 31 = 0#31 := by
  have hw := ctrlWord_toNat s
  have hi := bitOf_le_one s.ie
  refine ⟨getLsbD_eq_of_place (by omega), BitVec.eq_of_toNat_eq ?_⟩
  rw [extractLsb'_toNat_eq, BitVec.toNat_ofNat]
  omega

/-- Settles O46: the layout of the two words, and the answer of each register's read. -/
theorem statusWordLayout : Obligations.StatusWordLayout := by
  obtain ⟨hid, hctrl, hstatus, hcmd, -⟩ := locate_control
  refine ⟨fun s => ?_, fun s rest => ⟨fun hh => ?_, fun hh => ?_, fun hh => ?_, fun hh => ?_⟩⟩
  · obtain ⟨hbusy, hdone, herr, hovr, hlow, hhigh, hcause⟩ := statusWord_layout s
    refine ⟨hbusy, hdone, herr, hovr, hlow, hhigh, hcause.trans ?_, ctrlWord_layout s⟩
    cases s.status.cause <;> rfl
  · exact ⟨_, step_read hh (by decide) hid, rfl⟩
  · exact ⟨_, step_read hh (by decide) hctrl, rfl⟩
  · exact ⟨_, step_read hh (by decide) hstatus, rfl⟩
  · exact ⟨_, step_read hh (by decide) hcmd, rfl⟩

/-- Settles O48: the reset state holds these values field by field. -/
theorem resetValues : Obligations.ResetValues := ⟨rfl, rfl, rfl, rfl, rfl, rfl, rfl⟩

end Sys2Proof.Machine
end

section
/-! What commands do to the memory: the wire format of field elements in BUF (20_memory.md R86), and the destination as all that a
command writes (R91). -/

namespace Sys2Proof.Machine

/-! ## Bytes of a number -/

/-- Byte `k` of the little-endian encoding of `v` (00_scope.md R11). -/
theorem leBytes_getElem? (n v : Nat) {k : Nat} (hk : k < n) : (leBytes n v)[k]? = some (BitVec.ofNat 8 (v / 256 ^ k)) := by
  induction n generalizing v k with
  | zero => omega
  | succ n ih =>
    cases k with
    | zero => simp [leBytes]
    | succ k => rw [leBytes, List.getElem?_cons_succ, ih _ (by omega), Nat.div_div_eq_div_mul, ← pow_succ']

/-- Byte `k` of a double word. -/
theorem extractLsb'_byte (d : Dword) (k : Nat) : d.extractLsb' (8 * k) 8 = BitVec.ofNat 8 (d.toNat / 256 ^ k) := by
  apply BitVec.eq_of_toNat_eq
  rw [BitVec.extractLsb'_toNat, BitVec.toNat_ofNat, Nat.shiftRight_eq_div_pow, pow_mul, show (2 : Nat) ^ 8 = 256 from rfl]

/-- A byte read from BUF, as a part of the little-endian integer of the sequence it is in. -/
theorem bufByte_eq_of_le (s : State) (off : Nat) {n k : Nat} (hk : k < n) :
    bufByte s (off + k) = BitVec.ofNat 8 (le (memRead s off n) / 256 ^ k) := by
  have h := leBytes_getElem? (memRead s off n).length (le (memRead s off n)) (by rwa [memRead_length])
  rw [leBytes_le, memRead_getElem? s off n k hk] at h
  exact Option.some.inj h

/-! ## The field-element wire format -/

theorem decodeValue_lt (bs : List Byte) : decodeValue bs < 2 ^ 255 := Nat.mod_lt _ (by positivity)

/-- The canonical encoding stands for the value mod p (20_memory.md R86). -/
theorem le_encodeFe (x : Fe) : le (encodeFe x) = canon x := by
  have hc : canon x < 256 ^ 32 := lt_trans (lt_trans (canon_lt x) p_lt) (by decide)
  rw [encodeFe, le_leBytes, Nat.mod_eq_of_lt hc]

/-- Settles O22: the vector stored is `limbs` of the decoded integer, which is below 2²⁵⁵. -/
theorem fromBytesDecodes : Obligations.FromBytesDecodes := by
  intro s rd ra _
  obtain ⟨t, hexec, hframe, hhidden, hreg⟩ := finishF_ok s rd (limbs (decodeValue (readS s ra)))
  refine ⟨t, hexec, hframe, hhidden, ?_, ?_⟩
  · rw [hreg]; exact limbs_reduced _
  · rw [hreg]; exact val_limbs (decodeValue_lt _)

/-- Settles O23: the slot reads back as the encoding, and a value below 2²⁵⁵ leaves bit 7 of the last byte clear. -/
theorem toBytesEncodes : Obligations.ToBytesEncodes := by
  intro s rd ra hw
  have hslot : slotBase rd + (encodeFe (readF s ra)).length ≤ bufSize := by
    have := slot_lt (Bool.and_eq_true_iff.1 hw).1
    rw [encodeFe_length, slotBase, bufSize]
    omega
  obtain ⟨hframe, hhidden, hread⟩ := completeSuccess_writeSlots s rd _ hslot
  rw [encodeFe_length] at hframe hread
  refine ⟨completeSuccess (writeSlots s rd (encodeFe (readF s ra))), rfl, hframe, hhidden, ?_, ?_⟩
  · rw [map_bufByte_eq]
    exact (congrArg le hread).trans (le_encodeFe _)
  · have htop : canon (readF s ra) / 256 ^ 31 < 2 ^ 7 := Nat.div_lt_of_lt_mul (lt_trans (canon_lt _) p_lt)
    rw [bufByte_eq_of_le _ _ (by decide : 31 < 32), hread, le_encodeFe, BitVec.getLsbD_ofNat, Nat.testBit_lt_two_pow htop,
      Bool.and_false]

/-! ## What a command writes -/

/-- Dropping the hidden state touches no storage. -/
theorem startsFrom_storage {s u : State} (h : startsFrom s u) : SameRegs s u ∧ SameBytes s u := by
  rcases h with rfl | rfl <;> exact ⟨fun _ => rfl, fun _ => rfl⟩

/-- Settles O41: each of the four ways a command can end writes its destination alone. -/
theorem commandsWriteOnlyTheirDestination : Obligations.CommandsWriteOnlyTheirDestination := by
  intro i s t hw h
  obtain ⟨u, hu, hc⟩ := exec_cases i s
  obtain ⟨hregs, hbytes⟩ := startsFrom_storage hu
  rcases hc with ⟨v, he, hd, -⟩ | ⟨P, he, hd, -, hlt⟩ | ⟨bs, he, -, hd⟩ | ⟨k, he, -⟩ <;>
    obtain rfl := Host.Outcome.next.inj (h.symm.trans he)
  · exact ⟨fun n hn => (feReg_setFeReg_ne u v fun e => hn ((hd n).2 e)).trans (hregs n), fun j _ => hbytes j⟩
  · exact ⟨fun n hn => (feReg_setPtReg_other u i.rd P (hlt hw) fun e => hn ((hd n).2 e)).trans (hregs n), fun j _ => hbytes j⟩
  · exact ⟨fun n _ => hregs n, fun j hj => (bufByte_memWrite_slot u i.rd bs rfl fun e => hj ((hd j).2 e)).trans (hbytes j)⟩
  · exact ⟨fun n _ => hregs n, fun j _ => hbytes j⟩

end Sys2Proof.Machine
end

section
/-! The host's accesses to the FE window and to BUF, which accesses the block takes, and what reads and refused writes leave alone
(20_memory.md R80 to R92). -/

namespace Sys2Proof.Machine

/-! ## The FE window -/

/-- Everything a store of a limb does to the limbs of its vector. -/
theorem limb_setIfInBounds (x : Fe) (i k : Nat) (b : Limb) :
    limb (x.setIfInBounds i b) k = if k = i ∧ i < 10 then b.toNat else limb x k := by
  unfold limb
  rw [Vector.getElem?_setIfInBounds]
  by_cases hk : k = i
  · subst hk
    by_cases hi : k < 10
    · simp [hi]
    · simp [hi]
  · simp [hk, Ne.symm hk]

theorem readLimb_idle {s : State} (n i : Nat) (h : s.status.busy = false) :
    readLimb n i s = { s with resp := .data ((((feReg s n)[i]?).getD 0).setWidth 64) } := if_neg (by simp [h])

theorem readBytes_idle {s : State} (j size : Nat) (h : s.status.busy = false) :
    readBytes j size s = { s with resp := .data (BitVec.ofNat 64 (le (memRead s j size))) } := if_neg (by simp [h])

/-- Settles O51: the store changes one limb of one register, and a read widens the stored 63 bits. -/
theorem limbWindow : Obligations.LimbWindow := by
  intro s rest n i v hn hi hb
  have hl := locate_limb hn hi
  refine ⟨fun hh => ?_, fun hh => ?_⟩
  · have hstep := step_write hh (by omega) hl
    rw [hostWrite_limb, writeLimb_idle n i v (s := acked s rest) hb] at hstep
    refine ⟨_, hstep, ?_, fun m k hmk => ?_, fun _ => rfl, rfl, rfl⟩
    · rw [feReg_setFeReg_self _ _ hn, limb_setIfInBounds, if_pos ⟨rfl, hi⟩, BitVec.toNat_setWidth]
    · by_cases hm : m = n
      · subst hm
        rw [feReg_setFeReg_self _ _ hn, limb_setIfInBounds, if_neg fun h => hmk ⟨rfl, h.1⟩]
        rfl
      · rw [feReg_setFeReg_ne _ _ hm]
        rfl
  · have hstep := step_read hh (by omega) hl
    rw [hostRead, readLimb_idle n i (s := { s with host := rest }) hb] at hstep
    refine ⟨_, _, hstep, rfl, ?_, ?_, ⟨fun _ => rfl, fun _ => rfl, rfl⟩⟩
    · exact BitVec.toNat_setWidth_of_le (by decide)
    · rw [BitVec.getLsbD_setWidth, BitVec.getLsbD_of_ge _ _ (by decide), Bool.and_false]

/-! ## BUF -/

/-- An aligned access to BUF stays inside it (20_memory.md R84). -/
theorem aligned_in_buf {j size : Nat} (hs : size = 1 ∨ size = 2 ∨ size = 4 ∨ size = 8) (ha : j % size = 0) (hj : j < 256) :
    j + size ≤ bufSize := by
  unfold bufSize
  rcases hs with rfl | rfl | rfl | rfl <;> omega

/-- Settles O52: byte by byte, each byte being its place in a little-endian integer. -/
theorem bufferAccesses : Obligations.BufferAccesses := by
  intro s rest j size v hs ha hj hb
  have hl := locate_bytes hs ha hj
  have hin := aligned_in_buf hs ha hj
  refine ⟨fun hh => ?_, fun hh => ?_⟩
  · have hstep := step_write hh (by omega) hl
    rw [hostWrite_bytes, writeBytes_idle j size v (s := acked s rest) hb] at hstep
    refine ⟨_, hstep, fun k hk => ?_, fun m hm => ?_, fun _ => rfl, rfl, rfl⟩
    · rw [bufByte_memWrite, leBytes_length, if_pos (by omega), Nat.add_sub_cancel_left, leBytes_getElem? _ _ hk, extractLsb'_byte]
      rfl
    · rw [bufByte_memWrite, leBytes_length, if_neg fun h => hm ⟨h.1, h.2.1⟩]
      rfl
  · have hstep := step_read hh (by omega) hl
    rw [hostRead, readBytes_idle j size (s := { s with host := rest }) hb] at hstep
    have hlt : le (memRead s j size) < 256 ^ size := by
      have := le_lt (memRead s j size)
      rwa [memRead_length] at this
    have hwidth : 256 ^ size ≤ 2 ^ 64 := by rcases hs with rfl | rfl | rfl | rfl <;> decide
    have hd : (BitVec.ofNat 64 (le (memRead s j size))).toNat = le (memRead s j size) :=
      Nat.mod_eq_of_lt (lt_of_lt_of_le hlt hwidth)
    refine ⟨_, BitVec.ofNat 64 (le (memRead s j size)), hstep, rfl, fun k hk => ?_, hd.trans_lt hlt,
      ⟨fun _ => rfl, fun _ => rfl, rfl⟩⟩
    rw [extractLsb'_byte, hd, bufByte_eq_of_le s j hk]

/-! ## Which accesses are taken -/

/-- The map ends before the window does. -/
theorem lt_window_of_isTaken {off size : Nat} (h : isTaken off size) : off < 0x3000 := by
  unfold isTaken at h
  omega

theorem locate_of_isTaken {off size : Nat} (h : isTaken off size) : ∃ g, locate off size = some g :=
  Option.isSome_iff_exists.1 ((locate_isSome_iff off size).2 h)

theorem locate_of_not_isTaken {off size : Nat} (h : ¬ isTaken off size) : locate off size = none :=
  Option.not_isSome_iff_eq_none.1 fun g => h ((locate_isSome_iff off size).1 g)

/-- A host access is one `access`, whichever way it goes. -/
theorem step_access {s : State} {rest : List HostOp} {addr size : Nat} {v : Dword}
    (h : s.host = .read addr size :: rest ∨ s.host = .write addr size v :: rest) :
    ∃ act, step s = access addr size act { s with host := rest } := by
  rcases h with h | h <;> exact ⟨_, step_of_cons h⟩

/-- Settles O55: the three cases of `access`. -/
theorem busErrors : Obligations.BusErrors := by
  intro s rest addr size v hh
  obtain ⟨act, hstep⟩ := step_access hh
  rw [hstep]
  refine ⟨?_, ?_, access_outside act _⟩
  · rintro off rfl hoff ht
    obtain ⟨g, hl⟩ := locate_of_isTaken ht
    exact ⟨_, access_located act _ hoff hl⟩
  · rintro off rfl hoff ht
    exact access_busError act _ hoff (locate_of_not_isTaken ht)

/-! ## Reads, and writes refused while busy -/

/-- Settles O54: a read changes the port's answer and the model's bookkeeping alone. -/
theorem readsChangeNothing : Obligations.ReadsChangeNothing := by
  intro s t rest addr size hh h
  rw [step_of_cons hh] at h
  obtain ⟨_, g, -, -, -, rfl⟩ := access_next (act := hostRead) h
  obtain ⟨r, d, q, e, -⟩ := hostRead_frame g { s with host := rest }
  rw [e]
  exact ⟨⟨fun _ => rfl, fun _ => rfl, rfl⟩, rfl, rfl, rfl, rfl, rfl⟩

/-- From offset 0x1000 up the map holds limbs and bytes alone (20_memory.md R81). -/
theorem locate_data {off size : Nat} {g : Target} (ho : 0x1000 ≤ off) (h : locate off size = some g) :
    (∃ n i, g = .limb n i) ∨ ∃ j, g = .bytes j size := by
  unfold locate at h
  rw [if_neg (by omega)] at h
  split at h
  · split at h <;> cases h
    exact .inl ⟨_, _, rfl⟩
  · split at h
    · split at h <;> cases h
      exact .inr ⟨_, rfl⟩
    · cases h

/-- Settles O53: the target is a limb or bytes of BUF, whose write while BUSY = 1 is `setOverrun`. -/
theorem busyRefusesDataWrites : Obligations.BusyRefusesDataWrites := by
  intro s rest off size v hb ho ht hh
  obtain ⟨g, hl⟩ := locate_of_isTaken ht
  have hstep := step_write hh (lt_window_of_isTaken ht) hl
  have hrefused : hostWrite g v { s with host := rest } = setOverrun (acked s rest) := by
    rcases locate_data ho hl with ⟨n, i, rfl⟩ | ⟨j, rfl⟩
    · exact writeLimb_busy n i v (s := acked s rest) hb
    · exact writeBytes_busy j size v (s := acked s rest) hb
  rw [hrefused] at hstep
  exact ⟨_, hstep, rfl, fun _ => rfl, fun _ => rfl, rfl, rfl, rfl, ⟨rfl, rfl⟩⟩

end Sys2Proof.Machine
end

section
/-! Why no host access disturbs a pending command (20_memory.md R93, R96): a command's outcome is decided by its sources, and the
accesses the block takes while BUSY = 1 keep them. -/

namespace Sys2Proof.Machine

/-! ## Commands in states that agree -/

/-- The ladder's result does not depend on the hidden state it starts in (10_state.md R46). -/
theorem ladderResult_hidden (sbytes pbytes : List Byte) (h h' : LadderState) :
    ladderResult sbytes pbytes h = ladderResult sbytes pbytes h' := by
  unfold ladderResult
  simp only [runLadder_acc]

/-- The two states agree on all that a command's outcome depends on, and on the STATUS bits a completion is told by. -/
structure Agrees (s t : State) : Prop where
  regs : SameRegs s t
  bytes : SameBytes s t
  done : t.status.done = s.status.done
  err : t.status.err = s.status.err
  cause : t.status.cause = s.status.cause

/-- Both outcomes are next states, and they agree. -/
def OutcomesAgree (a b : Host.Outcome State Fault Refusal) : Prop :=
  ∃ s t, a = .next s ∧ b = .next t ∧ Agrees s t

theorem feReg_setFeReg (s : State) (n : Nat) (v : Fe) (m : Nat) :
    feReg (setFeReg s n v) m = if m = n ∧ n < 32 then v else feReg s m := by
  by_cases hm : m = n
  · subst hm
    by_cases hlt : m < 32
    · rw [feReg_setFeReg_self s v hlt, if_pos ⟨rfl, hlt⟩]
    · simp [feReg, setFeReg, hlt]
  · rw [feReg_setFeReg_ne s v hm, if_neg fun h => hm h.1]

namespace Agrees

variable {s t : State}

theorem readF (h : Agrees s t) (v : Field5) : readF t v = readF s v := h.regs v.toNat

theorem readP (h : Agrees s t) (v : Field5) : readP t v = readP s v := by
  rw [Machine.readP, Machine.readP, ptReg, ptReg, h.regs, h.regs, h.regs]

theorem readS (h : Agrees s t) (v : Field5) : readS t v = readS s v := memRead_congr fun j _ _ => h.bytes j

theorem readQ (h : Agrees s t) (v : Field5) : readQ t v = readQ s v := memRead_congr fun j _ _ => h.bytes j

theorem scrubHidden (h : Agrees s t) : Agrees (scrubHidden s) (scrubHidden t) := ⟨h.regs, h.bytes, h.done, h.err, h.cause⟩

theorem setFeReg (h : Agrees s t) (n : Nat) (v : Fe) : Agrees (setFeReg s n v) (setFeReg t n v) where
  regs m := by rw [feReg_setFeReg, feReg_setFeReg, h.regs m]
  bytes := h.bytes
  done := h.done
  err := h.err
  cause := h.cause

theorem setPtReg (h : Agrees s t) (n : Nat) (P : Point) : Agrees (setPtReg s n P) (setPtReg t n P) :=
  ((h.setFeReg _ P.x).setFeReg _ P.y).setFeReg _ P.z

theorem memWrite (h : Agrees s t) (off : Nat) (bs : List Byte) : Agrees (memWrite s off bs) (memWrite t off bs) where
  regs := h.regs
  bytes j := by rw [bufByte_memWrite, bufByte_memWrite, h.bytes j]
  done := h.done
  err := h.err
  cause := h.cause

theorem completeSuccess (h : Agrees s t) : Agrees (completeSuccess s) (completeSuccess t) := ⟨h.regs, h.bytes, rfl, h.err, h.cause⟩

theorem completeError (h : Agrees s t) (k : Cause) : Agrees (completeError k s) (completeError k t) :=
  ⟨h.regs, h.bytes, h.done, rfl, rfl⟩

/-- The same result, stored by the same write, ends in the same way. -/
theorem finish {α : Type} (h : Agrees s t) {r r' : Except Cause α} (hr : r' = r) {f g : α → State}
    (hw : ∀ x, Agrees (f x) (g x)) : OutcomesAgree (.next (finish s (r.map f))) (.next (finish t (r'.map g))) := by
  subst hr
  cases r' with
  | ok x => exact ⟨_, _, rfl, rfl, (hw x).completeSuccess⟩
  | error k => exact ⟨_, _, rfl, rfl, h.completeError k⟩

theorem finishF (h : Agrees s t) (rd : Field5) {r r' : Except Cause Fe} (hr : r' = r) :
    OutcomesAgree (finishF s rd r) (finishF t rd r') := h.finish hr fun v => h.setFeReg _ v

theorem finishP (h : Agrees s t) (rd : Field5) {r r' : Except Cause Point} (hr : r' = r) :
    OutcomesAgree (finishP s rd r) (finishP t rd r') := h.finish hr fun P => h.setPtReg _ P

/-- A command that stores bytes whatever it reads. -/
theorem writeSlots (h : Agrees s t) (rd : Field5) {bs bs' : List Byte} (hb : bs' = bs) :
    OutcomesAgree (.next (Machine.completeSuccess (writeSlots s rd bs))) (.next (Machine.completeSuccess (writeSlots t rd bs'))) :=
  ⟨_, _, rfl, rfl, hb ▸ (h.memWrite _ bs).completeSuccess⟩

/-- A command's outcome is decided by the registers and the bytes it starts from. -/
theorem exec (h : Agrees s t) (i : Instr) : OutcomesAgree (exec i s) (exec i t) := by
  cases i with
  | feZero d => exact h.finishF d rfl
  | feOne d => exact h.finishF d rfl
  | feCopy d a => exact h.finishF d (congrArg Except.ok (h.readF a))
  | feAdd d a b => exact h.finishF d (congrArg₂ addFe (h.readF a) (h.readF b))
  | feSub d a b => exact h.finishF d (congrArg₂ subFe (h.readF a) (h.readF b))
  | feAdd2p d a => exact h.finishF d (congrArg add2pFe (h.readF a))
  | feAdd4p d a => exact h.finishF d (congrArg add4pFe (h.readF a))
  | feMul d a b => exact h.finishF d (congrArg₂ mulFe (h.readF a) (h.readF b))
  | feSqr d a => exact h.finishF d (congrArg₂ mulFe (h.readF a) (h.readF a))
  | feCarry d a => exact h.finishF d (congrArg (Except.ok ∘ carryFe) (h.readF a))
  | feReduce d a => exact h.finishF d (congrArg (Except.ok ∘ reduceFe) (h.readF a))
  | feInv d a => exact h.scrubHidden.finishF d (congrArg (Except.ok ∘ invFe) (h.readF a))
  | feAddb d a => exact h.finishF d (congrArg addbFe (h.readF a))
  | feMulb d a => exact h.finishF d (congrArg mulbFe (h.readF a))
  | feFrombytes d a => exact h.finishF d (congrArg (Except.ok ∘ limbs ∘ decodeValue) (h.readS a))
  | feTobytes d a => exact h.writeSlots d (congrArg encodeFe (h.readF a))
  | ptFrombytes d a => exact h.scrubHidden.finishP d (congrArg decodePoint (h.readQ a))
  | ptTobytes d a => exact h.scrubHidden.writeSlots d (congrArg encodePoint (h.readP a))
  | ptAdd d a b => exact h.scrubHidden.finishP d (congrArg Except.ok (congrArg₂ addPoints (h.readP a) (h.readP b)))
  | ptDbl d a => exact h.scrubHidden.finishP d (congrArg (Except.ok ∘ dblPoint) (h.readP a))
  | scalarmult d a b =>
    have hr : ladderResult (Machine.readS t a) (Machine.readQ t b) t.hidden =
        ladderResult (Machine.readS s a) (Machine.readQ s b) s.hidden := by
      rw [h.readS, h.readQ, ladderResult_hidden]
    exact h.scrubHidden.finish hr fun bs => h.scrubHidden.memWrite _ bs

end Agrees

/-! ## Host accesses while a command is pending -/

/-- `t` still has the pending command of `s` and everything its outcome depends on. -/
structure KeepsPending (s t : State) : Prop extends Agrees s t where
  pending : t.pending = s.pending
  busy : t.status.busy = s.status.busy

theorem hostRead_keepsPending (g : Target) (s : State) (rest : List HostOp) :
    KeepsPending s (hostRead g { s with host := rest }) := by
  obtain ⟨r, d, q, e, -⟩ := hostRead_frame g { s with host := rest }
  rw [e]
  exact ⟨⟨fun _ => rfl, fun _ => rfl, rfl, rfl, rfl⟩, rfl, rfl⟩

theorem setOverrun_keepsPending (s : State) (rest : List HostOp) : KeepsPending s (setOverrun (acked s rest)) :=
  ⟨⟨fun _ => rfl, fun _ => rfl, rfl, rfl, rfl⟩, rfl, rfl⟩

/-- While a command is pending DONE, ERR and CAUSE are clear, so a write to STATUS can clear OVR alone. -/
theorem writeStatus_keepsPending {s : State} (hi : Inv s) (hb : s.status.busy = true) (rest : List HostOp) (v : Word) :
    KeepsPending s (writeStatus v (acked s rest)) := by
  obtain ⟨hdone, herr⟩ := hi.busy_clear hb
  have hcause : s.status.cause = .none := by
    by_contra hc
    exact absurd (herr.symm.trans (hi.err_cause.2 hc)) (by decide)
  rw [writeStatus_eq]
  exact ⟨⟨fun _ => rfl, fun _ => rfl, by simp [acked, hdone], by simp [acked, herr], by simp [acked, hcause]⟩, rfl, rfl⟩

/-- A write that asks for no soft reset: stores are refused, and what a control register takes is no source of the command. -/
theorem hostWrite_keepsPending {s : State} (hi : Inv s) (hb : s.status.busy = true) (rest : List HostOp) (g : Target) (v : Dword)
    (hreset : g = .ctrl → v.getLsbD 1 = false) : KeepsPending s (hostWrite g v { s with host := rest }) := by
  have hkept : KeepsPending s (acked s rest) := ⟨⟨fun _ => rfl, fun _ => rfl, rfl, rfl, rfl⟩, rfl, rfl⟩
  cases g with
  | id => exact hkept
  | ladder => exact hkept
  | ctrl =>
    rw [hostWrite_ctrl, writeCtrl_ie (by rw [getLsbD_setWidth_word v (by decide), hreset rfl])]
    exact ⟨⟨fun _ => rfl, fun _ => rfl, rfl, rfl, rfl⟩, rfl, rfl⟩
  | status => exact writeStatus_keepsPending hi hb rest _
  | cmd =>
    rw [hostWrite_cmd, writeCmd_refused (s := acked s rest) _ (.inl hb)]
    exact setOverrun_keepsPending s rest
  | limb n i =>
    rw [hostWrite_limb, writeLimb_busy n i v (s := acked s rest) hb]
    exact setOverrun_keepsPending s rest
  | bytes j size =>
    rw [hostWrite_bytes, writeBytes_busy j size v (s := acked s rest) hb]
    exact setOverrun_keepsPending s rest

/-- Settles O56: the access keeps all that the command's outcome depends on. -/
theorem pendingSourcesAreStable : Obligations.PendingSourcesAreStable := by
  intro s t w i e rest hi hp _ hh hreset hcore hpower h
  have hb : s.status.busy = true := by rw [hi.busy_pending, hp]; rfl
  rw [step_of_cons hh] at h
  have hkept : KeepsPending s t := by
    cases e with
    | read addr size =>
      obtain ⟨_, g, -, -, -, rfl⟩ := access_next (act := hostRead) h
      exact hostRead_keepsPending g s rest
    | write addr size v =>
      obtain ⟨off, g, rfl, -, hl, rfl⟩ := access_next (act := fun g => hostWrite g v) h
      refine hostWrite_keepsPending hi hb rest g v fun hg => ?_
      obtain ⟨rfl, rfl⟩ := (locate_control_inv hl).1 hg
      exact Bool.eq_false_of_not_eq_true fun hv => hreset v hv rfl
    | core => exact absurd rfl hcore
    | powerOn => exact absurd rfl hpower
  obtain ⟨s', t', hs', ht', ha⟩ := hkept.toAgrees.exec i
  exact ⟨hkept.regs, hkept.bytes, hkept.pending.trans hp, hkept.busy.trans hb, s', t', hs', ht', ha.regs, ha.bytes,
    ha.done.symm, ha.err.symm, ha.cause.symm⟩

end Sys2Proof.Machine
end

section
/-! The command word (30_encoding.md R111 to R118): a row of the opcode map and its commands, the decoder and the encoder as
inverses, and what the core does with a word that is no command (R115, R116). -/

namespace Sys2Proof.Machine

open Sys2Proof.Laws

/-! ## The rows of the opcode map -/

/-- The law of 30_encoding.md R114 that every command has a row which makes it from its fields. -/
theorem encodesItsRow (i : Instr) : EncodesItsRow.Statement i := by
  cases i with
  | feZero d => exact EncodesItsRow.feZero d
  | feOne d => exact EncodesItsRow.feOne d
  | feCopy d a => exact EncodesItsRow.feCopy d a
  | feAdd d a b => exact EncodesItsRow.feAdd d a b
  | feSub d a b => exact EncodesItsRow.feSub d a b
  | feAdd2p d a => exact EncodesItsRow.feAdd2p d a
  | feAdd4p d a => exact EncodesItsRow.feAdd4p d a
  | feMul d a b => exact EncodesItsRow.feMul d a b
  | feSqr d a => exact EncodesItsRow.feSqr d a
  | feCarry d a => exact EncodesItsRow.feCarry d a
  | feReduce d a => exact EncodesItsRow.feReduce d a
  | feInv d a => exact EncodesItsRow.feInv d a
  | feAddb d a => exact EncodesItsRow.feAddb d a
  | feMulb d a => exact EncodesItsRow.feMulb d a
  | feFrombytes d a => exact EncodesItsRow.feFrombytes d a
  | feTobytes d a => exact EncodesItsRow.feTobytes d a
  | ptFrombytes d a => exact EncodesItsRow.ptFrombytes d a
  | ptTobytes d a => exact EncodesItsRow.ptTobytes d a
  | ptAdd d a b => exact EncodesItsRow.ptAdd d a b
  | ptDbl d a => exact EncodesItsRow.ptDbl d a
  | scalarmult d a b => exact EncodesItsRow.scalarmult d a b

/-- The command a row makes has the row's opcode, and keeps the fields that its kinds use. -/
theorem opRow_make {op : BitVec 6} {r : OpRow} (h : opRow op = some r) (d a b : Field5) :
    (r.make d a b).opcode = op.toNat ∧ (r.make d a b).rd = d ∧ (r.make d a b).ra = (if r.ka = .unused then 0 else a) ∧
      (r.make d a b).rb = (if r.kb = .unused then 0 else b) := by
  unfold opRow at h
  split at h <;> cases h
  all_goals
    rename_i hop
    exact ⟨hop.symm, rfl, rfl, rfl⟩

/-- A legal value of an unused field is the 0 that the field is encoded as (30_encoding.md R116). -/
theorem used_of_legal {k : Kind} {v : Field5} (h : k.legal v = true) : (if k = .unused then 0 else v) = v := by
  by_cases hk : k = .unused
  · subst hk
    have hv : v.toNat = 0 := of_decide_eq_true h
    exact (BitVec.eq_of_toNat_eq hv).symm
  · exact if_neg hk

/-- With legal operands, the command a row makes is well-formed and has the row's opcode and exactly these fields. -/
theorem opRow_make_of_legal {op : BitVec 6} {r : OpRow} {d a b : Field5} (h : opRow op = some r) (hd : r.kd.legal d = true)
    (ha : r.ka.legal a = true) (hb : r.kb.legal b = true) :
    (r.make d a b).wf = true ∧ (r.make d a b).opcode = op.toNat ∧ (r.make d a b).rd = d ∧ (r.make d a b).ra = a ∧
      (r.make d a b).rb = b := by
  obtain ⟨hop, hrd, hra, hrb⟩ := opRow_make h d a b
  rw [used_of_legal ha] at hra
  rw [used_of_legal hb] at hrb
  refine ⟨?_, hop, hrd, hra, hrb⟩
  obtain ⟨r', hr', -, hwf⟩ := encodesItsRow (r.make d a b)
  rw [hop, BitVec.ofNat_toNat, BitVec.setWidth_eq, h] at hr'
  obtain rfl := Option.some.inj hr'
  rw [← hwf, hrd, hra, hrb, hd, ha, hb]
  rfl

/-! ## The decoder and the encoder -/

/-- A word of a defined opcode, its reserved field 0 and its operands legal, is a command (30_encoding.md R113). -/
theorem decode_of_legal {w : Word} {r : OpRow} (h : opRow (opField w) = some r) (hz : zField w = 0)
    (hd : r.kd.legal (rdField w) = true) (ha : r.ka.legal (raField w) = true) (hb : r.kb.legal (rbField w) = true) :
    decode w = .ok (r.make (rdField w) (raField w) (rbField w)) := by
  rw [decode_of_row h, if_neg (not_not.2 hz), hd, ha, hb]
  rfl

/-- Settles O1: the fields of the word select the command's own row, which makes the command from them. -/
theorem decodeOfEncode : Obligations.DecodeOfEncode := by
  intro i hw
  obtain ⟨hop, hrd, hra, hrb, hz⟩ := encode_fields i
  obtain ⟨r, hr, hmake, hlegal⟩ := encodesItsRow i
  rw [hw, Bool.and_eq_true, Bool.and_eq_true] at hlegal
  obtain ⟨⟨hd, ha⟩, hb⟩ := hlegal
  rw [decode_of_legal (hop ▸ hr) hz (hrd ▸ hd) (hra ▸ ha) (hrb ▸ hb), hrd, hra, hrb, hmake]

/-- Settles O2: the command has the word's fields, and with Z = 0 the fields are all of the word. -/
theorem encodeOfDecode : Obligations.EncodeOfDecode := by
  intro w i h
  obtain ⟨r, hr, hz, hd, ha, hb, rfl⟩ := decode_ok_cases h
  obtain ⟨hwf, hop, hrd, hra, hrb⟩ := opRow_make_of_legal hr hd ha hb
  refine ⟨hwf, ?_⟩
  rw [encode, hop, hrd, hra, hrb]
  exact packWord_fields hz

/-- Settles O5: the decoder evaluated on each word. -/
theorem spelledWordsDecode : Obligations.SpelledWordsDecode := ⟨rfl, rfl, rfl, rfl, rfl, rfl, rfl, rfl⟩

/-! ## Words that are no command -/

/-- The core completes a pending word that is no command with the decoder's cause, writing nothing. -/
theorem coreStep_refuses {s : State} {w : Word} {k : Cause} (hp : s.pending = some w) (hd : decode w = .error k) :
    ∃ t, coreStep s = .next t ∧ WroteNothing k s t :=
  ⟨_, coreStep_error hp hd, (completeError_spec k s).1⟩

/-- The reserved opcodes are those without a row (30_encoding.md R115). -/
theorem isReservedOpcode_iff (op : BitVec 6) : isReservedOpcode op.toNat = true ↔ opRow op = none := by
  have hall : ∀ op : BitVec 6, isReservedOpcode op.toNat = (opRow op).isNone := by decide
  rw [hall, Option.isNone_iff_eq_none]

/-- ILLEGAL_OPCODE is the cause of the words without a row, and of no other (60_exceptions.md R292). -/
theorem decode_illegalOpcode_iff (w : Word) : decode w = .error .illegalOpcode ↔ opRow (opField w) = none := by
  refine ⟨fun h => ?_, decode_of_noRow⟩
  rcases hr : opRow (opField w) with _ | r
  · rfl
  · rw [decode_of_row hr] at h
    split at h
    · cases h
    · split at h <;> cases h

/-- Settles O3: the reserved opcodes are those without a row, and those alone give the cause. -/
theorem reservedOpcodesAreRefused : Obligations.ReservedOpcodesAreRefused := by
  refine ⟨by decide, rfl, fun s w hp => ⟨fun h => ?_, fun h hd => ?_⟩⟩
  · exact coreStep_refuses hp (decode_of_noRow ((isReservedOpcode_iff _).1 h))
  · rw [decode_illegalOpcode_iff, ← isReservedOpcode_iff, h] at hd
    exact absurd hd (by decide)

/-- A word of a defined opcode whose reserved field or one of whose operands is illegal (60_exceptions.md R293). -/
theorem decode_of_illegal {w : Word} {r : OpRow} (h : opRow (opField w) = some r)
    (hbad : zField w ≠ 0 ∨ ¬ (r.kd.legal (rdField w) = true ∧ r.ka.legal (raField w) = true ∧ r.kb.legal (rbField w) = true)) :
    decode w = .error .illegalOperand := by
  rw [decode_of_row h]
  by_cases hz : zField w = 0
  · rw [if_neg (not_not.2 hz), if_neg]
    rw [Bool.and_eq_true, Bool.and_eq_true, and_assoc]
    exact hbad.resolve_left (not_not.2 hz)
  · exact if_pos hz

/-- A value is legal for a kind when it is at most the kind's largest value (30_encoding.md R112). -/
theorem legal_iff_le_kindMax (k : Kind) (v : Field5) : k.legal v = true ↔ v.toNat ≤ kindMax k := by
  cases k with
  | unused => exact decide_eq_true_iff.trans Nat.le_zero.symm
  | freg => exact decide_eq_true_iff
  | preg => exact decide_eq_true_iff
  | slot => exact decide_eq_true_iff
  | pslot => exact decide_eq_true_iff

/-- The table of kinds lists rows of the opcode map (30_encoding.md R114). -/
theorem opRow_of_mem_kindTable {op : BitVec 6} {kd ka kb : Kind} (h : (op.toNat, kd, ka, kb) ∈ kindTable) :
    ∃ make, opRow op = some ⟨kd, ka, kb, make⟩ := by
  have hall : ∀ e ∈ kindTable, (opRow (BitVec.ofNat 6 e.1)).map (fun r => (r.kd, r.ka, r.kb)) = some e.2 := by decide
  have hrow := hall _ h
  rw [BitVec.ofNat_toNat, BitVec.setWidth_eq, Option.map_eq_some_iff] at hrow
  obtain ⟨⟨kd', ka', kb', make⟩, hr, hk⟩ := hrow
  cases hk
  exact ⟨make, hr⟩

/-- Settles O4: the row of the opcode is the one of the table, and its checks are the comparisons with the largest values. -/
theorem illegalOperandsAreRefused : Obligations.IllegalOperandsAreRefused := by
  rintro op kd ka kb hmem s w hp rfl
  obtain ⟨make, hr⟩ := opRow_of_mem_kindTable hmem
  refine ⟨fun hbad => ?_, fun ⟨hz, hd, ha, hb⟩ => ?_⟩
  · refine coreStep_refuses hp (decode_of_illegal hr (hbad.imp_right fun h => ?_))
    simp only [legal_iff_le_kindMax]
    omega
  · rw [← legal_iff_le_kindMax] at hd ha hb
    have hdec := decode_of_legal hr hz hd ha hb
    obtain ⟨-, hop, hrd, hra, hrb⟩ := opRow_make_of_legal hr hd ha hb
    exact ⟨_, hdec, hop, hrd, hra, hrb, coreStep_ok hp hdec⟩

end Sys2Proof.Machine
end

section
/-! A host program that issues commands one after another (30_encoding.md R119, 70_reset_and_hazards.md R339, R342), and the
pseudo-instruction fe.neg. -/

namespace Sys2Proof.Machine

/-! ## Runs -/

/-- A run goes on from the state its first step answers. -/
theorem run_succ {s t : State} (h : step s = .next t) (k : Nat) : Host.Core.run core (k + 1) s = Host.Core.run core k t := by
  have hs : core.step s = .next t := h
  simp only [Host.Core.run, hs]

/-! ## One command of a script -/

/-- The state in which the core runs the first command of a script: the block has accepted its word and the host has `rest` left. -/
def issued (s : State) (i : Instr) (rest : List HostOp) : State := acceptCommand (acked s rest) (encode i)

/-- The host's write of a command to CMD, in a block that is idle (10_state.md R43). -/
theorem step_issues {s : State} {i : Instr} {rest : List HostOp} (hs : Idle s)
    (hh : s.host = .write (Config.base + 0x00C) 4 ((encode i).setWidth 64) :: rest) : step s = .next (issued s i rest) := by
  obtain ⟨-, -, -, hcmd, -⟩ := locate_control
  have hw : ((encode i).setWidth 64).setWidth 32 = encode i :=
    (BitVec.setWidth_setWidth_of_le _ (by decide)).trans (BitVec.setWidth_eq _)
  rw [step_write hh (by decide) hcmd, hostWrite_cmd, writeCmd_accepted (s := acked s rest) _ ⟨hs.busy, hs.err⟩, hw]
  rfl

/-- The core's turn after it. -/
theorem step_runs_issued {s : State} {i : Instr} {rest : List HostOp} (hw : i.wf = true) :
    step (issued s i (.core :: rest)) = exec i (issued s i rest) := by
  rw [step_of_cons (rest := rest) rfl]
  exact coreStep_ok (s := issued s i rest) rfl (decodeOfEncode i hw)

/-- `t` is an idle block whose host has seen BUSY = 0 and has `rest` left, after a command that wrote `v` to F[d] alone. -/
structure WroteAndPolled (d : Field5) (v : Fe) (rest : List HostOp) (s t : State) : Prop where
  idle : Idle t
  host : t.host = rest
  polled : t.polled = true
  result : feReg t d.toNat = v
  regs : ∀ n, n ≠ d.toNat → feReg t n = feReg s n
  bytes : SameBytes s t

/-- The host's read of STATUS after the completion. -/
theorem wroteAndPolled_of_wroteReg {s u : State} {i : Instr} {d : Field5} {v : Fe} {rest : List HostOp} (hs : Idle s)
    (hu : WroteReg d.toNat (issued s i (pollStatus :: rest)) u) (hv : feReg u d.toNat = v) :
    ∃ t, step u = .next t ∧ WroteAndPolled d v rest s t := by
  obtain ⟨hdone, hregs, hbytes⟩ := hu
  obtain ⟨-, -, hstatus, -⟩ := locate_control
  have hhost : u.host = pollStatus :: rest := hdone.control.host
  have hbusy : u.status.busy = false := hdone.busy
  refine ⟨_, step_read hhost (by decide) hstatus, ⟨hdone.pending, hbusy, hdone.err.trans hs.err⟩, rfl, ?_, hv, hregs, hbytes⟩
  simp [hostRead, readStatus, hbusy]

/-- A run's next three steps issue, run and see complete a command whose result for F[d] is `v`. -/
theorem run_command {s : State} {i : Instr} {is : List Instr} {d : Field5} {v : Fe} (hs : Idle s)
    (hh : s.host = commandScript (i :: is)) (hw : i.wf = true)
    (he : ∀ rest, exec i (issued s i rest) = finishF (issued s i rest) d (.ok v)) :
    ∃ t, (∀ k, Host.Core.run core (k + 3) s = Host.Core.run core k t) ∧ WroteAndPolled d v (commandScript is) s t := by
  obtain ⟨u, hu, hframe, -, hv⟩ := finishF_ok (issued s i (pollStatus :: commandScript is)) d v
  obtain ⟨t, ht, hpolled⟩ := wroteAndPolled_of_wroteReg hs hframe hv
  refine ⟨t, fun k => ?_, hpolled⟩
  rw [run_succ (step_issues hs hh), run_succ ((step_runs_issued hw).trans ((he _).trans hu)), run_succ ht]

/-! ## fe.neg -/

theorem freg_legal (v : Field5) : Kind.freg.legal v = true := (legal_iff_le_kindMax .freg v).2 (Nat.le_of_lt_succ v.isLt)

theorem ofLimbs_congr {r q : Nat → Nat} (e : ∀ i < 10, r i = q i) : ofLimbs r = ofLimbs q :=
  fe_ext fun i hi => by rw [limb_ofLimbs r hi, limb_ofLimbs q hi, e i hi]

theorem P2L_lt (i : Nat) : P2L i < 2 ^ 63 := by
  have hrad := pow_RAD_le i
  unfold P2L PL
  split <;> omega

/-- FE_ADD2P of zero gives the limbs of 2p (40_field_kernel.md R155). -/
theorem add2pFe_zeroFe : add2pFe zeroFe = .ok (ofLimbs P2L) := by
  have hsum : (fun i => limb zeroFe i + P2L i) = P2L := by
    funext i
    rw [limb_zeroFe, Nat.zero_add]
  rw [add2pFe, hsum]
  exact chk63_ok fun i _ => P2L_lt i

/-- The limbs of 2p less those of `x`. -/
def neg2p (x : Fe) : Fe := ofLimbs fun i => P2L i - limb x i

theorem subFe_P2L {x : Fe} (h : ∀ i < 10, limb x i ≤ P2L i) : subFe (ofLimbs P2L) x = .ok (neg2p x) := by
  have hl : ∀ i < 10, limb (ofLimbs P2L) i = P2L i := fun i hi => limb_ofLimbs_of_lt _ hi (P2L_lt i)
  rw [subFe, if_pos fun i hi => (h i hi).trans (hl i hi).ge]
  exact congrArg Except.ok (ofLimbs_congr fun i hi => congrArg (· - limb x i) (hl i hi))

theorem limb_neg2p {x : Fe} {i : Nat} (hi : i < 10) (h : limb x i ≤ P2L i) : limb (neg2p x) i + limb x i = P2L i := by
  have hl : limb (neg2p x) i = P2L i - limb x i := limb_ofLimbs_of_lt _ hi (lt_of_le_of_lt (Nat.sub_le _ _) (P2L_lt i))
  rw [hl, Nat.sub_add_cancel h]

/-- Limb by limb, the value is the negative mod p (40_field_kernel.md R170). -/
theorem val_neg2p {x : Fe} (h : ∀ i < 10, limb x i ≤ P2L i) : val (neg2p x) + val x = 2 * p := by
  calc val (neg2p x) + val x = valOf fun i => limb (neg2p x) i + limb x i := (valOf_add _ _).symm
    _ = valOf fun i => 2 * PL i := valOf_congr fun i hi => limb_neg2p hi (h i hi)
    _ = 2 * p := by rw [valOf_mul, valOf_PL]

/-- Settles O60: three commands of three steps each, the first two leaving the limbs of 2p in fd. -/
theorem negationPseudoInstruction : Obligations.NegationPseudoInstruction := by
  intro s fd fa hs hne hle hh
  have hfa : fa.toNat ≠ fd.toNat := fun e => hne (BitVec.eq_of_toNat_eq e).symm
  obtain ⟨s1, hrun1, h1⟩ := run_command (d := fd) (v := zeroFe) hs hh (freg_legal fd) fun _ => rfl
  have hadd : add2pFe (feReg s1 fd.toNat) = .ok (ofLimbs P2L) := by rw [h1.result, add2pFe_zeroFe]
  obtain ⟨s2, hrun2, h2⟩ := run_command (d := fd) h1.idle h1.host (by simp [Instr.wf, freg_legal])
    fun rest => congrArg (finishF (issued s1 _ rest) fd) hadd
  have hx : feReg s2 fa.toNat = feReg s fa.toNat := (h2.regs _ hfa).trans (h1.regs _ hfa)
  have hsub : subFe (feReg s2 fd.toNat) (feReg s2 fa.toNat) = .ok (neg2p (feReg s fa.toNat)) := by
    rw [h2.result, hx, subFe_P2L hle]
  obtain ⟨s3, hrun3, h3⟩ := run_command (d := fd) h2.idle h2.host (by simp [Instr.wf, freg_legal])
    fun rest => congrArg (finishF (issued s2 _ rest) fd) hsub
  refine ⟨s3, ?_, ⟨h3.polled, fun _ _ _ => ?_⟩, h3.idle.err, fun i hi => ?_, ?_, fun n hn => ?_, fun j => ?_⟩
  · exact (hrun1 6).trans ((hrun2 3).trans (hrun3 0))
  · rw [h3.host]; exact List.not_mem_nil
  · rw [h3.result]; exact limb_neg2p hi (hle i hi)
  · rw [h3.result]; exact val_neg2p hle
  · exact (h3.regs n hn).trans ((h2.regs n hn).trans (h1.regs n hn))
  · exact (h3.bytes j).trans ((h2.bytes j).trans (h1.bytes j))

end Sys2Proof.Machine
end

section
/-! Constant loads, the copy and the adder / subtractor (40_field_kernel.md R150 to R156, R162, R170). -/

namespace Sys2Proof.Machine

/-! ## The encoding and the spelling of a command -/

/-- The word of a command, field by field in the pattern of 30_encoding.md R111. -/
theorem append_eq_encode (i : Instr) : BitVec.ofNat 6 i.opcode ++ i.rd ++ i.ra ++ i.rb ++ 0#11 = encode i := by
  have h0 := opcode_lt i
  have h1 := i.rd.isLt
  have h2 := i.ra.isLt
  have h3 := i.rb.isLt
  apply BitVec.eq_of_toNat_eq
  rw [encode, packWord_toNat h0 h1 h2 h3]
  simp only [BitVec.toNat_append, BitVec.toNat_ofNat, Nat.zero_mod, Nat.or_zero, Nat.mod_eq_of_lt h0,
    ← Nat.shiftLeft_add_eq_or_of_lt h1, ← Nat.shiftLeft_add_eq_or_of_lt h2, ← Nat.shiftLeft_add_eq_or_of_lt h3]
  simp only [Nat.shiftLeft_eq]
  omega

theorem decode_append {i : Instr} (hw : i.wf = true) :
    decode (BitVec.ofNat 6 i.opcode ++ i.rd ++ i.ra ++ i.rb ++ 0#11) = .ok i := by
  rw [append_eq_encode, decodeOfEncode i hw]

theorem assembler_feZero (rd : Field5) : assembler (.feZero rd) = "fe.zero f" ++ toString rd.toNat :=
  (String.append_assoc (s₁ := "fe.zero" ++ " ") (s₂ := "f")).symm

theorem assembler_feOne (rd : Field5) : assembler (.feOne rd) = "fe.one f" ++ toString rd.toNat :=
  (String.append_assoc (s₁ := "fe.one" ++ " ") (s₂ := "f")).symm

theorem assembler_feCopy (rd ra : Field5) :
    assembler (.feCopy rd ra) = "fe.copy f" ++ toString rd.toNat ++ ", f" ++ toString ra.toNat := by
  have hline : assembler (.feCopy rd ra) =
      "fe.copy" ++ " " ++ ("f" ++ toString rd.toNat ++ ", " ++ ("f" ++ toString ra.toNat)) := rfl
  have hname : "fe.copy f" = "fe.copy" ++ " " ++ "f" := rfl
  have hsep : ", f" = ", " ++ "f" := rfl
  simp only [hline, hname, hsep, String.append_assoc]

/-! ## Constant loads and the copy -/

/-- Settles O7: the words are those of well-formed commands, and each command ends in the vector it loads. -/
theorem constantLoadsAndCopy : Obligations.ConstantLoadsAndCopy := by
  intro s rd ra
  refine ⟨⟨?_, ?_, ?_⟩, ⟨assembler_feZero rd, assembler_feOne rd, assembler_feCopy rd ra⟩, ?_, ?_, ?_⟩
  · exact decode_append (i := .feZero rd) (freg_legal rd)
  · exact decode_append (i := .feOne rd) (freg_legal rd)
  · exact decode_append (i := .feCopy rd ra) (Bool.and_eq_true_iff.2 ⟨freg_legal rd, freg_legal ra⟩)
  · obtain ⟨t, hexec, hframe, hhidden, hreg⟩ := finishF_ok s rd zeroFe
    exact ⟨t, hexec, hframe, hhidden, fun i _ => by rw [hreg, limb_zeroFe]⟩
  · obtain ⟨t, hexec, hframe, hhidden, hreg⟩ := finishF_ok s rd oneFe
    refine ⟨t, hexec, hframe, hhidden, ?_, fun i h1 hi => ?_⟩
    · rw [hreg, limb_oneFe (by decide), if_pos rfl]
    · rw [hreg, limb_oneFe hi, if_neg (by omega)]
  · obtain ⟨t, hexec, hframe, hhidden, hreg⟩ := finishF_ok s rd (readF s ra)
    exact ⟨t, hexec, hframe, hhidden, fun i _ => by rw [hreg, readF]⟩

/-! ## Commands that end with the overflow check -/

/-- Sums that fit are stored limb by limb (40_field_kernel.md R142). -/
theorem finishF_chk63_fits (s : State) (rd : Field5) {r : Nat → Nat} (h : ∀ i < 10, r i < 2 ^ 63) :
    ∃ t, finishF s rd (chk63 r) = .next t ∧ WroteReg rd.toNat s t ∧ HiddenKept s t ∧
      ∀ i < 10, limb (feReg t rd.toNat) i = r i := by
  obtain ⟨t, hexec, hframe, hhidden, hreg⟩ := finishF_of_ok (s := s) (rd := rd) (chk63_ok h)
  exact ⟨t, hexec, hframe, hhidden, fun i hi => by rw [hreg, limb_ofLimbs_of_lt r hi (h i hi)]⟩

/-- One that does not ends the command with LIMB_OVERFLOW (40_field_kernel.md R142). -/
theorem finishF_chk63_overflows (s : State) (rd : Field5) {r : Nat → Nat} (h : ∃ i < 10, 2 ^ 63 ≤ r i) :
    ∃ t, finishF s rd (chk63 r) = .next t ∧ WroteNothing .limbOverflow s t ∧ HiddenKept s t :=
  finishF_of_error (chk63_error h)

/-- Settles O8: FE_ADD is the overflow check of the limb sums. -/
theorem addIsLimbwise : Obligations.AddIsLimbwise := fun s rd _ _ =>
  ⟨finishF_chk63_fits s rd, finishF_chk63_overflows s rd⟩

/-- Settles O11: FE_ADDB is the overflow check of limb 0 plus 13318 and of limbs that fit already. -/
theorem addbAddsToLimbZero : Obligations.AddbAddsToLimbZero := by
  intro s rd ra
  refine ⟨fun h => ?_, fun h => finishF_chk63_overflows s rd ⟨0, by decide, h⟩⟩
  have hfits : ∀ i < 10, (if i = 0 then limb (readF s ra) 0 + curveB else limb (readF s ra) i) < 2 ^ 63 := by
    intro i _
    by_cases hi : i = 0
    · rw [if_pos hi]; exact h
    · rw [if_neg hi]; exact limb_lt _ _
  obtain ⟨t, hexec, hframe, hhidden, hlimb⟩ := finishF_chk63_fits s rd hfits
  refine ⟨t, hexec, hframe, hhidden, hlimb 0 (by decide), fun i h1 hi => ?_⟩
  rw [hlimb i hi, if_neg (by omega), readF]

/-! ## The subtractor -/

theorem subFe_ok {x y : Fe} (h : ∀ i < 10, limb y i ≤ limb x i) : subFe x y = .ok (ofLimbs fun i => limb x i - limb y i) :=
  if_pos h

theorem subFe_error {x y : Fe} (h : ∃ i < 10, limb x i < limb y i) : subFe x y = .error .limbUnderflow :=
  if_neg fun hle => by
    obtain ⟨i, hi, hlt⟩ := h
    exact absurd (hle i hi) (Nat.not_le.2 hlt)

/-- Settles O9: a difference fits because its minuend does. -/
theorem subIsLimbwise : Obligations.SubIsLimbwise := by
  intro s rd ra rb
  refine ⟨fun h => ?_, fun h => finishF_of_error (subFe_error h)⟩
  obtain ⟨t, hexec, hframe, hhidden, hreg⟩ := finishF_of_ok (s := s) (rd := rd) (subFe_ok h)
  refine ⟨t, hexec, hframe, hhidden, fun i hi => ?_⟩
  have hfits : limb (feReg s ra.toNat) i - limb (feReg s rb.toNat) i < 2 ^ 63 := lt_of_le_of_lt (Nat.sub_le _ _) (limb_lt _ _)
  rw [hreg, limb_ofLimbs_of_lt _ hi hfits, Nat.sub_add_cancel (h i hi)]

/-! ## Adding a multiple of the modulus -/

/-- A vector whose limbs are those of `x` plus k times those of p has k·p more in value. -/
theorem val_add_multiple {x y : Fe} {k : Nat} (h : ∀ i < 10, limb y i = limb x i + k * PL i) : val y = val x + k * p := by
  calc val y = valOf fun i => limb x i + k * PL i := valOf_congr h
    _ = val x + k * p := by rw [valOf_add, valOf_mul, valOf_PL, val]

/-- Adding `k` times the limbs of p, which are the numbers `c` (40_field_kernel.md R140, R155, R156). -/
theorem finishF_add_multiple (s : State) (rd : Field5) (x : Fe) (k : Nat) {c : Nat → Nat} (hc : ∀ i < 10, c i = k * PL i) :
    ((∀ i < 10, limb x i + c i < 2 ^ 63) →
      ∃ t, finishF s rd (chk63 fun i => limb x i + k * PL i) = .next t ∧ WroteReg rd.toNat s t ∧ HiddenKept s t ∧
        (∀ i < 10, limb (feReg t rd.toNat) i = limb x i + c i) ∧ val (feReg t rd.toNat) = val x + k * p) ∧
    ((∃ i < 10, 2 ^ 63 ≤ limb x i + c i) →
      ∃ t, finishF s rd (chk63 fun i => limb x i + k * PL i) = .next t ∧ WroteNothing .limbOverflow s t ∧ HiddenKept s t) := by
  refine ⟨fun h => ?_, fun ⟨i, hi, h⟩ => finishF_chk63_overflows s rd ⟨i, hi, hc i hi ▸ h⟩⟩
  obtain ⟨t, hexec, hframe, hhidden, hlimb⟩ :=
    finishF_chk63_fits s rd (r := fun i => limb x i + k * PL i) fun i hi => hc i hi ▸ h i hi
  exact ⟨t, hexec, hframe, hhidden, fun i hi => by rw [hlimb i hi, hc i hi], val_add_multiple hlimb⟩

/-- The spec's limbs of 2p (40_field_kernel.md R140). -/
theorem limbs_of_two_p : ∀ i < 10,
    [134217690, 67108862, 134217726, 67108862, 134217726, 67108862, 134217726, 67108862, 134217726, 67108862].getD i 0 = 2 * PL i := by
  decide

/-- The spec's limbs of 4p (40_field_kernel.md R140). -/
theorem limbs_of_four_p : ∀ i < 10,
    [268435380, 134217724, 268435452, 134217724, 268435452, 134217724, 268435452, 134217724, 268435452, 134217724].getD i 0 =
      4 * PL i := by
  decide

/-- Settles O10: the spec's literal limbs are twice and four times those of p. -/
theorem addMultiplesOfTheModulus : Obligations.AddMultiplesOfTheModulus := by
  intro s rd ra
  obtain ⟨hfits2, hover2⟩ := finishF_add_multiple s rd (readF s ra) 2 limbs_of_two_p
  obtain ⟨hfits4, hover4⟩ := finishF_add_multiple s rd (readF s ra) 4 limbs_of_four_p
  exact ⟨hfits2, hover2, hfits4, hover4⟩

/-! ## The subtraction idiom -/

/-- Adding k·p to the minuend first, FE_SUB does not underflow for a subtrahend that is limb by limb at most the sum
(40_field_kernel.md R170). -/
theorem add_multiple_then_sub {s : State} {rd rc : Field5} {x : Fe} {k : Nat} (hne : rc ≠ rd)
    (hfits : ∀ i < 10, limb x i + k * PL i < 2 ^ 63) (hle : ∀ i < 10, limb (feReg s rc.toNat) i ≤ limb x i + k * PL i) :
    ∃ t u, finishF s rd (chk63 fun i => limb x i + k * PL i) = .next t ∧ exec (.feSub rd rd rc) t = .next u ∧
      WroteReg rd.toNat t u ∧ (∀ m, m ≠ rd.toNat → feReg u m = feReg s m) ∧
      (∀ i < 10, limb (feReg u rd.toNat) i + limb (feReg s rc.toNat) i = limb x i + k * PL i) ∧
      val (feReg u rd.toNat) + val (feReg s rc.toNat) = val x + k * p := by
  obtain ⟨t, hadd, hframe, -, hsum, hval⟩ := (finishF_add_multiple s rd x k fun _ _ => rfl).1 hfits
  have hrc : feReg t rc.toNat = feReg s rc.toNat := hframe.regs _ fun e => hne (BitVec.eq_of_toNat_eq e)
  obtain ⟨u, hsub, huframe, -, hdiff⟩ := (subIsLimbwise t rd rd rc).1 fun i hi => by rw [hrc, hsum i hi]; exact hle i hi
  rw [hrc] at hdiff
  refine ⟨t, u, hadd, hsub, huframe, fun m hm => (huframe.regs m hm).trans (hframe.regs m hm), fun i hi => ?_, ?_⟩
  · rw [hdiff i hi, hsum i hi]
  · calc val (feReg u rd.toNat) + val (feReg s rc.toNat) =
          valOf fun i => limb (feReg u rd.toNat) i + limb (feReg s rc.toNat) i := (valOf_add _ _).symm
      _ = val (feReg t rd.toNat) := valOf_congr hdiff
      _ = val x + k * p := hval

/-- The largest reduced limb is at most the limb of 2p (40_field_kernel.md R170). -/
theorem radix_le_twice_PL : ∀ i < 10, 2 ^ RAD i - 1 ≤ 2 * PL i := by decide

/-- Settles O12: a reduced subtrahend is covered by 2p, and the sum of two by 4p. -/
theorem subtractionIdiom : Obligations.SubtractionIdiom := by
  intro s rd ra rc hne
  refine ⟨fun hfits hle => add_multiple_then_sub (k := 2) hne hfits (hle.elim (fun hreduced i hi => ?_) id),
    fun hfits hle => add_multiple_then_sub (k := 4) hne hfits (hle.elim (fun hsum i hi => ?_) id)⟩
  · have hlimb := hreduced i hi
    have hrad := radix_le_twice_PL i hi
    omega
  · have hlimb := hsum i hi
    have hrad := radix_le_twice_PL i hi
    omega

end Sys2Proof.Machine
end

section
/-! The multiplier, carry, reduce and the inverter (40_field_kernel.md R143 to R147, R157 to R163, R172), and the round trip of the
field-element wire format. -/

namespace Sys2Proof.Machine

/-! ## The multiplier -/

theorem mulFe_ok {x y : Fe} (h : ∀ k < 10, accMul (limb x) (limb y) k < 2 ^ 63) : mulFe x y = .ok (productFe x y) := if_pos h

theorem mulFe_error {x y : Fe} (h : ∃ k < 10, 2 ^ 63 ≤ accMul (limb x) (limb y) k) : mulFe x y = .error .limbOverflow :=
  if_neg fun hfits => by
    obtain ⟨k, hk, hle⟩ := h
    exact absurd (hfits k hk) (Nat.not_lt.2 hle)

theorem productFe_comm (x y : Fe) : productFe x y = productFe y x := by
  rw [productFe, valOf_congr fun _ hk => accMul_comm (limb x) (limb y) hk, productFe]

theorem mulFe_comm (x y : Fe) : mulFe x y = mulFe y x := by
  rw [mulFe, mulFe, productFe_comm]
  exact if_congr (forall₂_congr fun k hk => by rw [accMul_comm _ _ hk]) rfl rfl

/-- Settles O13: the product's own lemmas give its value and its residue. -/
theorem mulStoresCarriedProduct : Obligations.MulStoresCarriedProduct := by
  intro s rd ra rb h
  refine ⟨fun hfits => ?_, fun hover => finishF_of_error (mulFe_error hover)⟩
  obtain ⟨t, hexec, hframe, hhidden, hreg⟩ := finishF_of_ok (s := s) (rd := rd) (mulFe_ok hfits)
  refine ⟨t, hexec, hframe, hhidden, ?_, ?_, ?_⟩ <;> rw [hreg]
  · exact productFe_reduced _ _
  · exact val_productFe _ _
  · exact val_productFe_mod _ _

/-- Limbs up to 2²⁷ keep the accumulators below 2⁶³ (40_field_kernel.md R147). -/
theorem accMul_fits {x y : Fe} (hx : ∀ i < 10, limb x i ≤ 2 ^ 27) (hy : ∀ i < 10, limb y i ≤ 2 ^ 27) :
    ∀ k < 10, accMul (limb x) (limb y) k < 2 ^ 63 :=
  fun _ hk => lt_of_le_of_lt (accMul_le hx hy hk) (by decide)

/-- Settles O14: by the bounds on the accumulators. -/
theorem mulOperandBounds : Obligations.MulOperandBounds := by
  intro s rd ra rb
  refine ⟨fun ha => ⟨?_, fun hb => ?_⟩, fun ha hb k hk => accMul_reduced ha hb hk⟩
  · obtain ⟨t, hexec, hframe, -⟩ := finishF_of_ok (s := s) (rd := rd) (mulFe_ok (accMul_fits ha ha))
    exact ⟨t, hexec, hframe⟩
  · obtain ⟨t, hexec, hframe, -⟩ := finishF_of_ok (s := s) (rd := rd) (mulFe_ok (accMul_fits ha hb))
    exact ⟨t, hexec, hframe⟩

/-- Settles O15: FE_SQR is FE_MUL by definition, so its results are those of O13, and the product is symmetric. -/
theorem sqrIsMulOfItself : Obligations.SqrIsMulOfItself := by
  intro s rd ra rb
  obtain ⟨hfits, hover⟩ := mulStoresCarriedProduct s rd ra ra
  refine ⟨rfl, congrArg (finishF s rd) (mulFe_comm _ _), fun h => ?_, hover⟩
  obtain ⟨t, hexec, hframe, hhidden, hreduced, -, hval⟩ := hfits h
  exact ⟨t, hexec, hframe, hhidden, hreduced, by rw [hval, pow_two]⟩

/-! ## Multiplication by the curve constant -/

theorem mulbFe_ok {x : Fe} (h : ∀ i < 10, curveB * limb x i < 2 ^ 63) : mulbFe x = .ok (limbs (carryval (curveB * val x))) := by
  rw [mulbFe, if_pos h, valOf_mul, val]

theorem mulbFe_error {x : Fe} (h : ∃ i < 10, 2 ^ 63 ≤ curveB * limb x i) : mulbFe x = .error .limbOverflow :=
  if_neg fun hfits => by
    obtain ⟨i, hi, hle⟩ := h
    exact absurd (hfits i hi) (Nat.not_lt.2 hle)

/-- Settles O16: 13318 times a limb below 2⁴⁹ is below 2⁶³. -/
theorem mulbStoresScaledValue : Obligations.MulbStoresScaledValue := by
  intro s rd ra
  refine ⟨fun h => ?_, fun hover => finishF_of_error (mulbFe_error hover)⟩
  have hfits : ∀ i < 10, curveB * limb (feReg s ra.toNat) i < 2 ^ 63 :=
    h.elim id fun hsmall i hi => by
      have hlt := hsmall i hi
      rw [curveB]
      omega
  obtain ⟨t, hexec, hframe, hhidden, hreg⟩ := finishF_of_ok (s := s) (rd := rd) (mulbFe_ok hfits)
  have hval : val (feReg t rd.toNat) = carryval (13318 * val (feReg s ra.toNat)) := by rw [hreg, val_limbs_carryval, curveB]
  refine ⟨t, hexec, hframe, hhidden, ?_, hval, ?_⟩
  · rw [hreg]; exact limbs_reduced _
  · rw [hval, carryval_mod]

/-! ## Carry and reduce -/

theorem carryval_of_lt {V : Nat} (h : V < 2 ^ 255) : carryval V = V := if_pos h

theorem carryval_of_ge {V : Nat} (h : 2 ^ 255 ≤ V) : carryval V = 19 + (V - 19) % p := if_neg (Nat.not_lt.2 h)

theorem carryFe_reduced (x : Fe) : isReduced (carryFe x) := limbs_reduced _

theorem carryFe_of_reduced {x : Fe} (h : isReduced x) : carryFe x = x :=
  reduced_ext (carryFe_reduced x) h (by rw [val_carryFe, carryval_of_lt (val_lt_of_reduced h)])

/-- Settles O17: the two cases of the carried value. -/
theorem carryRestoresTheRadix : Obligations.CarryRestoresTheRadix := by
  intro s rd ra
  obtain ⟨t, hexec, hframe, hhidden, hreg⟩ := finishF_ok s rd (carryFe (feReg s ra.toNat))
  refine ⟨t, hexec, hframe, hhidden, ?_, ?_, fun hlt => ?_, fun hge => ?_, fun hreduced => ?_⟩ <;> rw [hreg]
  · exact carryFe_reduced _
  · rw [val_carryFe, carryval_mod]
  · rw [val_carryFe, carryval_of_lt hlt]
  · rw [val_carryFe, carryval_of_ge hge]; exact Nat.le_add_right _ _
  · exact carryFe_of_reduced hreduced

theorem canon_of_lt {x : Fe} (h : val x < p) : canon x = val x := Nat.mod_eq_of_lt h

theorem reduceFe_canonical (x : Fe) : isCanonical (reduceFe x) := limbs_canonical (canon_lt x)

theorem reduceFe_of_canonical {x : Fe} (h : isCanonical x) : reduceFe x = x :=
  reduced_ext (reduceFe_canonical x).1 h.1 (by rw [val_reduceFe, canon_of_lt h.2])

/-- Settles O19: FE_REDUCE stores the canonical vector of the residue. -/
theorem reduceIsCanonical : Obligations.ReduceIsCanonical := by
  intro s rd ra
  obtain ⟨t, hexec, hframe, hhidden, hreg⟩ := finishF_ok s rd (reduceFe (feReg s ra.toNat))
  refine ⟨t, hexec, hframe, hhidden, ?_, ?_, fun hcanonical => ?_⟩ <;> rw [hreg]
  · exact reduceFe_canonical _
  · exact val_reduceFe _
  · exact reduceFe_of_canonical hcanonical

/-! ## The inverter -/

/-- `y` holds the power `z` to the `n` in GF(p): what each step of the addition chain is about (40_field_kernel.md R161). -/
def HoldsPower (z : ZMod p) (n : Nat) (y : Fe) : Prop := (val y : ZMod p) = z ^ n

namespace HoldsPower

variable {z : ZMod p} {m n : Nat} {x y : Fe}

theorem carryFe (x : Fe) : HoldsPower (val x) 1 (carryFe x) := by rw [HoldsPower, cast_carryFe, pow_one]

theorem productFe (hx : HoldsPower z m x) (hy : HoldsPower z n y) : HoldsPower z (m + n) (productFe x y) := by
  rw [HoldsPower, cast_productFe, hx, hy, pow_add]

theorem sqrFe (hx : HoldsPower z m x) : HoldsPower z (m * 2) (sqrFe x) := by
  rw [HoldsPower, cast_sqrFe, hx, pow_mul]

theorem sqrTimes (hx : HoldsPower z m x) (k : Nat) : HoldsPower z (m * 2 ^ k) (sqrTimes k x) := by
  rw [HoldsPower, cast_sqrTimes, hx, pow_mul]

/-- The addition chain, one product after the other: `hN` is about the exponent N, `eN` about the exponent 2ᴺ − 1. -/
theorem invFe (x : Fe) : HoldsPower (val x) (p - 2) (invFe x) := by
  have h1 := HoldsPower.carryFe x
  have h2 := h1.sqrFe
  have h9 := h1.productFe (h2.sqrTimes 2)
  have h11 := h2.productFe h9
  have e5 := h9.productFe h11.sqrFe
  have e10 := (e5.sqrTimes 5).productFe e5
  have e20 := (e10.sqrTimes 10).productFe e10
  have e40 := (e20.sqrTimes 20).productFe e20
  have e50 := (e40.sqrTimes 10).productFe e10
  have e100 := (e50.sqrTimes 50).productFe e50
  have e200 := (e100.sqrTimes 100).productFe e100
  have e250 := (e200.sqrTimes 50).productFe e50
  have hp : p - 2 = (2 ^ 250 - 1) * 2 ^ 5 + 11 := by decide
  rw [hp]
  exact (e250.sqrTimes 5).productFe h11

end HoldsPower

theorem invFe_reduced (x : Fe) : isReduced (invFe x) := productFe_reduced _ _

/-- Every step of the chain keeps ZERO. -/
theorem invFe_of_val_zero {x : Fe} (h : val x = 0) : invFe x = zeroFe := by
  simp only [invFe, carryFe_of_val_zero h, sqrFe, sqrTimes_zero, productFe_zero]

/-- Settles O20: the addition chain computes the power. -/
theorem invIsThePower : Obligations.InvIsThePower := by
  intro s rd ra
  obtain ⟨t, hexec, hframe, hreg⟩ := finishF_scrub_ok s rd (invFe (feReg s ra.toNat))
  refine ⟨t, hexec, hframe, ?_, ?_, fun hzero => ?_⟩ <;> rw [hreg]
  · exact invFe_reduced _
  · exact HoldsPower.invFe _
  · exact invFe_of_val_zero hzero

/-- A value that is not 0 mod p times its power p − 2 is 1 mod p, by Fermat's little theorem (40_field_kernel.md R172). -/
theorem val_mul_invFe_mod {x : Fe} (h : val x % p ≠ 0) : val x * val (invFe x) % p = 1 := by
  have : Fact p.Prime := ⟨p_prime⟩
  have hx : (val x : ZMod p) ≠ 0 := fun e => h ((cast_eq_zero_iff _).1 e)
  have hp : p - 2 + 1 = p - 1 := by decide
  have hone : ((val x * val (invFe x) : Nat) : ZMod p) = (1 : Nat) := by
    rw [Nat.cast_mul, HoldsPower.invFe x, ← pow_succ', hp, ZMod.pow_card_sub_one_eq_one hx, Nat.cast_one]
  exact (cast_eq_iff_mod _ _).1 hone

/-- Settles O21: both operands are reduced, so that FE_MUL completes, and it multiplies the residues. -/
theorem invInverts : Obligations.InvInverts := by
  intro s rd ra rc hne hreduced hnonzero
  obtain ⟨t, hinv, hframe, hrd⟩ := finishF_scrub_ok s rd (invFe (feReg s ra.toNat))
  have hra : feReg t ra.toNat = feReg s ra.toNat := hframe.regs _ fun e => hne (BitVec.eq_of_toNat_eq e).symm
  have hfits : ∀ k < 10, accMul (limb (feReg t ra.toNat)) (limb (feReg t rd.toNat)) k < 2 ^ 63 := fun k hk => by
    rw [hra, hrd]
    exact lt_trans (accMul_reduced hreduced (invFe_reduced _) hk) (by decide)
  obtain ⟨u, hmul, huframe, -, -, -, hval⟩ := (mulStoresCarriedProduct t rc ra rd).1 hfits
  refine ⟨t, u, hinv, hmul, huframe, ?_⟩
  rw [hval, hra, hrd]
  exact val_mul_invFe_mod hnonzero

/-! ## The round trip of the wire format -/

/-- Discarding bit 255 and reducing mod p keeps exactly the integers below p (90_conflicts.md C5). -/
theorem decoded_residue_eq_iff (v : Nat) : v % 2 ^ 255 % p = v ↔ v < p := by
  constructor
  · intro h
    exact h ▸ Nat.mod_lt _ p_pos
  · intro h
    rw [Nat.mod_eq_of_lt (lt_trans h p_lt), Nat.mod_eq_of_lt h]

/-- Two reads of one length agree when their integers do. -/
theorem memRead_eq_iff_le (s t : State) (o o' n : Nat) : memRead t o' n = memRead s o n ↔ le (memRead t o' n) = le (memRead s o n) :=
  ⟨congrArg le, le_inj (by rw [memRead_length, memRead_length])⟩

/-- Settles O24: the bytes come back when their integer does, and FE_TOBYTES writes its residue. -/
theorem fieldRoundTrip : Obligations.FieldRoundTrip := by
  intro s rd ra rs hfrom hto
  obtain ⟨t, hdecode, -, -, -, hval⟩ := fromBytesDecodes s rd ra hfrom
  obtain ⟨u, hencode, -, -, hle, -⟩ := toBytesEncodes t rs rd hto
  refine ⟨t, u, hdecode, hencode, ?_⟩
  rw [hval] at hle
  rw [map_bufByte_eq] at hle ⊢
  rw [← memRead_eq_iff, memRead_eq_iff_le, hle]
  exact decoded_residue_eq_iff _

end Sys2Proof.Machine
end

section
/-! The carry unit's schedule (40_field_kernel.md R144): two passes over the ten limbs and a last step on limb 0 end with the carried
value of R143. -/

namespace Sys2Proof.Machine

/-- One pass: the carry steps on limbs 0 to 9 in order. -/
def carryPass (l : Nat → Nat) : Nat → Nat := (List.range 10).foldl carryStep l

theorem carryUnit_eq (l : Nat → Nat) : carryUnit l = carryStep (carryPass (carryPass l)) 0 := by
  rw [carryUnit, carrySchedule, List.foldl_append, List.foldl_append]
  rfl

/-! ## The values -/

/-- What a pass makes of the value: the part from 2²⁵⁵ up comes back 19 times. -/
def foldValue (V : Nat) : Nat := V % 2 ^ 255 + 19 * (V / 2 ^ 255)

/-- A pass leaves every limb but limb 0 below its radix, and limb 0 too but for what comes back from limb 9. -/
theorem carryPass_facts (l : Nat → Nat) :
    valOf (carryPass l) = foldValue (valOf l) ∧ carryPass l 0 < 2 ^ 26 + 19 * (valOf l / 2 ^ 255) ∧
      ∀ i, 1 ≤ i → i < 10 → carryPass l i < 2 ^ RAD i := by
  obtain ⟨c, r, h0, hr, hhigh, hval, hc⟩ := carryPass_spec l
  rw [← carryPass] at h0 hval
  refine ⟨?_, by omega, hhigh⟩
  rw [p_eq] at hval
  rw [foldValue]
  omega

/-- The value of storable limbs is below 2²⁹⁴ (10_state.md R34). -/
theorem valOf_div_lt_of_storable {l : Nat → Nat} (h : ∀ i < 10, l i < 2 ^ 63) : valOf l / 2 ^ 255 < 2 ^ 39 := by
  have hle : valOf l ≤ valOf fun _ => 2 ^ 63 := sum10_le fun i hi => Nat.mul_le_mul_right _ (h i hi).le
  exact lt_of_le_of_lt (Nat.div_le_div_right hle) (by decide)

/-- The carried value is the one below 2²⁵⁵ that differs by multiples of p and is at least 19 when anything was taken out
(40_field_kernel.md R143). -/
theorem carryval_unique {V v k : Nat} (hk : v + k * p = V) (hlt : v < 2 ^ 255) (hge : k = 0 ∨ 19 ≤ v) (hV : V < 2 ^ 255 → k = 0) :
    v = carryval V := by
  rcases Nat.lt_or_ge V (2 ^ 255) with h | h
  · rw [carryval_of_lt h, ← hk, hV h, Nat.zero_mul, Nat.add_zero]
  · have hp : p + 19 = 2 ^ 255 := by decide
    have h19 : 19 ≤ v := hge.resolve_left fun h0 => by rw [h0] at hk; omega
    have hsub : V - 19 = v - 19 + k * p := by omega
    rw [carryval_of_ge h, hsub, Nat.add_mul_mod_self_right, Nat.mod_eq_of_lt (by omega)]
    omega

/-- Folded twice, the value of storable limbs is carried. -/
theorem foldValue_twice {V : Nat} (hV : V / 2 ^ 255 < 2 ^ 39) : foldValue (foldValue V) = carryval V := by
  refine carryval_unique (k := V / 2 ^ 255 + foldValue V / 2 ^ 255) ?_ ?_ ?_ ?_ <;> simp only [foldValue, p_eq] <;> omega

/-- The second pass takes out at most one p, and then leaves little. -/
theorem foldValue_second {V : Nat} (hV : V / 2 ^ 255 < 2 ^ 39) :
    foldValue V / 2 ^ 255 = 0 ∨ foldValue V / 2 ^ 255 = 1 ∧ foldValue (foldValue V) < 2 ^ 44 := by
  simp only [foldValue]
  omega

/-! ## The limbs -/

/-- The last step moves limb 0's excess into limb 1. -/
theorem carryStep_zero_zero (l : Nat → Nat) : carryStep l 0 0 = l 0 % 2 ^ 26 := rfl

theorem carryStep_zero_one (l : Nat → Nat) : carryStep l 0 1 = l 1 + l 0 / 2 ^ 26 := by
  rw [← Nat.shiftRight_eq_div_pow]
  rfl

theorem carryStep_zero_of_two_le (l : Nat → Nat) {i : Nat} (h : 2 ≤ i) : carryStep l 0 i = l i := by
  rw [carryStep, if_neg (by omega), if_neg (by omega), if_neg (by omega)]

theorem valOf_carryStep_zero (l : Nat → Nat) : valOf (carryStep l 0) = valOf l := by
  simp only [valOf, sum10, W, carryStep_zero_zero, carryStep_zero_one, carryStep_zero_of_two_le, Nat.reduceMul, Nat.reduceAdd,
    Nat.reduceDiv, Nat.reduceLeDiff]
  omega

theorem limb_one_le_valOf (l : Nat → Nat) : 2 ^ 26 * l 1 ≤ valOf l := by
  simp only [valOf, sum10, W, Nat.reduceMul, Nat.reduceAdd, Nat.reduceDiv]
  omega

/-- Limbs below their radices are those of the reduced vector of their value. -/
theorem eq_limb_limbs {l : Nat → Nat} (h : ∀ i < 10, l i < 2 ^ RAD i) {i : Nat} (hi : i < 10) : l i = limb (limbs (valOf l)) i := by
  have hfit : ∀ i < 10, l i < 2 ^ 63 := fun i hi => lt_of_lt_of_le (h i hi) (le_trans (pow_RAD_le i) (by decide))
  have hreduced : isReduced (ofLimbs l) := fun i hi => by rw [limb_ofLimbs_of_lt l hi (hfit i hi)]; exact h i hi
  rw [← val_ofLimbs hfit, ← reduced_eq_limbs hreduced, limb_ofLimbs_of_lt l hi (hfit i hi)]

/-- After two passes the last step leaves every limb below its radix. -/
theorem carryUnit_reduced {l : Nat → Nat} (h : ∀ i < 10, l i < 2 ^ 63) : ∀ i < 10, carryUnit l i < 2 ^ RAD i := by
  obtain ⟨hval₁, -, -⟩ := carryPass_facts l
  obtain ⟨hval₂, hlow, hhigh⟩ := carryPass_facts (carryPass l)
  have hone := limb_one_le_valOf (carryPass (carryPass l))
  have hrad := hhigh 1 le_rfl (by decide)
  have hsecond := foldValue_second (valOf_div_lt_of_storable h)
  rw [hval₁] at hval₂ hlow
  rw [hval₂] at hone
  rw [carryUnit_eq]
  intro i hi
  match i with
  | 0 =>
    exact Nat.mod_lt _ (by decide)
  | 1 =>
    rw [carryStep_zero_one]
    change _ < 2 ^ 25 at hrad ⊢
    omega
  | i + 2 =>
    rw [carryStep_zero_of_two_le _ (by omega)]
    exact hhigh _ (by omega) hi

/-- Settles O18: the limbs are below their radices and have the carried value, and such limbs are unique. -/
theorem carryScheduleIsComplete : Obligations.CarryScheduleIsComplete := by
  intro x i hi
  have hstorable : ∀ i < 10, limb x i < 2 ^ 63 := fun i _ => limb_lt x i
  have hval : valOf (carryUnit (limb x)) = carryval (val x) := by
    rw [carryUnit_eq, valOf_carryStep_zero, (carryPass_facts _).1, (carryPass_facts _).1,
      foldValue_twice (valOf_div_lt_of_storable hstorable), val]
  rw [eq_limb_limbs (carryUnit_reduced hstorable) hi, hval, carryFe]

end Sys2Proof.Machine
end

section
/-! The group law of the point engine (41_point_layer.md R200 to R204, R206): what a triple denotes, and the complete addition and
doubling. -/

namespace Sys2Proof.Machine

/-! ## What a triple denotes (R202) -/

/-- What a triple with Z ≢ 0 denotes has coordinates that give X and Y back when multiplied by Z. -/
theorem denoted_coordinates {T : Triple} (h : T.Z % p ≠ 0) :
    ∃ x y, denoted T = some (.affine x y) ∧ x < p ∧ y < p ∧ x * T.Z % p = T.X % p ∧ y * T.Z % p = T.Y % p := by
  have : Fact p.Prime := ⟨p_prime⟩
  have hz : (T.Z : ZMod p) ≠ 0 := fun e => h ((cast_eq_zero_iff _).1 e)
  obtain ⟨x, y, hden, hx, hy, ex, ey⟩ := denoted_affine hz
  refine ⟨x, y, hden, hx, hy, ?_, ?_⟩ <;> rw [← cast_eq_iff_mod, Nat.cast_mul]
  · rw [ex, div_mul_cancel₀ _ hz]
  · rw [ey, div_mul_cancel₀ _ hz]

theorem denoted_eq_infinity_iff (T : Triple) : denoted T = some .infinity ↔ T.Z % p = 0 ∧ ¬ (T.X % p = 0 ∧ T.Y % p = 0) := by
  simp only [← cast_eq_zero_iff]
  rcases denoted_cases T with ⟨hz, e⟩ | ⟨hz, hxy, e⟩ | ⟨hz, hx, hy, e⟩ <;> rw [e]
  · simp [hz]
  · simp only [hz, hxy, not_false_eq_true, and_self]
  · simp [hx, hy]

theorem denoted_eq_none_iff (T : Triple) : denoted T = none ↔ T.X % p = 0 ∧ T.Y % p = 0 ∧ T.Z % p = 0 := by
  simp only [← cast_eq_zero_iff]
  rcases denoted_cases T with ⟨hz, e⟩ | ⟨hz, hxy, e⟩ | ⟨hz, hx, hy, e⟩ <;> rw [e]
  · simp [hz]
  · simpa using fun hx hy _ => hxy ⟨hx, hy⟩
  · simp only [hz, hx, hy, and_self]

/-- The formulas are symmetric in their arguments. -/
theorem padd_comm (S T : Triple) : padd S T = padd T S := by
  apply triple_ext (padd_lt S T) (padd_lt T S)
  · rw [padd_X, padd_X]; ring
  · rw [padd_Y, padd_Y]; ring
  · rw [padd_Z, padd_Z]; ring

/-- Every term of the formulas has a coordinate of either argument. -/
theorem padd_zero_left (T : Triple) : padd ⟨0, 0, 0⟩ T = ⟨0, 0, 0⟩ := by
  apply triple_ext (padd_lt _ _) ⟨p_pos, p_pos, p_pos⟩
  · simp [padd_X]
  · simp [padd_Y]
  · simp [padd_Z]

/-- Settles O31: the three cases of what a triple denotes, and the formulas on (0, 0, 0) and on (0, 1, 0). -/
theorem zeroTripleIsAbsorbing : Obligations.ZeroTripleIsAbsorbing := by
  refine ⟨fun T => denoted_coordinates, denoted_eq_infinity_iff, denoted_eq_none_iff, fun T => ⟨padd_zero_left T, ?_⟩, ?_⟩
  · rw [padd_comm, padd_zero_left]
  · decide

/-! ## Triples that denote points of E (R206) -/

section
variable [Fact p.Prime] {S T U : Triple} {P Q : AffinePoint} {x y x1 y1 x2 y2 : Nat}

/-- A triple of the point (x, y) is a multiple of (x, y, 1). -/
theorem denotes_affine_iff : Denotes T (.affine x y) ↔
    (AffinePoint.affine x y).valid = true ∧ (T.Z : ZMod p) ≠ 0 ∧ (T.X : ZMod p) = x * T.Z ∧ (T.Y : ZMod p) = y * T.Z := by
  constructor
  · rintro ⟨hden, hv, -⟩
    rcases denoted_cases T with ⟨hz, -⟩ | ⟨-, -, e⟩ | ⟨-, -, -, e⟩
    · obtain ⟨x', y', e, -, -, ex, ey⟩ := denoted_affine hz
      obtain ⟨rfl, rfl⟩ := AffinePoint.affine.inj (Option.some.inj (hden.symm.trans e))
      exact ⟨hv, hz, by rw [ex, div_mul_cancel₀ _ hz], by rw [ey, div_mul_cancel₀ _ hz]⟩
    · cases hden.symm.trans e
    · cases hden.symm.trans e
  · rintro ⟨hv, hz, hX, hY⟩
    obtain ⟨hx, hy, -⟩ := (valid_affine x y).1 hv
    obtain ⟨x', y', e, hx', hy', ex, ey⟩ := denoted_affine hz
    rw [hX, mul_div_cancel_right₀ _ hz, cast_inj hx' hx] at ex
    rw [hY, mul_div_cancel_right₀ _ hz, cast_inj hy' hy] at ey
    exact ⟨by rw [e, ex, ey], hv, fun g => absurd ((cast_eq_zero_iff _).2 g) hz⟩

/-- A triple of O in R206's sense is a multiple of (0, 1, 0). -/
theorem denotes_infinity_iff : Denotes T .infinity ↔ (T.Z : ZMod p) = 0 ∧ (T.X : ZMod p) = 0 ∧ (T.Y : ZMod p) ≠ 0 := by
  rw [denotes_iff]
  constructor
  · rintro (⟨hz, -, e⟩ | ⟨hz, hy, hx, -⟩)
    · obtain ⟨x, y, e', -⟩ := denoted_affine hz
      cases e.symm.trans e'
    · exact ⟨hz, hx, hy⟩
  · rintro ⟨hz, hx, hy⟩
    exact .inr ⟨hz, hy, hx, rfl⟩

theorem onE_of_denotes (h : Denotes T (.affine x y)) : onE (x : ZMod p) y := ((valid_affine x y).1 h.onE).2.2

/-- No point of E has Y ≡ 0: neither (0, 1, 0) nor one of order 2. -/
theorem Denotes.Y_ne_zero (h : Denotes T P) : (T.Y : ZMod p) ≠ 0 := by
  cases P with
  | infinity => exact (denotes_infinity_iff.1 h).2.2
  | affine x y =>
    obtain ⟨-, hz, -, hY⟩ := denotes_affine_iff.1 h
    rw [hY]
    exact mul_ne_zero (curve_y_ne_zero (onE_of_denotes h)) hz

/-- A triple of a point of E satisfies the curve's projective equation. -/
theorem Denotes.equation (h : Denotes T P) :
    (T.Y : ZMod p) ^ 2 * T.Z = (T.X : ZMod p) ^ 3 - 3 * T.X * (T.Z : ZMod p) ^ 2 + 13318 * (T.Z : ZMod p) ^ 3 := by
  cases P with
  | infinity =>
    obtain ⟨hZ, hX, -⟩ := denotes_infinity_iff.1 h
    rw [hZ, hX]; ring
  | affine x y =>
    obtain ⟨-, -, hX, hY⟩ := denotes_affine_iff.1 h
    rw [hX, hY]
    linear_combination (T.Z : ZMod p) ^ 3 * onE_of_denotes h

/-- Multiples of a triple denote the same point. -/
theorem Denotes.of_multiple (h : Denotes T P) {c : ZMod p} (hc : c ≠ 0) (hX : (U.X : ZMod p) = c * T.X)
    (hY : (U.Y : ZMod p) = c * T.Y) (hZ : (U.Z : ZMod p) = c * T.Z) : Denotes U P := by
  cases P with
  | infinity =>
    obtain ⟨hTz, hTx, hTy⟩ := denotes_infinity_iff.1 h
    refine denotes_infinity_iff.2 ⟨?_, ?_, ?_⟩
    · rw [hZ, hTz, mul_zero]
    · rw [hX, hTx, mul_zero]
    · rw [hY]; exact mul_ne_zero hc hTy
  | affine x y =>
    obtain ⟨hv, hTz, hTx, hTy⟩ := denotes_affine_iff.1 h
    refine denotes_affine_iff.2 ⟨hv, ?_, ?_, ?_⟩
    · rw [hZ]; exact mul_ne_zero hc hTz
    · rw [hX, hZ, hTx]; ring
    · rw [hY, hZ, hTy]; ring

/-! ## The complete addition -/

/-- O + Q = Q: the formulas give the multiple of Q's triple by Y² times Q's Y. -/
theorem denotes_padd_infinity (hS : Denotes S .infinity) (hT : Denotes T Q) : Denotes (padd S T) Q := by
  obtain ⟨hZ, hX, hY⟩ := denotes_infinity_iff.1 hS
  refine hT.of_multiple (c := (S.Y : ZMod p) ^ 2 * T.Y) (mul_ne_zero (pow_ne_zero 2 hY) hT.Y_ne_zero) ?_ ?_ ?_
  · rw [padd_X, hX, hZ]; ring
  · rw [padd_Y, hX, hZ]; ring
  · rw [padd_Z, hX, hZ]; ring

/-- On two affine points the formulas give a multiple of what they give on affine coordinates. -/
theorem padd_of_affine (hS : Denotes S (.affine x1 y1)) (hT : Denotes T (.affine x2 y2)) :
    ∃ c : ZMod p, c ≠ 0 ∧ ((padd S T).X : ZMod p) = c * addX x1 y1 x2 y2 ∧ ((padd S T).Y : ZMod p) = c * addY x1 y1 x2 y2 ∧
      ((padd S T).Z : ZMod p) = c * addZ x1 y1 x2 y2 := by
  obtain ⟨-, hSz, hSx, hSy⟩ := denotes_affine_iff.1 hS
  obtain ⟨-, hTz, hTx, hTy⟩ := denotes_affine_iff.1 hT
  refine ⟨_, pow_ne_zero 2 (mul_ne_zero hSz hTz), ?_⟩
  have h := padd_affine S T hSz hTz
  rw [hSx, hSy, hTx, hTy] at h
  simpa only [mul_div_cancel_right₀ _ hSz, mul_div_cancel_right₀ _ hTz] using h

/-- A multiple of (X, Y, Z) denotes the reflected third point of the line of slope l through (x1, y1) when that point is (X/Z, Y/Z). -/
theorem denotes_throughSlope {l : Nat} {c X Y Z : ZMod p} (hv : (throughSlope l x1 y1 x2).valid = true) (hc : c ≠ 0) (hZ : Z ≠ 0)
    (hX : X = ((l : ZMod p) ^ 2 - x1 - x2) * Z) (hY : Y = (l * x1 - y1) * Z - l * X) (eX : (U.X : ZMod p) = c * X)
    (eY : (U.Y : ZMod p) = c * Y) (eZ : (U.Z : ZMod p) = c * Z) : Denotes U (throughSlope l x1 y1 x2) := by
  obtain ⟨x, y, e, -, -, ex, ey⟩ := throughSlope_lt l x1 y1 x2
  rw [e] at hv ⊢
  refine denotes_affine_iff.2 ⟨hv, ?_, ?_, ?_⟩
  · rw [eZ]; exact mul_ne_zero hc hZ
  · rw [eX, eZ, ex, hX]; ring
  · rw [eY, eZ, ey, hY, hX]; ring

/-- Two points with different abscissas: the chord. -/
theorem denotes_padd_chord (hS : Denotes S (.affine x1 y1)) (hT : Denotes T (.affine x2 y2)) (hx : x1 ≠ x2) :
    Denotes (padd S T) (affineAdd (.affine x1 y1) (.affine x2 y2)) := by
  have h1 := onE_of_denotes hS
  have h2 := onE_of_denotes hT
  have hne : (x1 : ZMod p) ≠ x2 := fun e => hx ((cast_inj ((valid_affine x1 y1).1 hS.onE).1 ((valid_affine x2 y2).1 hT.onE).1).1 e)
  have hd : (x2 : ZMod p) - x1 ≠ 0 := sub_ne_zero.2 hne.symm
  have hv := (toPoint_affineAdd hS.onE hT.onE).1
  obtain ⟨c, hc, eX, eY, eZ⟩ := padd_of_affine hS hT
  rw [affineAdd_affine, if_neg hx] at hv ⊢
  refine denotes_throughSlope hv hc (addZ_ne_zero h1 h2 hne) ?_ ?_ eX eY eZ <;> simp only [cast_fmul, cast_invp, cast_fsub]
  · field_simp
    linear_combination chord_X h1 h2
  · field_simp
    linear_combination chord_Y h1 h2

/-- A point with itself: the tangent. -/
theorem denotes_padd_tangent (hS : Denotes S (.affine x1 y1)) (hT : Denotes T (.affine x1 y1)) :
    Denotes (padd S T) (affineAdd (.affine x1 y1) (.affine x1 y1)) := by
  have h1 := onE_of_denotes hS
  have hy := curve_y_ne_zero h1
  have h2 := two_ne_zero_p
  have hsum : fadd y1 y1 ≠ 0 := fun e => mul_ne_zero h2 hy (by rw [two_mul, ← cast_fadd, e, Nat.cast_zero])
  have hv := (toPoint_affineAdd hS.onE hT.onE).1
  obtain ⟨c, hc, eX, eY, eZ⟩ := padd_of_affine hS hT
  rw [tangent_X h1] at eX
  rw [tangent_Y h1] at eY
  rw [tangent_Z h1] at eZ
  have h8 : (8 : ZMod p) * (y1 : ZMod p) ^ 3 ≠ 0 := by
    have e : (8 : ZMod p) = 2 ^ 3 := by norm_num
    rw [e]; exact mul_ne_zero (pow_ne_zero 3 h2) (pow_ne_zero 3 hy)
  rw [affineAdd_affine, if_pos rfl, if_neg hsum] at hv ⊢
  refine denotes_throughSlope hv hc h8 ?_ ?_ eX eY eZ <;>
    simp only [cast_fmul, cast_invp, cast_fsub, cast_fadd, Nat.cast_ofNat, ← two_mul]
  · field_simp
    ring
  · field_simp
    ring

/-- Opposite points: the formulas give a multiple of (0, 1, 0). -/
theorem denotes_padd_opposite (hS : Denotes S (.affine x1 y1)) (hT : Denotes T (.affine x1 y2)) (hy : fadd y1 y2 = 0) :
    Denotes (padd S T) (affineAdd (.affine x1 y1) (.affine x1 y2)) := by
  have h1 := onE_of_denotes hS
  have hy2 : (y2 : ZMod p) = -y1 := by
    have h := cast_fadd y1 y2
    rw [hy, Nat.cast_zero] at h
    linear_combination -h
  obtain ⟨c, hc, eX, eY, eZ⟩ := padd_of_affine hS hT
  rw [hy2] at eX eY eZ
  rw [affineAdd_affine, if_pos rfl, if_pos hy]
  refine denotes_infinity_iff.2 ⟨?_, ?_, ?_⟩
  · rw [eZ, opposite_Z, mul_zero]
  · rw [eX, opposite_X, mul_zero]
  · rw [eY, opposite_Y h1]; exact mul_ne_zero hc (double_y_ne_zero h1)

/-- Two points of one abscissa are opposite or equal. -/
theorem eq_of_fadd_ne_zero (hP : (AffinePoint.affine x1 y1).valid = true) (hQ : (AffinePoint.affine x1 y2).valid = true)
    (hy : fadd y1 y2 ≠ 0) : y1 = y2 := by
  obtain ⟨-, hy1, h1⟩ := (valid_affine x1 y1).1 hP
  obtain ⟨-, hy2, h2⟩ := (valid_affine x1 y2).1 hQ
  rcases sq_eq_sq_iff_eq_or_eq_neg.1 (h1.trans h2.symm) with e | e
  · exact (cast_inj hy1 hy2).1 e
  · refine absurd ((cast_inj (fadd_lt y1 y2) p_pos).1 ?_) hy
    rw [cast_fadd, e, Nat.cast_zero, neg_add_cancel]

/-- The cases of the chord-and-tangent law, one lemma each. -/
theorem denotes_padd (hS : Denotes S P) (hT : Denotes T Q) : Denotes (padd S T) (affineAdd P Q) := by
  cases P with
  | infinity => exact denotes_padd_infinity hS hT
  | affine x1 y1 =>
    cases Q with
    | infinity => rw [padd_comm]; exact denotes_padd_infinity hT hS
    | affine x2 y2 =>
      by_cases hx : x1 = x2
      · subst hx
        by_cases hy : fadd y1 y2 = 0
        · exact denotes_padd_opposite hS hT hy
        · obtain rfl := eq_of_fadd_ne_zero hS.onE hT.onE hy
          exact denotes_padd_tangent hS hT
      · exact denotes_padd_chord hS hT hx

/-- On points of E the doubling formulas are the addition formulas: only Z3 needs the curve's equation. -/
theorem pdbl_eq_padd (h : Denotes S P) : pdbl S = padd S S := by
  apply triple_ext (pdbl_lt S) (padd_lt S S)
  · rw [pdbl_X, padd_X]; ring
  · rw [pdbl_Y, padd_Y]; ring
  · rw [pdbl_Z, padd_Z]
    linear_combination 6 * (S.Y : ZMod p) * h.equation

end

/-- Settles O29: the cases P = O, Q = O, P = −Q, P = Q and the chord. -/
theorem completeAddition : Obligations.CompleteAddition := by
  have : Fact p.Prime := ⟨p_prime⟩
  intro S T P Q hS hT
  exact denotes_padd hS hT

/-- Settles O30: on points of E the doubling is the addition of the triple to itself. -/
theorem completeDoubling : Obligations.CompleteDoubling := by
  have : Fact p.Prime := ⟨p_prime⟩
  intro S P hS
  rw [pdbl_eq_padd hS]
  exact ⟨denotes_padd hS hS, rfl⟩

end Sys2Proof.Machine
end

section
/-! The point commands and the point wire format (41_point_layer.md R201, R210 to R214). -/

namespace Sys2Proof.Machine

/-! ## PT_ADD and PT_DBL (R212, R213) -/

/-- A point command whose result is a triple of values below p stores the canonical vectors of these values (R205). -/
theorem finishP_ofTriple (s : State) {rd : Field5} {T : Triple} (hrd : rd.toNat < 8) (hT : T.X < p ∧ T.Y < p ∧ T.Z < p) :
    ∃ t, finishP (scrubHidden s) rd (.ok (ofTriple T)) = .next t ∧ WrotePoint rd.toNat s t ∧
      isCanonical (feReg t (4 * rd.toNat)) ∧ isCanonical (feReg t (4 * rd.toNat + 1)) ∧ isCanonical (feReg t (4 * rd.toNat + 2)) ∧
      (⟨val (feReg t (4 * rd.toNat)), val (feReg t (4 * rd.toNat + 1)), val (feReg t (4 * rd.toNat + 2))⟩ : Triple) = T := by
  obtain ⟨t, hexec, hframe, hreg⟩ := finishP_scrub_ok s rd (ofTriple T) hrd
  obtain ⟨hX, hY, hZ⟩ := hT
  simp only [ptReg, ofTriple, Nat.mod_eq_of_lt hX, Nat.mod_eq_of_lt hY, Nat.mod_eq_of_lt hZ, Point.mk.injEq] at hreg
  obtain ⟨h0, h1, h2⟩ := hreg
  refine ⟨t, hexec, hframe, ?_⟩
  rw [h0, h1, h2, val_limbs (lt_trans hX p_lt), val_limbs (lt_trans hY p_lt), val_limbs (lt_trans hZ p_lt)]
  exact ⟨limbs_canonical hX, limbs_canonical hY, limbs_canonical hZ, rfl⟩

/-- Settles O27: the engine adds the residues. -/
theorem pointAdditionResult : Obligations.PointAdditionResult := by
  intro s rd ra rb hw
  simp only [Instr.wf, Bool.and_eq_true] at hw
  obtain ⟨⟨hrd, -⟩, -⟩ := hw
  exact finishP_ofTriple s (preg_lt hrd) (padd_lt (residues (ptReg s ra.toNat)) (residues (ptReg s rb.toNat)))

/-- Settles O28: the engine doubles the residues. -/
theorem pointDoublingResult : Obligations.PointDoublingResult := by
  intro s rd ra hw
  simp only [Instr.wf, Bool.and_eq_true] at hw
  obtain ⟨hrd, -⟩ := hw
  exact finishP_ofTriple s (preg_lt hrd) (pdbl_lt (residues (ptReg s ra.toNat)))

/-! ## PT_FROMBYTES (R210) -/

theorem zeroFe_eq_limbs : zeroFe = limbs 0 := by decide

theorem oneFe_eq_limbs : oneFe = limbs 1 := by decide

theorem readQ_take (s : State) (v : Field5) : (readQ s v).take 32 = memRead s (32 * v.toNat) 32 := memRead_take s _ 32 32

theorem readQ_drop (s : State) (v : Field5) : (readQ s v).drop 32 = memRead s (32 * v.toNat + 32) 32 := memRead_drop s _ 32 32

/-- Settles O25: the three ways decoding ends. -/
theorem pointDecoding : Obligations.PointDecoding := by
  intro s rd ra hw x y curve
  have hrd : rd.toNat < 8 := preg_lt (Bool.and_eq_true_iff.1 hw).1
  have hexec : exec (.ptFrombytes rd ra) s = finishP (scrubHidden s) rd (decodePoint (readQ s ra)) := rfl
  have hcases := decodePoint_cases (readQ s ra)
  rw [readQ_take, readQ_drop] at hcases
  rw [hexec, ← zeroFe_eq_limbs, ← oneFe_eq_limbs]
  rcases hcases with ⟨hx, hy, hdec⟩ | ⟨hne, hcurve, hdec⟩ | ⟨hne, hcurve, hdec⟩ <;> rw [hdec]
  · exact ⟨fun _ => finishP_scrub_ok s rd _ hrd, fun h => absurd ⟨hx, hy⟩ h, fun h => absurd ⟨hx, hy⟩ h⟩
  · exact ⟨fun h => absurd h hne, fun _ _ => finishP_scrub_ok s rd _ hrd, fun _ h => absurd hcurve h⟩
  · exact ⟨fun h => absurd h hne, fun _ h => absurd h hcurve, fun _ _ => finishP_scrub_error s rd _⟩

/-! ## PT_TOBYTES (R211) -/

theorem affineX_lt (P : Point) : affineX P < p := fmul_lt _ _

theorem affineY_lt (P : Point) : affineY P < p := fmul_lt _ _

/-- A coordinate divided by z: multiplied by z it is the coordinate again, unless z ≡ 0. -/
theorem fmul_invp_mul (v : Nat) {z : Nat} (hz : z % p ≠ 0) : fmul (v % p) (invp (z % p)) * z % p = v % p := by
  have : Fact p.Prime := ⟨p_prime⟩
  have hz' : (z : ZMod p) ≠ 0 := fun e => hz ((cast_eq_zero_iff _).1 e)
  rw [← cast_eq_iff_mod, Nat.cast_mul, cast_fmul, cast_invp, cast_mod, cast_mod, inv_mul_cancel_right₀ hz']

theorem fmul_invp_zero (v : Nat) : fmul v (invp 0) = 0 := by rw [invp_zero, fmul, Nat.mul_zero, Nat.zero_mod]

theorem fmul_invp_one (v : Nat) : fmul v (invp 1) = v % p := by
  have : Fact p.Prime := ⟨p_prime⟩
  apply (cast_inj (fmul_lt _ _) (Nat.mod_lt _ p_pos)).1
  rw [cast_fmul, cast_invp, cast_mod, Nat.cast_one, inv_one, mul_one]

/-- The integer of the 32-byte encoding of a value below p. -/
theorem le_leBytes_of_lt {v : Nat} (h : v < p) : le (leBytes 32 v) = v := by
  rw [le_leBytes, Nat.mod_eq_of_lt (lt_trans (lt_trans h p_lt) (by decide))]

/-- PT_TOBYTES completes in every state, and its two slots hold the affine coordinates. -/
theorem exec_ptTobytes (s : State) {rd ra : Field5} (hw : (Instr.ptTobytes rd ra).wf = true) :
    ∃ t, exec (.ptTobytes rd ra) s = .next t ∧ WroteBytes (32 * rd.toNat) 64 s t ∧
      le (memRead t (32 * rd.toNat) 32) = affineX (ptReg s ra.toNat) ∧
      le (memRead t (32 * rd.toNat + 32) 32) = affineY (ptReg s ra.toNat) := by
  have hslot : slotBase rd + (encodePoint (readP s ra)).length ≤ bufSize := by
    have hrd := pslot_lt (Bool.and_eq_true_iff.1 hw).1
    rw [encodePoint_length, slotBase, bufSize]
    omega
  obtain ⟨hframe, hread⟩ := completeSuccess_writeSlots_scrub s rd _ hslot
  rw [encodePoint_length] at hframe hread
  refine ⟨completeSuccess (writeSlots (scrubHidden s) rd (encodePoint (readP s ra))), rfl, hframe, ?_, ?_⟩
  · rw [← memRead_take _ _ 32 32, hread, encodePoint, List.take_left' (leBytes_length _ _), le_leBytes_of_lt (affineX_lt _), readP]
  · rw [← memRead_drop _ _ 32 32, hread, encodePoint, List.drop_left' (leBytes_length _ _), le_leBytes_of_lt (affineY_lt _), readP]

/-- Settles O26: the slots hold X/Z and Y/Z, where the inverse of 0 is 0. -/
theorem pointEncoding : Obligations.PointEncoding := by
  intro s rd ra hw
  obtain ⟨t, hexec, hframe, hx, hy⟩ := exec_ptTobytes s hw
  refine ⟨t, hexec, hframe, ?_⟩
  simp only [map_bufByte_eq, hx, hy]
  refine ⟨affineX_lt _, affineY_lt _, fun hz => ⟨fmul_invp_mul _ hz, fmul_invp_mul _ hz⟩, fun hz => ?_⟩
  rw [affineX, affineY, canon, canon, canon, hz]
  exact ⟨fmul_invp_zero _, fmul_invp_zero _⟩

/-! ## The round trip (R214) -/

theorem canon_limbs {v : Nat} (h : v < 2 ^ 255) : canon (limbs v) = v % p := by rw [canon, val_limbs h]

/-- The affine coordinates of a point with Z = 1 are the residues of its coordinates. -/
theorem affine_of_one {x y : Nat} (hx : x < 2 ^ 255) (hy : y < 2 ^ 255) :
    affineX ⟨limbs x, limbs y, limbs 1⟩ = x % p ∧ affineY ⟨limbs x, limbs y, limbs 1⟩ = y % p := by
  have h1 : canon (limbs 1) = 1 := by decide
  simp only [affineX, affineY, h1, fmul_invp_one, canon_limbs hx, canon_limbs hy, Nat.mod_mod, and_self]

/-- The identity is encoded as two zero coordinates. -/
theorem affine_of_identity : affineX ⟨limbs 0, limbs 1, limbs 0⟩ = 0 ∧ affineY ⟨limbs 0, limbs 1, limbs 0⟩ = 0 := by
  have h0 : canon (limbs 0) = 0 := by decide
  simp only [affineX, affineY, h0, fmul_invp_zero, and_self]

/-- PT_FROMBYTES of bytes that decode stores a point whose affine coordinates are the decoded ones mod p. -/
theorem exec_ptFrombytes_affine (s : State) {rd ra : Field5} (hw : (Instr.ptFrombytes rd ra).wf = true) :
    let x : Nat := le (memRead s (32 * ra.toNat) 32) % 2 ^ 255
    let y : Nat := le (memRead s (32 * ra.toNat + 32) 32) % 2 ^ 255
    (x = 0 ∧ y = 0 ∨ (y : ZMod p) ^ 2 = (x : ZMod p) ^ 3 - 3 * (x : ZMod p) + 13318) →
    ∃ t, exec (.ptFrombytes rd ra) s = .next t ∧ affineX (ptReg t rd.toNat) = x % p ∧ affineY (ptReg t rd.toNat) = y % p := by
  intro x y hdecodes
  obtain ⟨hidentity, hcurve, -⟩ := pointDecoding s rd ra hw
  by_cases h : x = 0 ∧ y = 0
  · obtain ⟨t, hexec, -, hreg⟩ := hidentity h
    refine ⟨t, hexec, ?_⟩
    rw [hreg, h.1, h.2]
    exact affine_of_identity
  · obtain ⟨t, hexec, -, hreg⟩ := hcurve h (hdecodes.resolve_left h)
    refine ⟨t, hexec, ?_⟩
    rw [hreg]
    exact affine_of_one (Nat.mod_lt _ (by positivity)) (Nat.mod_lt _ (by positivity))

/-- Settles O32: the coordinates come back mod p, and the bytes of a half when its integer does. -/
theorem pointRoundTrip : Obligations.PointRoundTrip := by
  intro s rd ra rs hfrom hto xRaw yRaw x y hdecodes
  obtain ⟨t, hdecode, hx, hy⟩ := exec_ptFrombytes_affine s hfrom hdecodes
  obtain ⟨u, hencode, -, hux, huy⟩ := exec_ptTobytes t hto
  rw [hx] at hux
  rw [hy] at huy
  refine ⟨t, u, hdecode, hencode, hux, huy, fun ⟨hxlt, hylt⟩ => (memRead_eq_iff s u _ _ 64).1 ?_⟩
  have hxs : memRead u (32 * rs.toNat) 32 = memRead s (32 * ra.toNat) 32 :=
    (memRead_eq_iff_le s u _ _ 32).2 (hux.trans ((decoded_residue_eq_iff xRaw).2 hxlt))
  have hys : memRead u (32 * rs.toNat + 32) 32 = memRead s (32 * ra.toNat + 32) 32 :=
    (memRead_eq_iff_le s u _ _ 32).2 (huy.trans ((decoded_residue_eq_iff yRaw).2 hylt))
  rw [memRead_append u _ 32 32, memRead_append s _ 32 32, hxs, hys]

end Sys2Proof.Machine
end

section
/-! Select on its three operand shapes (41_point_layer.md R208), the masked scan of the table (42_scalar_ladder.md R248) and the table's
recurrence (R245). -/

namespace Sys2Proof.Machine

/-! ## Select -/

/-- A selection of the left argument in every place gives the left list. -/
theorem zipWith_of_left {α : Type} {f : α → α → α} (hf : ∀ a b, f a b = a) {A B : List α} (h : A.length = B.length) :
    List.zipWith f A B = A := by
  induction A generalizing B with
  | nil => rfl
  | cons a A ih =>
    cases B with
    | nil => cases h
    | cons b B => rw [List.zipWith_cons_cons, hf, ih (Nat.succ.inj h)]

theorem zipWith_of_right {α : Type} {f : α → α → α} (hf : ∀ a b, f a b = b) {A B : List α} (h : A.length = B.length) :
    List.zipWith f A B = B := by
  rw [List.zipWith_comm, zipWith_of_left (fun a b => hf b a) h.symm]

/-! ## The masked scan -/

/-- The scan finds the candidate of the digit's magnitude, negated for a negative digit. -/
theorem lookupDigit_eq (T : List Point) {d : Int} (h : d.natAbs < 17) :
    lookupDigit T d = selectPoint (decide (d < 0)) (negPoint (candidate T d.natAbs)) (candidate T d.natAbs) := by
  rw [lookupDigit, foldl_orMasked T d.natAbs 17 h]

theorem candidate_zero (T : List Point) : candidate T 0 = identityPoint := rfl

theorem candidate_pos (T : List Point) {k : Nat} (h : k ≠ 0) : candidate T k = entry T (k - 1) := if_neg h

/-- The three cases of the lookup (42_scalar_ladder.md R248). -/
theorem lookupDigit_cases (T : List Point) {d : Int} (hl : -16 ≤ d) (hu : d ≤ 15) :
    lookupDigit T d =
      if d = 0 then identityPoint else if 0 < d then entry T (d.toNat - 1) else negPoint (entry T ((-d).toNat - 1)) := by
  rw [lookupDigit_eq T (by omega)]
  rcases lt_trichotomy d 0 with hd | rfl | hd
  · have hn : d.natAbs = (-d).toNat := by omega
    rw [if_neg (by omega), if_neg (by omega), decide_eq_true hd, selectPoint_true, hn, candidate_pos T (by omega)]
  · rw [if_pos rfl]
    exact selectPoint_false _ _
  · have hn : d.natAbs = d.toNat := by omega
    rw [if_neg (by omega), if_pos hd, decide_eq_false (by omega), selectPoint_false, hn, candidate_pos T (by omega)]

/-! ## The table -/

/-- An entry the table has after `n` steps is the finished table's. -/
theorem entry_precompute (Q : Point) {n k : Nat} (hk : k ≤ n) (hn : n ≤ 15) :
    entry (precompute Q) k = entry (tableUpTo Q n) k := by
  rw [precompute_eq, entry_tableUpTo Q hk hn]

/-- The recurrence of the finished table (42_scalar_ladder.md R245): step m - 2 of PRECOMPUTE reads entries that stay. -/
theorem entry_precompute_rec (Q : Point) {m : Nat} (hl : 2 ≤ m) (hu : m ≤ 16) :
    entry (precompute Q) (m - 1) =
      if m % 2 = 0 then dblPoint (entry (precompute Q) (m / 2 - 1))
      else addPoints (entry (precompute Q) (m - 2)) (entry (precompute Q) 0) := by
  obtain ⟨n, rfl⟩ : ∃ n, m = n + 2 := ⟨m - 2, by omega⟩
  have hlast : entry (precompute Q) (n + 2 - 1) = nextEntry (tableUpTo Q n) (n + 2) := by
    rw [← entry_tableUpTo_last]
    exact entry_precompute Q le_rfl (by omega)
  rw [hlast, nextEntry, entry_precompute Q (show (n + 2) / 2 - 1 ≤ n by omega) (by omega),
    entry_precompute Q (show n + 2 - 2 ≤ n by omega) (by omega), entry_precompute Q (Nat.zero_le n) (by omega)]

/-- Settles O34: select on each shape, the masked scan and the table's recurrence. -/
theorem lookupSelects : Obligations.LookupSelects := by
  refine ⟨fun m a b => ?_, fun m P Q => ?_, fun m A B h => ?_, fun m A B h => ?_, fun T d hl hu => lookupDigit_cases T hl hu,
    fun Q => ⟨?_, ?_, fun m hl hu => entry_precompute_rec Q hl hu⟩⟩
  · cases m
    · exact selectFe_false a b
    · exact selectFe_true a b
  · cases m
    · exact selectPoint_false P Q
    · exact selectPoint_true P Q
  · cases m
    · exact zipWith_of_right selectFe_false h
    · exact zipWith_of_left selectFe_true h
  · cases m
    · exact zipWith_of_right selectPoint_false h
    · exact zipWith_of_left selectPoint_true h
  · rw [precompute_eq, tableUpTo_length]
  · exact entry_precompute Q (Nat.zero_le 0) (Nat.zero_le 15)

end Sys2Proof.Machine
end

section
/-! The signed base-32 recoding of the scalar (42_scalar_ladder.md R243). -/

namespace Sys2Proof.Machine

/-- The number that signed base-32 digits stand for, digit 0 the least significant one. -/
def digitSum (ds : List Int) (n : Nat) : Int := ((List.range n).map fun i => ds.getD i 0 * 32 ^ i).sum

theorem digitSum_succ (ds : List Int) (n : Nat) : digitSum ds (n + 1) = digitSum ds n + ds.getD n 0 * 32 ^ n := by
  simp [digitSum, List.range_succ]

theorem digitSum_cons (d : Int) (ds : List Int) (n : Nat) : digitSum (d :: ds) (n + 1) = d + 32 * digitSum ds n := by
  induction n with
  | zero => simp [digitSum]
  | succ n ih =>
    rw [digitSum_succ, ih, digitSum_succ, List.getD_cons_succ]
    ring

theorem slice_eq_div_mod (k i : Nat) : (k >>> (5 * i)) &&& 31 = k / 32 ^ i % 32 := by
  rw [Nat.shiftRight_eq_div_pow, pow_mul, show (31 : Nat) = 2 ^ 5 - 1 from rfl, Nat.and_two_pow_sub_one_eq_mod]
  rfl

/-- The carry out of a window. -/
def carryOut (v : Nat) : Nat := if 16 ≤ v then 1 else 0

theorem carryOut_le (v : Nat) : carryOut v ≤ 1 := by unfold carryOut; split <;> omega

/-- A digit lies in [−16, 15]. -/
theorem digit_range {v : Nat} (h : v ≤ 32) : -16 ≤ (v : Int) - 32 * carryOut v ∧ (v : Int) - 32 * carryOut v ≤ 15 := by
  unfold carryOut; split <;> omega

/-- One window of the recoding, `v` being its slice and the incoming carry. -/
theorem recode_succ (n : Nat) {i k c v : Nat} (hv : v = k / 32 ^ i % 32 + c) :
    recode (n + 1) i k c =
      (((v : Int) - 32 * carryOut v) :: (recode n (i + 1) k (carryOut v)).1, (recode n (i + 1) k (carryOut v)).2) := by
  subst hv
  rw [← slice_eq_div_mod]
  rfl

/-- What the recoding of `n` windows from window `i` up keeps: the slices and the incoming carry are the digits and the carry out. -/
theorem recode_spec (n i k : Nat) {c : Nat} (hc : c ≤ 1) :
    (recode n i k c).1.length = n ∧ (∀ d ∈ (recode n i k c).1, -16 ≤ d ∧ d ≤ 15) ∧ (recode n i k c).2 ≤ 1 ∧
      ((k / 32 ^ i % 32 ^ n + c : Nat) : Int) = digitSum (recode n i k c).1 n + ((recode n i k c).2 : Int) * 32 ^ n := by
  induction n generalizing i c with
  | zero => simp [recode, digitSum, hc, Nat.mod_one]
  | succ n ih =>
    obtain ⟨v, hv⟩ : ∃ v, v = k / 32 ^ i % 32 + c := ⟨_, rfl⟩
    rw [recode_succ n hv]
    obtain ⟨hlen, hdigits, htop, hsum⟩ := ih (i + 1) (carryOut_le v)
    refine ⟨congrArg (· + 1) hlen, List.forall_mem_cons.2 ⟨digit_range (by omega), hdigits⟩, htop, ?_⟩
    have hsplit : k / 32 ^ i % 32 ^ (n + 1) + c = v + 32 * (k / 32 ^ (i + 1) % 32 ^ n) := by
      rw [hv, pow_succ' 32 n, Nat.mod_mul, Nat.div_div_eq_div_mul, ← pow_succ]
      ring
    rw [hsplit, digitSum_cons]
    simp only [Nat.cast_add, Nat.cast_mul, Nat.cast_ofNat] at hsum ⊢
    linear_combination 32 * hsum

/-- Settles O33: the recoding of 51 windows from window 0 up, without a carry in. -/
theorem recodingReconstructs : Obligations.RecodingReconstructs := by
  intro K
  obtain ⟨hlen, hdigits, htop, hsum⟩ := recode_spec 51 0 (K % 2 ^ 255) (Nat.zero_le 1)
  refine ⟨hlen, hdigits, htop, ?_⟩
  have hK : K % 2 ^ 255 / 32 ^ 0 % 32 ^ 51 + 0 = K % 2 ^ 255 := by
    rw [pow_zero, Nat.div_one, add_zero]
    exact Nat.mod_eq_of_lt (Nat.mod_lt _ (by decide))
  rw [hK] at hsum
  exact hsum

/-- A digit of the scalar, 0 beyond the last window. -/
theorem decompose_digit_range (K i : Nat) : -16 ≤ (decompose K).1.getD i 0 ∧ (decompose K).1.getD i 0 ≤ 15 := by
  obtain ⟨-, hdigits, -, -⟩ := recodingReconstructs K
  rcases lt_or_ge i (decompose K).1.length with hi | hi
  · rw [List.getD_eq_getElem _ _ hi]
    exact hdigits _ (List.getElem_mem hi)
  · rw [List.getD_eq_default _ _ hi]
    decide

end Sys2Proof.Machine
end

section
/-! How SCALARMULT ends, and what its end depends on (42_scalar_ladder.md R240, R242, R253). -/

namespace Sys2Proof.Machine

/-! ## How SCALARMULT ends (R240, R253) -/

/-- The bytes of a point that decodes to `Q` (R249). -/
theorem ladderResult_ok {sbytes pbytes : List Byte} {Q : Point} (h : decodePoint pbytes = .ok Q) (g : LadderState) :
    ladderResult sbytes pbytes g = .ok (encodePoint (ladderAcc (le sbytes) Q)) := by
  rw [ladderResult, h, ← runLadder_acc (le sbytes) Q g]; rfl

theorem ladderResult_error {pbytes : List Byte} {k : Cause} (h : decodePoint pbytes = .error k) (sbytes : List Byte)
    (g : LadderState) : ladderResult sbytes pbytes g = .error k := by
  rw [ladderResult, h]; rfl

theorem exec_scalarmult (rd ra rb : Field5) (s : State) : exec (.scalarmult rd ra rb) s =
    .next (finish (scrubHidden s) ((ladderResult (readS s ra) (readQ s rb) s.hidden).map (writeSlots (scrubHidden s) rd))) := rfl

/-- SCALARMULT of a point that decodes writes its 64 bytes alone. -/
theorem exec_scalarmult_ok {s : State} {rd ra rb : Field5} {Q : Point} (hw : (Instr.scalarmult rd ra rb).wf = true)
    (hQ : decodePoint (readQ s rb) = .ok Q) :
    ∃ t, exec (.scalarmult rd ra rb) s = .next t ∧ WroteBytes (32 * rd.toNat) 64 s t ∧
      memRead t (32 * rd.toNat) 64 = encodePoint (ladderAcc (le (readS s ra)) Q) := by
  have hslot : slotBase rd + (encodePoint (ladderAcc (le (readS s ra)) Q)).length ≤ bufSize := by
    have hrd := pslot_lt (Bool.and_eq_true_iff.1 (Bool.and_eq_true_iff.1 hw).1).1
    rw [encodePoint_length, slotBase, bufSize]
    omega
  obtain ⟨hframe, hread⟩ := completeSuccess_writeSlots_scrub s rd _ hslot
  rw [encodePoint_length] at hframe hread
  refine ⟨_, ?_, hframe, hread⟩
  rw [exec_scalarmult, ladderResult_ok hQ]
  rfl

/-- SCALARMULT of any other point ends with the decoding's error. -/
theorem exec_scalarmult_error {s : State} {rd ra rb : Field5} {k : Cause} (hk : decodePoint (readQ s rb) = .error k) :
    ∃ t, exec (.scalarmult rd ra rb) s = .next t ∧ WroteNothing k s t := by
  refine ⟨_, ?_, completeError_scrub_spec k s⟩
  rw [exec_scalarmult, ladderResult_error hk]
  rfl

/-- The bytes of a point slot decode exactly when they are the identity encoding or a pair on the curve (R242). -/
theorem decodePoint_readQ_cases (s : State) (v : Field5) :
    let x : Nat := le (memRead s (32 * v.toNat) 32) % 2 ^ 255
    let y : Nat := le (memRead s (32 * v.toNat + 32) 32) % 2 ^ 255
    let decodes : Prop := x = 0 ∧ y = 0 ∨ (y : ZMod p) ^ 2 = (x : ZMod p) ^ 3 - 3 * (x : ZMod p) + 13318
    (decodes ∧ ∃ Q, decodePoint (readQ s v) = .ok Q) ∨ (¬ decodes ∧ decodePoint (readQ s v) = .error .invalidPoint) := by
  have hcases := decodePoint_cases (readQ s v)
  rw [readQ_take, readQ_drop] at hcases
  rcases hcases with ⟨hx, hy, hdec⟩ | ⟨-, hcurve, hdec⟩ | ⟨hne, hcurve, hdec⟩
  · exact .inl ⟨.inl ⟨hx, hy⟩, _, hdec⟩
  · exact .inl ⟨.inr hcurve, _, hdec⟩
  · exact .inr ⟨not_or.2 ⟨hne, hcurve⟩, hdec⟩

/-- Settles O35: the two ways SCALARMULT ends. -/
theorem scalarMultFrame : Obligations.ScalarMultFrame := by
  intro s rd ra rb hw x y decodes
  rcases decodePoint_readQ_cases s rb with ⟨hdec, Q, hQ⟩ | ⟨hdec, herr⟩
  · obtain ⟨t, hexec, hframe, -⟩ := exec_scalarmult_ok hw hQ
    exact ⟨fun _ => ⟨t, hexec, hframe⟩, fun h => absurd hdec h⟩
  · exact ⟨fun h => absurd h hdec, fun _ => exec_scalarmult_error herr⟩

/-! ## The result is a function of the operand bytes (R253) -/

theorem Succeeded.status_eq {s t : State} (h : Succeeded s t) :
    t.status = ⟨false, true, s.status.err, s.status.ovr, s.status.cause⟩ := by
  obtain ⟨hdone, hbusy, herr, hcause, hovr, -, -⟩ := h
  rw [← hdone, ← hbusy, ← herr, ← hcause, ← hovr]

theorem Failed.status_eq {k : Cause} {s t : State} (h : Failed k s t) :
    t.status = ⟨false, s.status.done, true, s.status.ovr, k⟩ := by
  obtain ⟨hcause, herr, hbusy, hdone, hovr, -, -⟩ := h
  rw [← hdone, ← hbusy, ← herr, ← hcause, ← hovr]

/-- Settles O36: both runs decode the same point bytes, and the ladder's result does not depend on the hidden state. -/
theorem scalarMultIsPure : Obligations.ScalarMultIsPure := by
  intro s u rd ra rb rd' ra' rb' hw hw' hscalar hpoint hstatus
  have hS : readS s ra = readS u ra' := (memRead_eq_iff u s _ _ 32).2 hscalar
  have hQ : readQ s rb = readQ u rb' := (memRead_eq_iff u s _ _ 64).2 hpoint
  rcases hdec : decodePoint (readQ s rb) with k | Q
  · obtain ⟨s', hexec, hframe⟩ := exec_scalarmult_error (rd := rd) (ra := ra) hdec
    obtain ⟨u', hexec', hframe'⟩ := exec_scalarmult_error (rd := rd') (ra := ra') (hQ ▸ hdec)
    refine ⟨s', u', hexec, hexec', ?_, fun hdone hclear => ?_⟩
    · rw [hframe.completed.status_eq, hframe'.completed.status_eq, hstatus]
    · exact absurd ((hframe.completed.done.symm.trans hdone).symm.trans hclear) (by decide)
  · obtain ⟨s', hexec, hframe, hbytes⟩ := exec_scalarmult_ok hw hdec
    obtain ⟨u', hexec', hframe', hbytes'⟩ := exec_scalarmult_ok hw' (hQ ▸ hdec)
    refine ⟨s', u', hexec, hexec', ?_, fun _ _ => (memRead_eq_iff u' s' _ _ 64).1 ?_⟩
    · rw [hframe.completed.status_eq, hframe'.completed.status_eq, hstatus]
    · rw [hbytes, hbytes', hS]

end Sys2Proof.Machine
end

section
/-! The ladder's phase sequence and the reads of LADDER (42_scalar_ladder.md R241, 10_state.md R44). -/

namespace Sys2Proof.Machine

/-! ## The phase sequence (R241) -/

/-- A phase as LADDER shows it: PHASE, WIN and DBL (10_state.md R44). -/
def stageCode (g : LadderStage) : Nat × Nat × Nat := (phaseCode g.phase, g.win, g.dbl)

/-- The phases of a window as LADDER shows them. -/
def windowCodes (i : Nat) : List (Nat × Nat × Nat) := [(5, i, 0), (5, i, 1), (5, i, 2), (5, i, 3), (5, i, 4), (6, i, 0)]

theorem map_stageCode_window (i : Nat) : (windowStages i).map stageCode = windowCodes i := rfl

theorem map_stageCode_windows (ws : List Nat) : (ws.flatMap windowStages).map stageCode = (ws.map windowCodes).flatten := by
  rw [List.map_flatMap, List.flatMap_def]
  simp only [map_stageCode_window]

theorem map_stageCode_stages : (decodeStage :: stagesAfterDecode).map stageCode =
    [(1, 0, 0), (2, 0, 0), (3, 0, 0), (4, 0, 0)] ++ ((List.range 51).reverse.map windowCodes).flatten ++ [(7, 0, 0)] := by
  rw [stagesAfterDecode, List.map_cons, List.map_append, List.map_append, map_stageCode_windows]
  rfl

/-! ## Reads of LADDER (10_state.md R44) -/

/-- The number a LADDER word holds. -/
def codeNumber (c : Nat × Nat × Nat) : Nat := c.1 + 16 * c.2.1 + 1024 * c.2.2

/-- The three fields take 13 bits. -/
theorem codeNumber_lt {g : LadderStage} (h : g ∈ decodeStage :: stagesAfterDecode) : codeNumber (stageCode g) < 2 ^ 13 := by
  have hcodes : ∀ c ∈ (decodeStage :: stagesAfterDecode).map stageCode, codeNumber c < 2 ^ 13 := by
    rw [map_stageCode_stages]
    simp only [List.forall_mem_append, List.forall_mem_flatten, List.forall_mem_map, List.mem_reverse, List.mem_range]
    refine ⟨⟨by decide, fun i hi => ?_⟩, by decide⟩
    simp only [windowCodes, codeNumber, List.forall_mem_cons, List.not_mem_nil, false_implies, implies_true, and_true]
    omega
  exact hcodes _ (List.mem_map_of_mem h)

/-- The LADDER word, as the 64-bit value a read answers. -/
theorem stageWord_setWidth {g : LadderStage} (h : g ∈ decodeStage :: stagesAfterDecode) :
    (stageWord g).setWidth 64 = BitVec.ofNat 64 (codeNumber (stageCode g)) := by
  have hlt := codeNumber_lt h
  apply BitVec.eq_of_toNat_eq
  rw [stageWord, BitVec.toNat_setWidth_of_le (by decide), BitVec.toNat_ofNat, BitVec.toNat_ofNat]
  simp only [codeNumber, stageCode] at hlt ⊢
  omega

theorem readLadder_zero {s : State} (h : s.status.busy = false ∨ pendingStages s = none) : (readLadder s).resp = .data 0 := by
  unfold readLadder
  rcases h with h | h
  · rw [h]; rfl
  · rw [h]; cases s.status.busy <;> rfl

/-- While a SCALARMULT is pending the answer is a phase of its sequence. -/
theorem readLadder_pending {s : State} {gs : List LadderStage} (hb : s.status.busy = true) (h : pendingStages s = some gs)
    (hgs : gs ≠ []) : ∃ g ∈ gs, (readLadder s).resp = .data ((stageWord g).setWidth 64) := by
  have hlt : Config.freeIndex s.draws % gs.length < gs.length := Nat.mod_lt _ (List.length_pos_iff.2 hgs)
  refine ⟨gs.getD (Config.freeIndex s.draws % gs.length) decodeStage, ?_, ?_⟩
  · rw [List.getD_eq_getElem _ _ hlt]
    exact List.getElem_mem hlt
  · unfold readLadder
    rw [hb, h]
    rfl

theorem pendingStages_other {s : State} (h : ∀ w rd ra rb, s.pending = some w → decode w ≠ .ok (.scalarmult rd ra rb)) :
    pendingStages s = none := by
  unfold pendingStages
  split
  · rfl
  · next w hw =>
    split
    · next rd ra rb hdec => exact absurd hdec (h w rd ra rb hw)
    · rfl

theorem pendingStages_scalarmult {s : State} {w : Word} {rd ra rb : Field5} (h : s.pending = some w)
    (hdec : decode w = .ok (.scalarmult rd ra rb)) : pendingStages s = some (stagesOf (readQ s rb)) := by
  unfold pendingStages
  rw [h]
  dsimp only
  rw [hdec]

theorem stagesOf_ok {bytes : List Byte} {P : Point} (h : decodePoint bytes = .ok P) :
    stagesOf bytes = decodeStage :: stagesAfterDecode := by unfold stagesOf; rw [h]

theorem stagesOf_error {bytes : List Byte} {k : Cause} (h : decodePoint bytes = .error k) : stagesOf bytes = [decodeStage] := by
  unfold stagesOf; rw [h]

/-- Settles O39: the sequence, and a read of LADDER with no SCALARMULT, one with a valid and one with an invalid point pending. -/
theorem ladderRegisterReads : Obligations.LadderRegisterReads := by
  refine ⟨map_stageCode_stages, fun s rest hh => ?_⟩
  have hstep : step s = .next (readLadder { s with host := rest }) :=
    step_read (g := .ladder) hh (by decide) (by decide)
  refine ⟨fun h => ⟨_, hstep, readLadder_zero (h.imp id pendingStages_other)⟩, fun w rd ra rb P hb hp hdec hP => ?_,
    fun w rd ra rb k hb hp hdec hk => ?_⟩
  · have hstages : pendingStages { s with host := rest } = some (decodeStage :: stagesAfterDecode) :=
      (pendingStages_scalarmult hp hdec).trans (congrArg some (stagesOf_ok hP))
    obtain ⟨g, hg, hresp⟩ := readLadder_pending (s := { s with host := rest }) hb hstages (List.cons_ne_nil _ _)
    exact ⟨_, g, hstep, hg, hresp.trans (congrArg HostResponse.data (stageWord_setWidth hg))⟩
  · have hstages : pendingStages { s with host := rest } = some [decodeStage] :=
      (pendingStages_scalarmult hp hdec).trans (congrArg some (stagesOf_error hk))
    obtain ⟨g, hg, hresp⟩ := readLadder_pending (s := { s with host := rest }) hb hstages (List.cons_ne_nil _ _)
    obtain rfl := List.mem_singleton.1 hg
    exact ⟨_, hstep, hresp⟩

end Sys2Proof.Machine
end

section
/-! The ladder's result as a multiple in the group: the table, the lookup, the windows and the encoding (42_scalar_ladder.md R244 to
R250). -/

namespace Sys2Proof.Machine

/-! ## Points of the engine as elements of the group (R206) -/

/-- The triple denotes a point of E in R206's sense, which stands for the element `g` of the group. -/
def Represents (P : Point) (g : curve.Point) : Prop := ∃ A, Denotes (residues P) A ∧ toPoint A = g

theorem cast_fsub_zero (y : Nat) : ((fsub 0 y : Nat) : ZMod p) = -y := by rw [cast_fsub, Nat.cast_zero, zero_sub]

theorem entry_precompute_zero (Q : Point) : entry (precompute Q) 0 = Q := entry_precompute Q (Nat.zero_le 0) (Nat.zero_le 15)

section
variable [Fact p.Prime] {P Q : Point} {g h : curve.Point}

theorem Represents.addPoints (hP : Represents P g) (hQ : Represents Q h) : Represents (addPoints P Q) (g + h) := by
  obtain ⟨A, hA, rfl⟩ := hP
  obtain ⟨B, hB, rfl⟩ := hQ
  refine ⟨affineAdd A B, ?_, (toPoint_affineAdd hA.onE hB.onE).2⟩
  rw [residues_addPoints]
  exact completeAddition _ _ _ _ hA hB

theorem Represents.dblPoint (hP : Represents P g) : Represents (dblPoint P) (g + g) := by
  obtain ⟨A, hA, rfl⟩ := hP
  refine ⟨affineAdd A A, ?_, (toPoint_affineAdd hA.onE hA.onE).2⟩
  rw [residues_dblPoint]
  exact (completeDoubling _ _ hA).1

theorem denotes_identityPoint : Denotes (residues identityPoint) .infinity := by
  rw [residues_identityPoint, denotes_infinity_iff]
  simp

theorem represents_identityPoint : Represents identityPoint 0 := ⟨.infinity, denotes_identityPoint, rfl⟩

/-- −(x, y) is the group's negation. -/
theorem toPoint_affineNeg {A : AffinePoint} (hA : A.valid = true) :
    (affineNeg A).valid = true ∧ toPoint (affineNeg A) = -toPoint A := by
  cases A with
  | infinity => exact ⟨rfl, neg_zero.symm⟩
  | affine x y =>
    obtain ⟨hx, -, hon⟩ := (valid_affine x y).1 hA
    have hon' : onE (x : ZMod p) (fsub 0 y : Nat) := by
      rw [onE, cast_fsub_zero, neg_sq]
      exact hon
    refine ⟨(valid_affine _ _).2 ⟨hx, fsub_lt 0 y, hon'⟩, ?_⟩
    rw [affineNeg, toPoint_affine hon', toPoint_affine hon, WeierstrassCurve.Affine.Point.neg_some,
      WeierstrassCurve.Affine.Point.some.injEq]
    refine ⟨rfl, ?_⟩
    rw [cast_fsub_zero]
    simp [WeierstrassCurve.Affine.negY, curve]

/-- Negating Y negates the point denoted (R207). -/
theorem Denotes.neg {T : Triple} {A : AffinePoint} (hT : Denotes T A) : Denotes ⟨T.X, fsub 0 T.Y, T.Z⟩ (affineNeg A) := by
  cases A with
  | infinity =>
    obtain ⟨hZ, hX, hY⟩ := denotes_infinity_iff.1 hT
    exact denotes_infinity_iff.2 ⟨hZ, hX, by rw [cast_fsub_zero]; exact neg_ne_zero.2 hY⟩
  | affine x y =>
    obtain ⟨hv, hZ, hX, hY⟩ := denotes_affine_iff.1 hT
    refine denotes_affine_iff.2 ⟨(toPoint_affineNeg hv).1, hZ, hX, ?_⟩
    rw [cast_fsub_zero, cast_fsub_zero, hY, neg_mul]

theorem Represents.negPoint (hP : Represents P g) : Represents (negPoint P) (-g) := by
  obtain ⟨A, hA, rfl⟩ := hP
  refine ⟨affineNeg A, ?_, (toPoint_affineNeg hA.onE).2⟩
  rw [residues_negPoint]
  exact hA.neg

/-! ## The table and the lookup (R245, R248) -/

/-- Entry k of the table represents (k + 1)·Q. -/
theorem represents_entry (hQ : Represents Q g) {k : Nat} (hk : k < 16) :
    Represents (entry (precompute Q) k) (((k + 1 : Nat) : Int) • g) := by
  induction k using Nat.strong_induction_on with
  | _ k ih =>
    obtain rfl | hpos := Nat.eq_zero_or_pos k
    · rw [entry_precompute_zero, zero_add, Nat.cast_one, one_zsmul]
      exact hQ
    · have hrec := entry_precompute_rec Q (m := k + 1) (by omega) (by omega)
      rw [Nat.add_sub_cancel] at hrec
      rw [hrec]
      split
      · have hhalf := (ih ((k + 1) / 2 - 1) (by omega) (by omega)).dblPoint
        rw [← add_zsmul] at hhalf
        convert hhalf using 2
        omega
      · have hsum := (ih (k + 1 - 2) (by omega) (by omega)).addPoints (ih 0 hpos (by omega))
        rw [← add_zsmul] at hsum
        convert hsum using 2
        omega

/-- The looked-up point represents d·Q. -/
theorem represents_lookupDigit (hQ : Represents Q g) {d : Int} (hl : -16 ≤ d) (hu : d ≤ 15) :
    Represents (lookupDigit (precompute Q) d) (d • g) := by
  rw [lookupDigit_cases _ hl hu]
  split
  · next h0 => rw [h0, zero_zsmul]; exact represents_identityPoint
  · split
    · have hentry := represents_entry hQ (k := d.toNat - 1) (by omega)
      convert hentry using 2
      omega
    · have hentry := (represents_entry hQ (k := (-d).toNat - 1) (by omega)).negPoint
      rw [← neg_zsmul] at hentry
      convert hentry using 2
      omega

/-- INIT: the accumulator represents c·Q (R246). -/
theorem represents_initAcc (hQ : Represents Q g) {c : Nat} (hc : c ≤ 1) :
    Represents (initAcc c (precompute Q)) ((c : Int) • g) := by
  obtain rfl | rfl : c = 0 ∨ c = 1 := by omega
  · rw [initAcc, decide_eq_false (by decide), selectPoint_false, Nat.cast_zero, zero_zsmul]
    exact represents_identityPoint
  · rw [initAcc, decide_eq_true rfl, selectPoint_true, entry_precompute_zero, Nat.cast_one, one_zsmul]
    exact hQ

/-! ## The loop (R247, R248) -/

/-- A window takes m·Q to (32·m + d)·Q. -/
theorem represents_windowStep (hQ : Represents Q g) {acc : Point} {m : Int} (hacc : Represents acc (m • g)) {ds : List Int} {i : Nat}
    (hl : -16 ≤ ds.getD i 0) (hu : ds.getD i 0 ≤ 15) :
    Represents (windowStep (precompute Q) ds acc i) ((32 * m + ds.getD i 0) • g) := by
  have hstep := hacc.dblPoint.dblPoint.dblPoint.dblPoint.dblPoint.addPoints (represents_lookupDigit hQ hl hu)
  simp only [← add_zsmul] at hstep
  rw [windowStep]
  convert hstep using 2
  ring

/-- The `n` windows that are left shift the accumulator by 32ⁿ and add their digits. -/
theorem represents_windows (hQ : Represents Q g) {ds : List Int} (hds : ∀ i, -16 ≤ ds.getD i 0 ∧ ds.getD i 0 ≤ 15) (n : Nat)
    {acc : Point} {m : Int} (hacc : Represents acc (m • g)) :
    Represents ((List.range n).reverse.foldl (windowStep (precompute Q) ds) acc) ((digitSum ds n + m * 32 ^ n) • g) := by
  induction n generalizing acc m with
  | zero => simpa [digitSum] using hacc
  | succ n ih =>
    obtain ⟨hl, hu⟩ := hds n
    have hwindows := ih (represents_windowStep hQ hacc hl hu)
    rw [List.range_succ, List.reverse_concat, List.foldl_cons]
    convert hwindows using 2
    rw [digitSum_succ]
    ring

/-- The ladder computes the multiple of its scalar's low 255 bits (R244). -/
theorem represents_ladderAcc (hQ : Represents Q g) (K : Nat) : Represents (ladderAcc K Q) ((K % 2 ^ 255) • g) := by
  obtain ⟨-, -, htop, hsum⟩ := recodingReconstructs K
  have hwindows := represents_windows hQ (decompose_digit_range K) 51 (represents_initAcc hQ htop)
  rw [← natCast_zsmul, hsum]
  exact hwindows

/-! ## From the point bytes to the result bytes (R242, R249, R250) -/

/-- Bytes that stand for the point A decode to a triple of A (R242). -/
theorem decodePoint_denotes {bytes : List Byte} {x y : Nat} {A : AffinePoint} (hx : x = decodeValue (bytes.take 32))
    (hy : y = decodeValue (bytes.drop 32))
    (hA : x = 0 ∧ y = 0 ∧ A = .infinity ∨ ¬ (x = 0 ∧ y = 0) ∧ A = .affine (x % p) (y % p) ∧ A.valid = true) :
    ∃ P, decodePoint bytes = .ok P ∧ Denotes (residues P) A := by
  have hcases := decodePoint_cases bytes
  rw [← hx, ← hy] at hcases
  rcases hA with ⟨hx0, hy0, rfl⟩ | ⟨hne, rfl, hv⟩
  · rcases hcases with ⟨-, -, hdec⟩ | ⟨hne, -⟩ | ⟨hne, -⟩
    · exact ⟨identityPoint, hdec, denotes_identityPoint⟩
    · exact absurd ⟨hx0, hy0⟩ hne
    · exact absurd ⟨hx0, hy0⟩ hne
  · have hcurve := ((valid_affine _ _).1 hv).2.2
    simp only [onE, cast_mod] at hcurve
    rcases hcases with ⟨hx0, hy0, -⟩ | ⟨-, -, hdec⟩ | ⟨-, hoff, -⟩
    · exact absurd ⟨hx0, hy0⟩ hne
    · refine ⟨_, hdec, denotes_affine_iff.2 ⟨hv, ?_⟩⟩
      have hone : canon oneFe = 1 := by decide
      have hx' : x < 2 ^ 255 := hx ▸ decodeValue_lt _
      have hy' : y < 2 ^ 255 := hy ▸ decodeValue_lt _
      simp [residues, hone, canon_limbs hx', canon_limbs hy']
    · exact absurd hcurve hoff

/-- The encoding of a triple is the encoding of the point it denotes. -/
theorem encodePoint_of_denotes {A : AffinePoint} (hA : Denotes (residues P) A) : encodePoint P = encodeAffine A := by
  cases A with
  | infinity =>
    have hZ : canon P.z = 0 := by
      have hmod := (cast_eq_zero_iff _).1 (denotes_infinity_iff.1 hA).1
      exact (Nat.mod_eq_of_lt (canon_lt P.z)).symm.trans hmod
    rw [encodePoint, affineX, affineY, hZ, fmul_invp_zero, fmul_invp_zero, leBytes_zero]
    rfl
  | affine x y =>
    rcases denoted_cases (residues P) with ⟨-, e⟩ | ⟨-, -, e⟩ | ⟨-, -, -, e⟩
    · obtain ⟨hx, hy⟩ := AffinePoint.affine.inj (Option.some.inj (hA.point.symm.trans e))
      rw [encodeAffine, hx, hy]
      rfl
    · cases hA.point.symm.trans e
    · cases hA.point.symm.trans e

/-- The bytes the ladder ends with (R250). -/
theorem encodePoint_ladderAcc {A : AffinePoint} (hA : Denotes (residues P) A) (K : Nat) :
    encodePoint (ladderAcc K P) = encodeAffine (affineMul (K % 2 ^ 255) A) := by
  obtain ⟨B, hB, hpoint⟩ := represents_ladderAcc ⟨A, hA, rfl⟩ K
  obtain ⟨hv, hmul⟩ := toPoint_affineMul hA.onE (K % 2 ^ 255)
  rw [encodePoint_of_denotes hB, toPoint_inj hB.onE hv (hpoint.trans hmul.symm)]

end

/-- Settles O37: the ladder's accumulator represents the multiple, and its encoding is that of the point it denotes. -/
theorem scalarMultIsScalarMultiple : Obligations.ScalarMultIsScalarMultiple := by
  have : Fact p.Prime := ⟨p_prime⟩
  intro s rd ra rb hw K x y Q hQ
  obtain ⟨P, hdec, hP⟩ := decodePoint_denotes (bytes := readQ s rb) (congrArg decodeValue (readQ_take s rb).symm)
    (congrArg decodeValue (readQ_drop s rb).symm) hQ
  obtain ⟨t, hexec, hframe, hbytes⟩ := exec_scalarmult_ok hw hdec
  refine ⟨t, hexec, hframe, fun k hk => ?_⟩
  have hread := memRead_getElem? t (32 * rd.toNat) 64 k hk
  rw [hbytes, encodePoint_ladderAcc hP] at hread
  exact (congrArg (Option.getD · 0) hread).symm

theorem affineMul_infinity (k : Nat) : affineMul k .infinity = .infinity := by
  induction k with
  | zero => rfl
  | succ k ih => rw [affineMul, ih]; rfl

/-- Zero bytes read as the integer 0. -/
theorem le_memRead_zero {s : State} {off n : Nat} (h : ∀ k < n, bufByte s (off + k) = 0) : le (memRead s off n) = 0 := by
  have hzero : memRead s off n = List.replicate n 0#8 :=
    List.eq_replicate_iff.2 ⟨memRead_length s off n, by simpa [memRead] using h⟩
  rw [hzero, le_replicate_zero]

/-- Settles O38: every multiple of O is O. -/
theorem scalarMultOfIdentity : Obligations.ScalarMultOfIdentity := by
  intro s rd ra rb hw hzero
  have hx : le (memRead s (32 * rb.toNat) 32) = 0 := le_memRead_zero fun k hk => hzero k (by omega)
  have hy : le (memRead s (32 * rb.toNat + 32) 32) = 0 := le_memRead_zero fun k hk => by
    rw [Nat.add_assoc]
    exact hzero (32 + k) (by omega)
  obtain ⟨t, hexec, hframe, hbytes⟩ := scalarMultIsScalarMultiple s rd ra rb hw .infinity
    (.inl ⟨congrArg (· % 2 ^ 255) hx, congrArg (· % 2 ^ 255) hy, rfl⟩)
  refine ⟨t, hexec, hframe, fun k hk => ?_⟩
  rw [hbytes k hk, affineMul_infinity, encodeAffine, List.getD_replicate _ hk]

end Sys2Proof.Machine
end

section
/-! Completions, errors and the interrupt (60_exceptions.md R290 to R304): how every command ends, the way out of a sticky error, and
what the interrupt output shows of them. -/

namespace Sys2Proof.Machine

/-! ## The control state through a command -/

namespace SameControl

variable {s u : State}

theorem of_startsFrom (h : startsFrom s u) : SameControl s u := by
  rcases h with rfl | rfl <;> exact ⟨rfl, rfl, rfl, rfl, rfl, rfl⟩

theorem setFeReg (h : SameControl s u) (n : Nat) (v : Fe) : SameControl s (setFeReg u n v) :=
  ⟨h.ie, h.cmd, h.host, h.resp, h.polled, h.epoch⟩

theorem setPtReg (h : SameControl s u) (n : Nat) (P : Point) : SameControl s (setPtReg u n P) :=
  ⟨h.ie, h.cmd, h.host, h.resp, h.polled, h.epoch⟩

theorem memWrite (h : SameControl s u) (off : Nat) (bs : List Byte) : SameControl s (memWrite u off bs) :=
  ⟨h.ie, h.cmd, h.host, h.resp, h.polled, h.epoch⟩

end SameControl

/-- A success completion, the destinations being written already (60_exceptions.md R299). -/
theorem completeSuccess_succeeded {s u : State} (hstatus : u.status = s.status) (hc : SameControl s u) :
    Succeeded s (completeSuccess u) where
  done := rfl
  busy := rfl
  err := by rw [completeSuccess_status, hstatus]
  cause := by rw [completeSuccess_status, hstatus]
  ovr := by rw [completeSuccess_status, hstatus]
  pending := rfl
  control := ⟨hc.ie, hc.cmd, hc.host, hc.resp, hc.polled, hc.epoch⟩

/-- An error completion writes nothing, whether the command used the hidden state or not (60_exceptions.md R297). -/
theorem completeError_wroteNothing {s u : State} (k : Cause) (h : startsFrom s u) : WroteNothing k s (completeError k u) := by
  rcases h with rfl | rfl
  · exact (completeError_spec k u).1
  · exact completeError_scrub_spec k s

/-! ## How every command ends -/

/-- Settles O40: three of the four ways a command can end are a success, and the fourth is its data error. -/
theorem everyCommandCompletes : Obligations.EveryCommandCompletes := by
  intro i s _
  obtain ⟨u, hu, hc⟩ := exec_cases i s
  have hstatus : u.status = s.status := (KeepsCommand.of_startsFrom hu).status
  have hcontrol := SameControl.of_startsFrom hu
  rcases hc with ⟨v, he, -⟩ | ⟨P, he, -⟩ | ⟨bs, he, -⟩ | ⟨k, he, hk⟩
  · exact ⟨_, he, .inl (completeSuccess_succeeded hstatus (hcontrol.setFeReg _ v))⟩
  · exact ⟨_, he, .inl (completeSuccess_succeeded hstatus (hcontrol.setPtReg _ P))⟩
  · exact ⟨_, he, .inl (completeSuccess_succeeded hstatus (hcontrol.memWrite _ bs))⟩
  · exact ⟨_, he, .inr ⟨k, hk, completeError_wroteNothing k hu⟩⟩

/-! ## The way out of an error -/

section ControlWrites

variable {s : State} {rest : List HostOp} {v : Dword}

/-- A command write refused because of the error not yet acknowledged (10_state.md R43). -/
theorem step_refuses_on_error (hh : s.host = .write (Config.base + 0x00C) 4 v :: rest) (he : s.status.err = true) :
    step s = .next (setOverrun (acked s rest)) := by
  rw [step_write hh (by decide) locate_control.2.2.2.1, hostWrite_cmd, writeCmd_refused (s := acked s rest) _ (.inr he)]

/-- The acknowledging write: 4 has a 1 at ERR alone (60_exceptions.md R298). -/
theorem step_acknowledges (hh : s.host = .write (Config.base + 0x008) 4 4 :: rest) :
    step s = .next (acknowledgeError (acked s rest)) := by
  rw [step_write hh (by decide) locate_control.2.2.1, hostWrite_status]
  rfl

/-- An accepted command write (10_state.md R43). -/
theorem step_accepts (hh : s.host = .write (Config.base + 0x00C) 4 v :: rest) (hb : s.status.busy = false)
    (he : s.status.err = false) : step s = .next (acceptCommand (acked s rest) (v.setWidth 32)) := by
  rw [step_write hh (by decide) locate_control.2.2.2.1, hostWrite_cmd, writeCmd_accepted (s := acked s rest) _ ⟨hb, he⟩]

end ControlWrites

/-- Settles O44: refusal, acknowledgement and acceptance, one after another. -/
theorem stickyErrorAndReturn : Obligations.StickyErrorAndReturn := by
  intro s rest v hb he hh
  exact ⟨_, _, _, step_refuses_on_error hh he, step_acknowledges rfl, step_accepts rfl hb rfl, rfl, rfl, rfl, rfl, rfl, rfl, rfl, rfl⟩

/-! ## The interrupt output -/

theorem irq_iff (s : State) : irq s = true ↔ s.ie = true ∧ (s.status.done = true ∨ s.status.err = true) := by
  rw [irq, Bool.and_eq_true, Bool.or_eq_true]

theorem Succeeded.irq_eq_true {s t : State} (h : Succeeded s t) (hie : s.ie = true) : irq t = true :=
  (irq_iff t).2 ⟨h.control.ie.trans hie, .inl h.done⟩

theorem Failed.irq_eq_true {k : Cause} {s t : State} (h : Failed k s t) (hie : s.ie = true) : irq t = true :=
  (irq_iff t).2 ⟨h.control.ie.trans hie, .inr h.err⟩

/-- A command's completion raises the interrupt where it is enabled. -/
theorem irq_of_exec {i : Instr} {s t : State} (hw : i.wf = true) (hie : s.ie = true) (h : exec i s = .next t) : irq t = true := by
  obtain ⟨u, hu, hc⟩ := everyCommandCompletes i s hw
  obtain rfl := Host.Outcome.next.inj (h.symm.trans hu)
  rcases hc with hs | ⟨k, -, hf⟩
  · exact hs.irq_eq_true hie
  · exact hf.completed.irq_eq_true hie

/-- So does the completion of any pending word: one that is no command completes with the decoder's error. -/
theorem irq_of_coreStep {s t : State} {w : Word} (hp : s.pending = some w) (hie : s.ie = true) (h : coreStep s = .next t) :
    irq t = true := by
  rcases hd : decode w with k | i
  · obtain ⟨u, hu, hf⟩ := coreStep_refuses hp hd
    obtain rfl := Host.Outcome.next.inj (h.symm.trans hu)
    exact hf.completed.irq_eq_true hie
  · rw [coreStep_ok hp hd] at h
    exact irq_of_exec (decode_wf hd) hie h

/-- An acceptance clears DONE and needs ERR = 0. -/
theorem irq_acceptCommand {s : State} (w : Word) (he : s.status.err = false) : irq (acceptCommand s w) = false := by
  rw [irq, acceptCommand_status, he, Bool.or_self, Bool.and_false]

/-- Settles O47: every completion sets DONE or ERR, and an acceptance leaves neither. -/
theorem interruptOutput : Obligations.InterruptOutput := by
  refine ⟨irq_iff, fun i s t hw hie h => irq_of_exec hw hie h, fun s t w hp hie h => irq_of_coreStep hp hie h, ?_⟩
  intro s t v rest hb he hh h
  obtain rfl := Host.Outcome.next.inj (h.symm.trans (step_accepts hh hb he))
  exact irq_acceptCommand _ he

end Sys2Proof.Machine
end

section
/-! The core's turn and the two resets (70_reset_and_hazards.md R331, R332, R339), a host program that runs to its end, and why no fair
run leaves the host waiting (R342). -/

namespace Sys2Proof.Machine

/-! ## The core's turn -/

/-- The core takes its step in `u`, which is `s` with the event that gave it the turn removed. -/
theorem step_of_coreTurn {s u : State} (h : s.host = [] ∧ u = s ∨ ∃ rest, s.host = .core :: rest ∧ u = { s with host := rest }) :
    step s = coreStep u ∧ u.pending = s.pending := by
  rcases h with ⟨hh, rfl⟩ | ⟨rest, hh, rfl⟩
  · exact ⟨step_of_nil hh, rfl⟩
  · exact ⟨step_of_cons hh, rfl⟩

/-- Settles O6: the core's step, case by case. -/
theorem stepRunsPendingCommand : Obligations.StepRunsPendingCommand := by
  intro s u ht
  obtain ⟨hstep, hpending⟩ := step_of_coreTurn ht
  rw [hstep, ← hpending]
  exact ⟨fun _ _ hp hd => coreStep_ok hp hd, fun _ _ hp hd => coreStep_refuses hp hd, coreStep_idle⟩

/-! ## The resets -/

/-- Settles O49: the state after it has STATUS clear, nothing pending and BUF unwritten. -/
theorem step_powerOnReset : Obligations.PowerOnReset := fun _ _ hh =>
  ⟨_, step_of_cons hh, rfl, rfl, rfl, rfl, rfl, rfl, Inv.of_idleStatus rfl rfl rfl⟩

/-- Settles O50: a soft reset drops the pending command, and only the destinations of a command it drops become free. -/
theorem step_softReset : Obligations.SoftReset := by
  intro s rest v hh
  obtain ⟨-, hctrl, -⟩ := locate_control
  have hbit {k : Nat} (hk : k < 32) : (v.setWidth 32).getLsbD k = v.getLsbD k := getLsbD_setWidth_word v hk
  have hstep := step_write hh (by decide) hctrl
  rw [hostWrite_ctrl] at hstep
  refine ⟨fun hv => ?_, fun hv => ?_⟩
  · rw [writeCtrl_softReset ((hbit (by decide)).trans hv), hbit (by decide)] at hstep
    obtain ⟨hpending, hcmd, hhost, -⟩ := abandonPending_control (acked s rest)
    exact ⟨_, hstep, hhost, rfl, rfl, hpending, hcmd, fun _ _ hp hd => abandonPending_frame (s := acked s rest) hp hd,
      fun h => abandonPending_same (s := acked s rest) h⟩
  · rw [writeCtrl_ie ((hbit (by decide)).trans hv), hbit (by decide)] at hstep
    exact ⟨_, hstep, rfl, rfl, ⟨fun _ => rfl, fun _ => rfl, rfl⟩, rfl, rfl, ⟨rfl, rfl⟩⟩

/-! ## A host program of commands -/

/-- The script's command `i` is over: nothing is pending, and if ERR is 0 the command was accepted and has succeeded. -/
structure CommandOver (i : Instr) (s : State) : Prop where
  pending : s.pending = none
  busy : s.status.busy = false
  succeeded : s.status.err = false → s.cmd = encode i ∧ s.status.done = true

/-- The command has run, in an idle block: with success, or with its data error, which sets ERR. -/
theorem commandOver_of_exec {s : State} {i : Instr} {rest : List HostOp} (hw : i.wf = true) :
    ∃ t, exec i (issued s i rest) = .next t ∧ CommandOver i t ∧ t.host = rest := by
  obtain ⟨t, ht, hs | ⟨k, -, hf⟩⟩ := everyCommandCompletes i (issued s i rest) hw
  · exact ⟨t, ht, ⟨hs.pending, hs.busy, fun _ => ⟨hs.control.cmd, hs.done⟩⟩, hs.control.host⟩
  · have hfail := hf.completed
    exact ⟨t, ht, ⟨hfail.pending, hfail.busy, fun he => absurd (hfail.err.symm.trans he) (by decide)⟩, hfail.control.host⟩

/-- The first two steps of a command's script. After an error that is not acknowledged the write is refused and the core idles, and
ERR stays 1 (10_state.md R43). -/
theorem run_write_core {s : State} {i : Instr} {rest : List HostOp} (hw : i.wf = true) (hp : s.pending = none)
    (hb : s.status.busy = false) (hh : s.host = .write (Config.base + 0x00C) 4 ((encode i).setWidth 64) :: .core :: rest) :
    ∃ t, (∀ k, Host.Core.run core (k + 2) s = Host.Core.run core k t) ∧ CommandOver i t ∧ t.host = rest := by
  cases he : s.status.err with
  | false =>
    obtain ⟨t, ht, hover, hhost⟩ := commandOver_of_exec (s := s) (rest := rest) hw
    refine ⟨t, fun k => ?_, hover, hhost⟩
    rw [run_succ (step_issues ⟨hp, hb, he⟩ hh), run_succ ((step_runs_issued hw).trans ht)]
  | true =>
    have hcore : step (setOverrun (acked s (.core :: rest))) = .next (setOverrun (acked s rest)) :=
      (step_of_cons (e := .core) (rest := rest) rfl).trans (coreStep_idle (s := setOverrun (acked s rest)) hp)
    refine ⟨setOverrun (acked s rest), fun k => ?_, ⟨hp, hb, fun h => absurd (he.symm.trans h) (by decide)⟩, rfl⟩
    rw [run_succ (step_refuses_on_error hh he), run_succ hcore]

/-- The host's read of STATUS sees BUSY = 0. -/
theorem step_poll {s : State} {i : Instr} {rest : List HostOp} (h : CommandOver i s) (hh : s.host = pollStatus :: rest) :
    ∃ t, step s = .next t ∧ CommandOver i t ∧ t.host = rest ∧ t.polled = true := by
  obtain ⟨-, -, hstatus, -⟩ := locate_control
  refine ⟨_, step_read hh (by decide) hstatus, ⟨h.pending, h.busy, h.succeeded⟩, rfl, ?_⟩
  simp [hostRead, readStatus, h.busy]

/-- The three steps of one command of a script, whatever became of the commands before it. -/
theorem run_command_over {s : State} {i : Instr} {is : List Instr} (hw : i.wf = true) (hp : s.pending = none)
    (hb : s.status.busy = false) (hh : s.host = commandScript (i :: is)) :
    ∃ t, (∀ k, Host.Core.run core (k + 3) s = Host.Core.run core k t) ∧ CommandOver i t ∧ t.host = commandScript is ∧
      t.polled = true := by
  obtain ⟨u, hrun, hover, hhost⟩ := run_write_core hw hp hb hh
  obtain ⟨t, ht, hpolled⟩ := step_poll hover hhost
  exact ⟨t, fun k => (hrun (k + 1)).trans (run_succ ht k), hpolled⟩

/-- A script of at least one command runs to its end, where its last command is over. -/
theorem run_script (is : List Instr) (i : Instr) {s : State} (hw : ∀ j ∈ i :: is, j.wf = true) (hp : s.pending = none)
    (hb : s.status.busy = false) (hh : s.host = commandScript (i :: is)) :
    ∃ t, Host.Core.run core (3 * (i :: is).length) s = .next t ∧
      CommandOver ((i :: is).getLast (List.cons_ne_nil i is)) t ∧ t.host = [] ∧ t.polled = true := by
  induction is generalizing i s with
  | nil =>
    obtain ⟨u, hrun, hover, hhost, hpolled⟩ := run_command_over (hw i List.mem_cons_self) hp hb hh
    exact ⟨u, hrun 0, hover, hhost, hpolled⟩
  | cons j js ih =>
    obtain ⟨u, hrun, hover, hhost, -⟩ := run_command_over (hw i List.mem_cons_self) hp hb hh
    obtain ⟨t, ht, hend⟩ := ih j (fun k hk => hw k (List.mem_cons_of_mem i hk)) hover.pending hover.busy hhost
    exact ⟨t, (hrun _).trans ht, hend⟩

/-! ## Runs without end -/

/-- An event at the boundary is a step of the state in which it comes first. -/
theorem boundaryStep_effect {e : HostOp} {s t : State} (h : boundaryStep e s = .next t) :
    StepEffect { s with host := e :: s.host } t :=
  step_effect ((step_of_cons rfl).trans h)

/-- BUSY rises only by an accepted write to CMD (10_state.md R43). -/
theorem StepEffect.busy_rises {s t : State} (h : StepEffect s t) (h0 : s.status.busy = false) (h1 : t.status.busy = true) :
    ∃ v rest, s.host = .write (Config.base + 0x00C) 4 v :: rest := by
  cases h with
  | accepted _ hh => exact ⟨_, _, hh⟩
  | kept hu => simp [hu.status, h0] at h1
  | overrun hu => simp [hu.status, h0] at h1
  | cleared hu => simp [writeStatus_eq, hu.status, h0] at h1
  | softReset => nomatch h1
  | powerOn => nomatch h1
  | succeeded => nomatch h1
  | failed => nomatch h1

/-- The core completes whatever is pending, and BUSY falls. -/
theorem coreStep_busy {s t : State} (hp : s.pending.isSome = true) (h : coreStep s = .next t) : t.status.busy = false := by
  obtain ⟨w, hw⟩ := Option.isSome_iff_exists.1 hp
  rcases hd : decode w with k | i
  · obtain rfl := Host.Outcome.next.inj (h.symm.trans (coreStep_error hw hd))
    rfl
  · rw [coreStep_ok hw hd] at h
    obtain ⟨u, -, rfl | ⟨k, -, rfl⟩⟩ := exec_completes h <;> rfl

/-- A read of STATUS answers BUSY in bit 0 (10_state.md R42). -/
theorem boundaryStep_readStatus {s t : State} {d : Dword} (h : boundaryStep (.read (Config.base + 0x008) 4) s = .next t)
    (hd : t.resp = .data d) : d.getLsbD 0 = s.status.busy := by
  obtain ⟨-, -, hstatus, -⟩ := locate_control
  obtain rfl := Host.Outcome.next.inj (h.symm.trans (access_located hostRead s (by decide) hstatus))
  obtain rfl : (statusWord s).setWidth 64 = d := HostResponse.data.inj hd
  rw [BitVec.getLsbD_setWidth, (statusWord_layout s).1]
  exact Bool.true_and _

section Run

variable {σ : Nat → State} {e : Nat → HostOp} (hrun : isRun σ e)
include hrun

theorem isRun.inv (h0 : Inv (σ 0)) (n : Nat) : Inv (σ n) := by
  induction n with
  | zero => exact h0
  | succ n ih => exact (ih.of_keepsCommand (.withHost _ _)).of_stepEffect (boundaryStep_effect (hrun n))

/-- Once BUSY is 0 it stays 0 while no command is written. -/
theorem isRun.idle_of_le {m k : Nat} (hcmd : ∀ j, m ≤ j → ∀ v, e j ≠ .write (Config.base + 0x00C) 4 v)
    (hb : (σ m).status.busy = false) (hk : m ≤ k) : (σ k).status.busy = false := by
  induction k, hk using Nat.le_induction with
  | base => exact hb
  | succ k hk ih =>
    refine Bool.eq_false_of_not_eq_true fun h1 => ?_
    obtain ⟨v, rest, hh⟩ := (boundaryStep_effect (hrun k)).busy_rises ih h1
    exact hcmd k hk v (List.cons.inj hh).1

/-- A host that hangs never leaves BUSY = 1: its next read of STATUS would answer 0. -/
theorem isRun.busy_of_hang {n : Nat} (hcmd : ∀ m, n ≤ m → ∀ v, e m ≠ .write (Config.base + 0x00C) 4 v)
    (hreads : ∀ m, n ≤ m → ∃ k, m ≤ k ∧ e k = .read (Config.base + 0x008) 4)
    (hbusy : ∀ m, n ≤ m → e m = .read (Config.base + 0x008) 4 → ∃ d : Dword, (σ (m + 1)).resp = .data d ∧ d.getLsbD 0 = true)
    {m : Nat} (hm : n ≤ m) : (σ m).status.busy = true := by
  refine Bool.eq_true_of_not_eq_false fun hb => ?_
  obtain ⟨k, hk, hread⟩ := hreads m hm
  obtain ⟨d, hd, h1⟩ := hbusy k (hm.trans hk) hread
  have h0 : (σ k).status.busy = false := hrun.idle_of_le (fun j hj => hcmd j (hm.trans hj)) hb hk
  have hans : d.getLsbD 0 = (σ k).status.busy := boundaryStep_readStatus (hread ▸ hrun k) hd
  exact absurd (h1.symm.trans (hans.trans h0)) (by decide)

/-- While BUSY is 1 for ever a command is always pending; the core's fair turn completes it. -/
theorem isRun.not_hang (h0 : Inv (σ 0)) (hfair : isFair σ e) : ¬ isHang σ e := by
  rintro ⟨n, hcmd, hreads, hbusy⟩
  have hb : ∀ m, n ≤ m → (σ m).status.busy = true := fun m hm => hrun.busy_of_hang hcmd hreads hbusy hm
  have hp : ∀ m, n ≤ m → (σ m).pending.isSome = true := fun m hm => by rw [← (hrun.inv h0 m).busy_pending, hb m hm]
  obtain ⟨m, hm, hcore⟩ := hfair n hp
  have hfalls : (σ (m + 1)).status.busy = false := coreStep_busy (hp m hm) (hcore ▸ hrun m : boundaryStep .core (σ m) = _)
  exact absurd ((hb (m + 1) (Nat.le_succ_of_le hm)).symm.trans hfalls) (by decide)

end Run

/-- Settles O59: the script command by command, and the run without end by the core's fair turn. -/
theorem commandScriptsRun : Obligations.CommandScriptsRun := by
  refine ⟨fun is s hs hw hh => ?_, fun σ e h0 hrun hfair => hrun.not_hang h0 hfair⟩
  cases is with
  | nil => exact ⟨s, rfl, fun h => absurd rfl h, hh, hs.pending, hs.busy, fun _ i hi => nomatch hi⟩
  | cons i is =>
    obtain ⟨t, hrun, hover, hhost, hpolled⟩ := run_script is i hw hs.pending hs.busy hh
    refine ⟨t, hrun, fun _ => ⟨hpolled, fun _ _ _ => ?_⟩, hhost, hover.pending, hover.busy, fun he j hj => ?_⟩
    · rw [hhost]; exact List.not_mem_nil
    · obtain rfl := Option.some.inj ((List.getLast?_eq_some_getLast (List.cons_ne_nil i is)).symm.trans hj)
      exact hover.succeeded he

end Sys2Proof.Machine
end
